-- ==== Sys2Proof/Word.lean ====
section
/-! DEFINITION. The words of the machine: the byte every address space is made of (20_memory.md R66, R67)
and the 7-bit register address (10_state.md R32). -/

namespace Sys2Proof

/-- One byte: 8 bits (00_scope.md R11). -/
abbrev Byte := BitVec 8

/-- A register address of the chip: 7 bits (10_state.md R32). -/
abbrev RegAddr := BitVec 7

end Sys2Proof
end

