-- ==== Sys2Proof/Config.lean ====
section
/-! DEFINITION. What an implementation fixes (the configuration record `Cfg` of 00_scope.md R9 and R10), the names
of the chip's modes and registers it is keyed by, and the free values: the values the spec leaves open. The default
numbers stand in Machine/Params.lean. -/

namespace Sys2Proof

/-- The four operating modes (10_state.md R35; the 2-bit index of 30_encoding.md R93 is the order here). -/
inductive Mode
  | sleep
  | standby
  | tx
  | rxContinuous
deriving DecidableEq, Repr

/-- The 23 registers of the chip's register map, by name (10_state.md R33). -/
inductive Reg
  | fifo
  | opMode
  | frfMsb
  | frfMid
  | frfLsb
  | paConfig
  | lna
  | fifoAddrPtr
  | fifoTxBase
  | fifoRxBase
  | fifoRxCurrent
  | irqFlags
  | rxNbBytes
  | pktSnr
  | pktRssi
  | modemConfig1
  | modemConfig2
  | symbTimeout
  | preambleMsb
  | preambleLsb
  | payloadLength
  | dioMapping
  | version
deriving DecidableEq, Repr

/-- `RegMap`: the address of every register (10_state.md R33; 92_eei_decisions.md D4). -/
structure RegMap where
  fifo : RegAddr
  opMode : RegAddr
  frfMsb : RegAddr
  frfMid : RegAddr
  frfLsb : RegAddr
  paConfig : RegAddr
  lna : RegAddr
  fifoAddrPtr : RegAddr
  fifoTxBase : RegAddr
  fifoRxBase : RegAddr
  fifoRxCurrent : RegAddr
  irqFlags : RegAddr
  rxNbBytes : RegAddr
  pktSnr : RegAddr
  pktRssi : RegAddr
  modemConfig1 : RegAddr
  modemConfig2 : RegAddr
  symbTimeout : RegAddr
  preambleMsb : RegAddr
  preambleLsb : RegAddr
  payloadLength : RegAddr
  dioMapping : RegAddr
  version : RegAddr
deriving DecidableEq, Repr

/-- `MODE_CODE`: the 3-bit code of each mode (10_state.md R34; D5). -/
structure ModeCodes where
  sleep : BitVec 3
  standby : BitVec 3
  tx : BitVec 3
  rxContinuous : BitVec 3
deriving DecidableEq, Repr

/-- `IRQ_BIT`: the bit of each named IRQ flag (10_state.md R43; D6). -/
structure IrqBits where
  txDone : Nat
  payloadCrcError : Nat
  rxDone : Nat
deriving DecidableEq, Repr

/-- The configuration record `Cfg` (00_scope.md R9, R10), as plain data. -/
structure Cfg where
  /-- `XTAL_HZ`, the crystal reference in hertz; 0 is admitted and makes the synthesizer valueless (R122). -/
  xtalHz : Nat
  /-- `RES_BITS`, the frequency resolution. -/
  resBits : Nat
  /-- `RegMap`. -/
  map : RegMap
  /-- `MODE_CODE`. -/
  modeCodes : ModeCodes
  /-- The bit of the mode register that is `LORA_BIT`, 3 to 7. -/
  loraBit : Nat
  /-- `IRQ_BIT`. -/
  irqBits : IrqBits
  /-- `MAP_RXDONE`, the byte that maps the pin to RX-complete. -/
  mapRxDone : Byte
  /-- `MAP_TXDONE`, the byte that maps the pin to TX-complete. -/
  mapTxDone : Byte
  /-- `BW_SET` with `bw_code`: bandwidth in hertz and its 4-bit code (42_mode.md R131). -/
  bwCodes : List (Nat × BitVec 4)
  /-- `TXP_MIN`, `TXP_MAX` in dBm. -/
  txpMin : Int
  txpMax : Int
  /-- `pa_encode`: power in dBm and its byte for the power register (10_state.md R37; D9). -/
  paCodes : List (Int × Byte)
  /-- `LNA_CFG`. -/
  lnaCfg : Byte
  /-- `SYMB_TIMEOUT_CFG`. -/
  symbTimeoutCfg : Byte
  /-- `VERSION_EXPECTED`. -/
  versionExpected : Byte
  /-- `CHIP_VERSION`: what the attached device answers at the version register (environment, 10_state.md R49). -/
  chipVersion : Byte
  /-- Whether a chip is attached (environment, 10_state.md R49, 42_mode.md R132). -/
  chipPresent : Bool
  /-- `FREQ_MIN_HZ`, `FREQ_MAX_HZ`. -/
  freqMinHz : Nat
  freqMaxHz : Nat
  /-- `DUMMY`, the second byte of a read frame (20_memory.md R63). -/
  dummy : Byte
  /-- `TX_BASE`, `RX_BASE`. -/
  txBase : Byte
  rxBase : Byte
  /-- `WAIT_STRICT` (60_exceptions.md R212). -/
  waitStrict : Bool
  /-- `RX_REARM_ON_TIMEOUT` (44_rx_crc.md R167). -/
  rxRearmOnTimeout : Bool
  /-- Timing only (70_reset_and_hazards.md R262): read by `delay` and `Wait`, which give them no effect. -/
  settleMs : Nat
  resetLowMs : Nat
  resetHighMs : Nat
  txTimeoutMs : Nat
  /-- `BUS_HZ_MIN`: timing only, read by no rule (00_scope.md R9). -/
  busHzMin : Nat
deriving DecidableEq, Repr

namespace Config

/-! Free values (log 5): constants with no body, applied to the plain counter `State.free`, so that no proof can see
what they are. -/

/-- The byte an unspecified chip register holds after the `k`-th free moment (10_state.md R54; U14). -/
opaque freeReg (k : Nat) (r : Reg) : Byte

/-- Any other unspecified byte (10_state.md R24, R50, R54; 40_regbus.md R112; U5, U15). -/
opaque freeByte (k : Nat) : Byte

/-- An unspecified 16-bit result register (10_state.md R24; U15). -/
opaque freeWord (k : Nat) : BitVec 16

/-- What an index of a byte memory holds that nothing has written since the memory's contents last became
unspecified, at the free moment `epoch` (10_state.md R24, R44; U12, U13, U15). -/
opaque unwritten (epoch index : Nat) : Byte

/-- The power byte of a power that `pa_encode` does not list (10_state.md R37, log 14). -/
opaque paUnlisted (p : Int) : Byte

/-! Constants the source itself gives (00_scope.md R9). -/

/-- `RSSI_OFFSET` (44_rx_crc.md R174). -/
def rssiOffset : Int := 157

/-- `SNR_DIV` (44_rx_crc.md R175). -/
def snrDiv : Nat := 4

/-- `SF_MIN`, `SF_MAX` (42_mode.md R131). -/
def sfMin : Nat := 7
def sfMax : Nat := 12

/-- `CR_MIN`, `CR_MAX` (42_mode.md R131). -/
def crMin : Nat := 5
def crMax : Nat := 8

/-- `FIFO_SIZE` (10_state.md R44; D14). -/
def fifoSize : Nat := 256

/-- `MAX_PAYLOAD`, also the number of bytes of TXBUF and of RXBUF (10_state.md R21). -/
def maxPayload : Nat := 255

end Config

end Sys2Proof
end

