-- ==== Sys2Proof/Machine/Params.lean ====
section
/-! DEFINITION. The parameters of Config at work: register name to address and back, mode codes, the constraints the
model must require of a configuration, and the default numbers of 00_scope.md R9 and R10 (PRESUMED where the spec says
"from general knowledge", log 13). -/

namespace Sys2Proof

namespace RegMap

/-- The address of a register (10_state.md R33). -/
def addr (m : RegMap) : Reg → RegAddr
  | .fifo => m.fifo
  | .opMode => m.opMode
  | .frfMsb => m.frfMsb
  | .frfMid => m.frfMid
  | .frfLsb => m.frfLsb
  | .paConfig => m.paConfig
  | .lna => m.lna
  | .fifoAddrPtr => m.fifoAddrPtr
  | .fifoTxBase => m.fifoTxBase
  | .fifoRxBase => m.fifoRxBase
  | .fifoRxCurrent => m.fifoRxCurrent
  | .irqFlags => m.irqFlags
  | .rxNbBytes => m.rxNbBytes
  | .pktSnr => m.pktSnr
  | .pktRssi => m.pktRssi
  | .modemConfig1 => m.modemConfig1
  | .modemConfig2 => m.modemConfig2
  | .symbTimeout => m.symbTimeout
  | .preambleMsb => m.preambleMsb
  | .preambleLsb => m.preambleLsb
  | .payloadLength => m.payloadLength
  | .dioMapping => m.dioMapping
  | .version => m.version

end RegMap

namespace Reg

/-- The 23 registers, in the order of the table of 10_state.md R33. -/
def all : List Reg :=
  [.fifo, .opMode, .frfMsb, .frfMid, .frfLsb, .paConfig, .lna, .fifoAddrPtr, .fifoTxBase, .fifoRxBase,
   .fifoRxCurrent, .irqFlags] ++
  [.rxNbBytes, .pktSnr, .pktRssi, .modemConfig1, .modemConfig2, .symbTimeout, .preambleMsb, .preambleLsb,
   .payloadLength, .dioMapping, .version]

/-- `CFG_REGS`: the twelve registers CONFIGURE writes in Sleep (10_state.md R33). -/
def isCfg : Reg → Bool
  | .frfMsb | .frfMid | .frfLsb | .paConfig | .lna | .modemConfig1 | .modemConfig2 | .symbTimeout
  | .preambleMsb | .preambleLsb | .fifoTxBase | .fifoRxBase => true
  | .fifo | .opMode | .fifoAddrPtr | .fifoRxCurrent | .irqFlags | .rxNbBytes | .pktSnr | .pktRssi
  | .payloadLength | .dioMapping | .version => false

/-- The five registers marked read only (10_state.md R33; U6). -/
def isReadOnly : Reg → Bool
  | .fifoRxCurrent | .rxNbBytes | .pktSnr | .pktRssi | .version => true
  | .fifo | .opMode | .frfMsb | .frfMid | .frfLsb | .paConfig | .lna | .fifoAddrPtr | .fifoTxBase | .fifoRxBase
  | .irqFlags | .modemConfig1 | .modemConfig2 | .symbTimeout | .preambleMsb | .preambleLsb | .payloadLength
  | .dioMapping => false

end Reg

namespace RegMap

/-- The register at an address, if the map has one there (10_state.md R33, R50). -/
def lookup (m : RegMap) (a : RegAddr) : Option Reg := Reg.all.find? fun r => m.addr r == a

/-- The constraints of 10_state.md R33: 23 distinct addresses, and the three frequency registers consecutive. -/
def wf (m : RegMap) : Bool :=
  decide ((Reg.all.map m.addr).Nodup) && (m.frfMid == m.frfMsb + 1#7) && (m.frfLsb == m.frfMsb + 2#7) &&
    decide (m.frfMsb.toNat + 2 < 128)

/-- The default addresses of 10_state.md R33 (PRESUMED by the spec itself, log 13). -/
def reference : RegMap where
  fifo := 0x00#7
  opMode := 0x01#7
  frfMsb := 0x06#7
  frfMid := 0x07#7
  frfLsb := 0x08#7
  paConfig := 0x09#7
  lna := 0x0C#7
  fifoAddrPtr := 0x0D#7
  fifoTxBase := 0x0E#7
  fifoRxBase := 0x0F#7
  fifoRxCurrent := 0x10#7
  irqFlags := 0x12#7
  rxNbBytes := 0x13#7
  pktSnr := 0x19#7
  pktRssi := 0x1A#7
  modemConfig1 := 0x1D#7
  modemConfig2 := 0x1E#7
  symbTimeout := 0x1F#7
  preambleMsb := 0x20#7
  preambleLsb := 0x21#7
  payloadLength := 0x22#7
  dioMapping := 0x40#7
  version := 0x42#7

end RegMap

namespace ModeCodes

/-- The code of a mode (10_state.md R34). -/
def code (c : ModeCodes) : Mode → BitVec 3
  | .sleep => c.sleep
  | .standby => c.standby
  | .tx => c.tx
  | .rxContinuous => c.rxContinuous

/-- The mode a code stands for; none for a reserved code (10_state.md R34; U3). -/
def mode? (c : ModeCodes) (v : BitVec 3) : Option Mode :=
  if v = c.sleep then some .sleep
  else if v = c.standby then some .standby
  else if v = c.tx then some .tx
  else if v = c.rxContinuous then some .rxContinuous
  else none

end ModeCodes

namespace Cfg

/-- The code of a bandwidth, if it is a member of `BW_SET` (42_mode.md R131). -/
def bwCode? (c : Cfg) (hz : Nat) : Option (BitVec 4) := (c.bwCodes.find? fun p => p.1 == hz).map (·.2)

/-- The byte `pa_encode` lists for a power in dBm (10_state.md R37). -/
def paCode? (c : Cfg) (p : Int) : Option Byte := (c.paCodes.find? fun e => e.1 == p).map (·.2)

/-- The constraints the spec makes premises of every claim (U20; 10_state.md R33; D5, D6, D7, D8); with no chip attached
the byte read at the version register is another one than the expected (10_state.md R49; 42_mode.md R132). -/
def wf (c : Cfg) : Bool :=
  c.map.wf &&
  decide ([c.modeCodes.sleep, c.modeCodes.standby, c.modeCodes.tx, c.modeCodes.rxContinuous].Nodup) &&
  decide (3 ≤ c.loraBit) && decide (c.loraBit < 8) &&
  decide ([c.irqBits.txDone, c.irqBits.payloadCrcError, c.irqBits.rxDone].Nodup) &&
  decide (c.irqBits.txDone < 8) && decide (c.irqBits.payloadCrcError < 8) && decide (c.irqBits.rxDone < 8) &&
  decide (c.mapRxDone.extractLsb' 6 2 = 0b00#2) && decide (c.mapTxDone.extractLsb' 6 2 = 0b01#2) &&
  (c.bwCode? 125000).isSome && (c.chipPresent || c.chipVersion != c.versionExpected)

/-- The defaults of 00_scope.md R9 and R10. -/
def reference : Cfg where
  xtalHz := 32000000
  resBits := 19
  map := RegMap.reference
  modeCodes := { sleep := 0#3, standby := 1#3, tx := 3#3, rxContinuous := 5#3 }
  loraBit := 7
  irqBits := { txDone := 3, payloadCrcError := 5, rxDone := 6 }
  mapRxDone := 0x00#8
  mapTxDone := 0x40#8
  bwCodes :=
    [(7800, 0#4), (10400, 1#4), (15600, 2#4), (20800, 3#4), (31250, 4#4), (41700, 5#4), (62500, 6#4),
     (125000, 7#4), (250000, 8#4), (500000, 9#4)]
  txpMin := 2
  txpMax := 17
  paCodes := (List.range 16).map fun (k : Nat) => ((k : Int) + 2, 0x80#8 ||| BitVec.ofNat 8 k)
  lnaCfg := 0x23#8
  symbTimeoutCfg := 0x64#8
  versionExpected := 0x12#8
  chipVersion := 0x12#8
  chipPresent := true
  freqMinHz := 137000000
  freqMaxHz := 1020000000
  dummy := 0x00#8
  txBase := 0x00#8
  rxBase := 0x00#8
  waitStrict := true
  rxRearmOnTimeout := true
  settleMs := 10
  resetLowMs := 10
  resetHighMs := 10
  txTimeoutMs := 5000
  busHzMin := 1000000

end Cfg

end Sys2Proof
end

