-- ==== Sys2Proof/Syntax.lean ====
section
/-! DEFINITION. The instructions: the seven command words of format K and the nine bus-frame rows of format B, one
constructor per row of spec/opcode_table.json (30_encoding.md R90 to R95). -/

namespace Sys2Proof

/-- One constructor per row of the opcode table. -/
inductive Instr
  /-- RDREG `a` (40_regbus.md R112). -/
  | rdreg (a : RegAddr)
  /-- WRREG `a, v` (40_regbus.md R113). -/
  | wrreg (a : RegAddr) (v : Byte)
  /-- SYNTH (41_synth.md R123). -/
  | synth
  /-- CONFIGURE (42_mode.md R130). -/
  | configure
  /-- SETMODE `m` (42_mode.md R138). -/
  | setmode (m : Mode)
  /-- SEND `n` (43_tx_fifo.md R150). -/
  | send (n : Byte)
  /-- POLL `t` (44_rx_crc.md R165). -/
  | poll (t : BitVec 16)
  /-- BUS.WRITE: the write frame of byte `d` at address `a` (20_memory.md R62). -/
  | busWrite (a : RegAddr) (d : Byte)
  /-- BUS.READ: the read frame at address `a`; `d` is the byte sent while the value comes back (20_memory.md R63). -/
  | busRead (a : RegAddr) (d : Byte)
  /-- BUS.WRITE.A_FIFO (10_state.md R39). -/
  | busWriteFifo (d : Byte)
  /-- BUS.READ.A_FIFO (10_state.md R39). -/
  | busReadFifo (d : Byte)
  /-- BUS.WRITE.A_OPMODE (10_state.md R34). -/
  | busWriteOpMode (d : Byte)
  /-- BUS.WRITE.A_FIFO_ADDR_PTR (10_state.md R40). -/
  | busWriteFifoAddrPtr (d : Byte)
  /-- BUS.WRITE.A_IRQ_FLAGS (10_state.md R43). -/
  | busWriteIrqFlags (d : Byte)
  /-- BUS.WRITE.A_DIO_MAPPING (10_state.md R48). -/
  | busWriteDioMapping (d : Byte)
  /-- BUS.READ.A_VERSION (10_state.md R49). -/
  | busReadVersion (d : Byte)
deriving DecidableEq, Repr

end Sys2Proof
end

