-- ==== Sys2Proof/WellFormed.lean ====
section
/-! DEFINITION. Which instructions are well formed for a register map. Widths are in the types; what is left is that
a frame to a register the table gives a row of its own is that row, not the generic one (opcode_table.json notes). -/

namespace Sys2Proof

/-- The registers whose WRITE frame has a row of its own. -/
def hasWriteRow : Reg → Bool
  | .fifo | .opMode | .fifoAddrPtr | .irqFlags | .dioMapping => true
  | .frfMsb | .frfMid | .frfLsb | .paConfig | .lna | .fifoTxBase | .fifoRxBase | .fifoRxCurrent | .rxNbBytes
  | .pktSnr | .pktRssi | .modemConfig1 | .modemConfig2 | .symbTimeout | .preambleMsb | .preambleLsb | .payloadLength
  | .version => false

/-- The registers whose READ frame has a row of its own. -/
def hasReadRow : Reg → Bool
  | .fifo | .version => true
  | .opMode | .frfMsb | .frfMid | .frfLsb | .paConfig | .lna | .fifoAddrPtr | .fifoTxBase | .fifoRxBase
  | .fifoRxCurrent | .irqFlags | .rxNbBytes | .pktSnr | .pktRssi | .modemConfig1 | .modemConfig2 | .symbTimeout
  | .preambleMsb | .preambleLsb | .payloadLength | .dioMapping => false

/-- Well-formedness of an instruction under a register map. -/
def Instr.wf (m : RegMap) : Instr → Bool
  | .busWrite a _ => !((m.lookup a).any hasWriteRow)
  | .busRead a _ => !((m.lookup a).any hasReadRow)
  | .rdreg _ | .wrreg _ _ | .synth | .configure | .setmode _ | .send _ | .poll _ | .busWriteFifo _ | .busReadFifo _
  | .busWriteOpMode _ | .busWriteFifoAddrPtr _ | .busWriteIrqFlags _ | .busWriteDioMapping _ | .busReadVersion _ => true

end Sys2Proof
end

