-- ==== Sys2Proof/Decode.lean ====
section
/-! DEFINITION. Decoding and encoding of the two formats (30_encoding.md R90 to R97): the 24-bit command word
(format K) and the 16-bit bus frame (format B). -/

namespace Sys2Proof

/-- Why a command word is illegal (30_encoding.md R96). -/
inductive DecodeError
  /-- `OP` is 0 or 8 to 15. -/
  | reservedOp
  /-- `Z` is not 0. -/
  | zNotZero
  /-- A must-be-zero operand bit is set. -/
  | operandBits
deriving DecidableEq, Repr

/-- An encoded instruction: a command word or a bus frame. -/
inductive Encoded
  | command (w : BitVec 24)
  | frame (w : BitVec 16)
deriving DecidableEq, Repr

/-- The 2-bit target code of SETMODE (30_encoding.md R93). -/
def Mode.ofTarget (t : BitVec 2) : Mode :=
  if t = 0#2 then .sleep else if t = 1#2 then .standby else if t = 2#2 then .tx else .rxContinuous

/-- The 2-bit target code of a mode (30_encoding.md R93). -/
def Mode.target : Mode → BitVec 2
  | .sleep => 0#2
  | .standby => 1#2
  | .tx => 2#2
  | .rxContinuous => 3#2

/-- The fields of the command word (30_encoding.md R92). -/
def fieldOp (w : BitVec 24) : BitVec 4 := w.extractLsb' 20 4
def fieldZ (w : BitVec 24) : BitVec 4 := w.extractLsb' 16 4
def fieldKA (w : BitVec 24) : Byte := w.extractLsb' 8 8
def fieldKB (w : BitVec 24) : Byte := w.extractLsb' 0 8

/-- Decoding of a command word (30_encoding.md R93, R95, R96). -/
def decodeCommand (w : BitVec 24) : Except DecodeError Instr :=
  let ka := fieldKA w
  let kb := fieldKB w
  if fieldZ w ≠ 0#4 then .error .zNotZero
  else if fieldOp w = 1#4 then
    if ka.extractLsb' 7 1 = 0#1 ∧ kb = 0#8 then .ok (.rdreg (ka.extractLsb' 0 7)) else .error .operandBits
  else if fieldOp w = 2#4 then
    if ka.extractLsb' 7 1 = 0#1 then .ok (.wrreg (ka.extractLsb' 0 7) kb) else .error .operandBits
  else if fieldOp w = 3#4 then
    if ka = 0#8 ∧ kb = 0#8 then .ok .synth else .error .operandBits
  else if fieldOp w = 4#4 then
    if ka = 0#8 ∧ kb = 0#8 then .ok .configure else .error .operandBits
  else if fieldOp w = 5#4 then
    if ka = 0#8 ∧ kb.extractLsb' 2 6 = 0#6 then .ok (.setmode (Mode.ofTarget (kb.extractLsb' 0 2)))
    else .error .operandBits
  else if fieldOp w = 6#4 then
    if ka = 0#8 then .ok (.send kb) else .error .operandBits
  else if fieldOp w = 7#4 then .ok (.poll (ka ++ kb))
  else .error .reservedOp

/-- The fields of a bus frame (30_encoding.md R91). -/
def frameIsWrite (w : BitVec 16) : Bool := w.extractLsb' 15 1 == 1#1
def frameAddr (w : BitVec 16) : RegAddr := w.extractLsb' 8 7
def frameData (w : BitVec 16) : Byte := w.extractLsb' 0 8

/-- The row of a write frame: the register's own row where the table has one, else BUS.WRITE. -/
def writeRow (m : RegMap) (a : RegAddr) (d : Byte) : Instr :=
  match m.lookup a with
  | some .fifo => .busWriteFifo d
  | some .opMode => .busWriteOpMode d
  | some .fifoAddrPtr => .busWriteFifoAddrPtr d
  | some .irqFlags => .busWriteIrqFlags d
  | some .dioMapping => .busWriteDioMapping d
  | _ => .busWrite a d

/-- The row of a read frame: the register's own row where the table has one, else BUS.READ. -/
def readRow (m : RegMap) (a : RegAddr) (d : Byte) : Instr :=
  match m.lookup a with
  | some .fifo => .busReadFifo d
  | some .version => .busReadVersion d
  | _ => .busRead a d

/-- Decoding of a bus frame; every frame is legal (30_encoding.md R91). -/
def decodeFrame (m : RegMap) (w : BitVec 16) : Instr :=
  if frameIsWrite w then writeRow m (frameAddr w) (frameData w) else readRow m (frameAddr w) (frameData w)

/-- Decoding of either format under a register map. -/
def decode (m : RegMap) : Encoded → Except DecodeError Instr
  | .command w => decodeCommand w
  | .frame w => .ok (decodeFrame m w)

/-- A command word from its fields (30_encoding.md R92). -/
def commandWord (op : BitVec 4) (ka kb : Byte) : BitVec 24 := ((op ++ 0#4) ++ ka) ++ kb

/-- A bus frame from its fields (30_encoding.md R91). -/
def frameWord (w : BitVec 1) (a : RegAddr) (d : Byte) : BitVec 16 := (w ++ a) ++ d

/-- Encoding (30_encoding.md R91, R93, R95). -/
def encode (m : RegMap) : Instr → Encoded
  | .rdreg a => .command (commandWord 1#4 (0#1 ++ a) 0#8)
  | .wrreg a v => .command (commandWord 2#4 (0#1 ++ a) v)
  | .synth => .command (commandWord 3#4 0#8 0#8)
  | .configure => .command (commandWord 4#4 0#8 0#8)
  | .setmode t => .command (commandWord 5#4 0#8 (0#6 ++ t.target))
  | .send n => .command (commandWord 6#4 0#8 n)
  | .poll t => .command (commandWord 7#4 (t.extractLsb' 8 8) (t.extractLsb' 0 8))
  | .busWrite a d => .frame (frameWord 1#1 a d)
  | .busRead a d => .frame (frameWord 0#1 a d)
  | .busWriteFifo d => .frame (frameWord 1#1 (m.addr .fifo) d)
  | .busReadFifo d => .frame (frameWord 0#1 (m.addr .fifo) d)
  | .busWriteOpMode d => .frame (frameWord 1#1 (m.addr .opMode) d)
  | .busWriteFifoAddrPtr d => .frame (frameWord 1#1 (m.addr .fifoAddrPtr) d)
  | .busWriteIrqFlags d => .frame (frameWord 1#1 (m.addr .irqFlags) d)
  | .busWriteDioMapping d => .frame (frameWord 1#1 (m.addr .dioMapping) d)
  | .busReadVersion d => .frame (frameWord 0#1 (m.addr .version) d)

/-- One row of the opcode table: its mnemonic, width, match and mask (spec/opcode_table.json). -/
structure OpcodeRow where
  mnemonic : String
  width : Nat
  pattern : Nat
  mask : Nat
deriving DecidableEq, Repr

/-- The seven format-K rows (30_encoding.md R95). -/
def commandRows : List OpcodeRow :=
  [⟨"RDREG", 24, 0x100000, 0xFF80FF⟩, ⟨"WRREG", 24, 0x200000, 0xFF8000⟩, ⟨"SYNTH", 24, 0x300000, 0xFFFFFF⟩,
   ⟨"CONFIGURE", 24, 0x400000, 0xFFFFFF⟩, ⟨"SETMODE", 24, 0x500000, 0xFFFFFC⟩, ⟨"SEND", 24, 0x600000, 0xFFFF00⟩,
   ⟨"POLL", 24, 0x700000, 0xFF0000⟩]

/-- The nine format-B rows, at the default register map (opcode_table.json). -/
def frameRows : List OpcodeRow :=
  [⟨"BUS.WRITE", 16, 0x8000, 0x8000⟩, ⟨"BUS.READ", 16, 0x0000, 0x8000⟩, ⟨"BUS.WRITE.A_FIFO", 16, 0x8000, 0xFF00⟩,
   ⟨"BUS.READ.A_FIFO", 16, 0x0000, 0xFF00⟩, ⟨"BUS.WRITE.A_OPMODE", 16, 0x8100, 0xFF00⟩,
   ⟨"BUS.WRITE.A_FIFO_ADDR_PTR", 16, 0x8D00, 0xFF00⟩, ⟨"BUS.WRITE.A_IRQ_FLAGS", 16, 0x9200, 0xFF00⟩,
   ⟨"BUS.WRITE.A_DIO_MAPPING", 16, 0xC000, 0xFF00⟩, ⟨"BUS.READ.A_VERSION", 16, 0x4200, 0xFF00⟩]

/-- A word lies in a row when its masked bits are the row's (30_encoding.md R95). -/
def OpcodeRow.holds (row : OpcodeRow) (w : Nat) : Bool := w &&& row.mask == row.pattern

/-- The mnemonic of an instruction, as the opcode table spells it. -/
def Instr.mnemonic : Instr → String
  | .rdreg _ => "RDREG"
  | .wrreg _ _ => "WRREG"
  | .synth => "SYNTH"
  | .configure => "CONFIGURE"
  | .setmode _ => "SETMODE"
  | .send _ => "SEND"
  | .poll _ => "POLL"
  | .busWrite _ _ => "BUS.WRITE"
  | .busRead _ _ => "BUS.READ"
  | .busWriteFifo _ => "BUS.WRITE.A_FIFO"
  | .busReadFifo _ => "BUS.READ.A_FIFO"
  | .busWriteOpMode _ => "BUS.WRITE.A_OPMODE"
  | .busWriteFifoAddrPtr _ => "BUS.WRITE.A_FIFO_ADDR_PTR"
  | .busWriteIrqFlags _ => "BUS.WRITE.A_IRQ_FLAGS"
  | .busWriteDioMapping _ => "BUS.WRITE.A_DIO_MAPPING"
  | .busReadVersion _ => "BUS.READ.A_VERSION"

/-- The encoded word with its bits as spec/opcode_table.json numbers them: 24 bits for a command, 16 for a frame. -/
def Encoded.ofTable (nbits w : Nat) : Option Encoded :=
  if nbits = 24 then some (.command (BitVec.ofNat 24 w))
  else if nbits = 16 then some (.frame (BitVec.ofNat 16 w))
  else none

/-- What the decoder reads from a table word, at the default register map. -/
def decodeTableWord (nbits w : Nat) : Option Instr :=
  match Encoded.ofTable nbits w with
  | none => none
  | some e =>
    match decode RegMap.reference e with
    | .ok i => some i
    | .error _ => none

end Sys2Proof
end

