-- ==== Sys2Proof/Machine/State.lean ====
section
/-! DEFINITION. The machine's state as plain data (10_state.md R20 to R53), the reasons a step can stop, and the state
right after the core's power-on (R55). -/

namespace Sys2Proof.Machine

/-- Why a step stops with a fault. -/
inductive Fault
  /-- Raised by a Host write of TXBUF[255], an index that does not exist (10_state.md R21; 20_memory.md R60). Safe. -/
  | noSuchTxBufIndex
deriving DecidableEq, Repr

/-- Why a step has no meaning. Every reason but the first is one the spec names in 93_implementation_defined.md list U
with the treatment "refuse". -/
inductive Refusal
  /-- Raised by `exec` for an instruction that has no meaning yet. Safe. -/
  | notModelled (mnemonic : String)
  /-- Raised by a micro-step during which the Host writes an operand register or TXBUF (R27, R258; U16). Safe. -/
  | hostWriteWhileBusy
  /-- Raised by a write frame to an address outside RegMap (R50, R62; U5). Safe. -/
  | unmappedWrite
  /-- Raised by a write frame to a configuration register while the chip is not in Sleep (R134; U1). Safe. -/
  | cfgWriteOutsideSleep
  /-- Raised by a mode write that changes the long-range bit while the chip is not in Sleep (R34; U2). Safe. -/
  | loraChangeOutsideSleep
  /-- Raised by a mode write whose mode field is none of the four codes (R34; U3). Safe. -/
  | reservedModeCode
deriving DecidableEq, Repr

/-- The result code of the last command, `x[STATUS]` (60_exceptions.md R200). -/
inductive ResultCode
  | ok
  | busError
  | configError
  | disconnected
  | txTimeout
  | rxTimeout
  | crcError
  | badCommand
deriving DecidableEq, Repr

/-- The number of a result code (60_exceptions.md R200). -/
def ResultCode.code : ResultCode → BitVec 3
  | .ok => 0#3
  | .busError => 1#3
  | .configError => 2#3
  | .disconnected => 3#3
  | .txTimeout => 4#3
  | .rxTimeout => 5#3
  | .crcError => 6#3
  | .badCommand => 7#3

/-- A byte memory: the cells written since its contents last became unspecified, addresses strictly rising, and the
free moment (`epoch`) at which they did. An unlisted index holds no specified value: it reads as the free value
`Config.unwritten epoch index` (log 8). -/
structure Mem where
  cells : List Host.Cell
  epoch : Nat
deriving DecidableEq, Repr

/-- The seven operand registers that are the source's RadioConfig (10_state.md R21, R22). -/
structure RadioConfig where
  freq : BitVec 32
  sf : BitVec 4
  bw : BitVec 32
  cr : BitVec 4
  crcEn : Bool
  preamble : BitVec 16
  txPower : BitVec 8
deriving DecidableEq, Repr

/-- The five result registers that are the source's Packet (10_state.md R21, R24). -/
structure Packet where
  rxBuf : Mem
  rxLen : Byte
  rssiDbm : BitVec 16
  snrQ : BitVec 8
  valid : Bool
deriving DecidableEq, Repr

/-- Chip-side state (10_state.md R32 to R51). `REG[A_OPMODE]` is held as its two parts: the mode field's meaning and
bits 7:3 (log 9); `REG[A_FIFO]` is a window and `REG[A_VERSION]` a constant, so neither is stored. -/
structure Chip where
  mode : Mode
  opHigh : BitVec 5
  frfMsb : Byte
  frfMid : Byte
  frfLsb : Byte
  paConfig : Byte
  lna : Byte
  fifoAddrPtr : Byte
  fifoTxBase : Byte
  fifoRxBase : Byte
  fifoRxCurrent : Byte
  irqFlags : Byte
  rxNbBytes : Byte
  pktSnr : Byte
  pktRssi : Byte
  modemConfig1 : Byte
  modemConfig2 : Byte
  symbTimeout : Byte
  preambleMsb : Byte
  preambleLsb : Byte
  payloadLength : Byte
  dioMapping : Byte
  fifo : Mem
  rxwp : Byte
  txPending : Bool
deriving DecidableEq, Repr

/-- `PHASE`, the Sequencer's position (10_state.md R28): idle, or the command and its next micro-step, with the values
the command has latched. The constructors of one command stand in the order of its micro-step list. -/
inductive Phase
  | idle
  /-- RDREG micro-steps 0 and 1 (40_regbus.md R112). -/
  | rdregFrame (a : RegAddr)
  | rdregEnd (v : Byte)
  /-- WRREG micro-steps 0 to 2 (40_regbus.md R113). -/
  | wrregGuard (a : RegAddr) (v : Byte)
  | wrregFrame (a : RegAddr) (v : Byte)
  | wrregEnd
  /-- SYNTH micro-steps 0 and 1 (41_synth.md R123). -/
  | synthEval
  | synthEnd (n : BitVec 24)
  /-- CONFIGURE micro-steps 0 to 20 (42_mode.md R130); `ws` are the configuration writes still to be sent, 6 to 17. -/
  | cfgValidate
  | cfgResetLow (ws : List (Reg × Byte))
  | cfgDelayLow (ws : List (Reg × Byte))
  | cfgResetHigh (ws : List (Reg × Byte))
  | cfgDelayHigh (ws : List (Reg × Byte))
  | cfgSleep (ws : List (Reg × Byte))
  | cfgSleepSettle (ws : List (Reg × Byte))
  | cfgWrites (ws : List (Reg × Byte))
  | cfgStandby
  | cfgStandbySettle
  | cfgIdentify
  | cfgEnd
  /-- SETMODE micro-steps 0 to 2 (42_mode.md R138). -/
  | setmodeFrame (m : Mode)
  | setmodeSettle
  | setmodeEnd
  /-- SEND S1 to S9 and end (43_tx_fifo.md R150); `i` is the index of the next payload byte. -/
  | sendStandby (n : Byte)
  | sendStandbySettle (n : Byte)
  | sendPointer (n : Byte)
  | sendPayload (n : Byte) (i : Nat)
  | sendLength (n : Byte)
  | sendMap
  | sendTx
  | sendTxSettle
  | sendWait
  | sendReadIrq
  | sendAckIrq (v : Byte)
  | sendRestore (res : ResultCode)
  | sendRestoreSettle (res : ResultCode)
  | sendEnd (res : ResultCode)
  /-- POLL P1 to P7 and end (44_rx_crc.md R165); `i` is the index of the next FIFO byte. -/
  | pollMap (t : BitVec 16)
  | pollArm (t : BitVec 16)
  | pollArmSettle (t : BitVec 16)
  | pollWait (t : BitVec 16)
  | pollReadIrq
  | pollAckIrq (v : Byte)
  | pollTest (v : Byte)
  | pollReadCurrent
  | pollPointer (a : Byte)
  | pollReadCount
  | pollReadout (n : Byte) (i : Nat)
  | pollReadRssi (n : Byte)
  | pollReadSnr (n r : Byte)
  | pollPacket (n r s : Byte)
  | pollRearm (res : ResultCode)
  | pollRearmSettle (res : ResultCode)
  | pollEnd (res : ResultCode)
deriving DecidableEq, Repr

/-- One completed bus frame, as `BUSLOG` records it (10_state.md R53). -/
structure BusRecord where
  isWrite : Bool
  addr : RegAddr
  val : Byte
deriving DecidableEq, Repr

/-- The Radio agent's events (45_chip_events.md R186 to R188); the `n` of a received packet is the length of its
data. -/
inductive RadioEvent
  | txDone
  | rxPacket (data : List Byte) (rssi snr : Byte) (crcBad : Bool)
  | irqOther (m : Byte)
deriving DecidableEq, Repr

/-- A Host write of an operand register or of one byte of TXBUF (10_state.md R21, R27). -/
inductive HostWrite
  | freq (v : BitVec 32)
  | sf (v : BitVec 4)
  | bw (v : BitVec 32)
  | cr (v : BitVec 4)
  | crcEn (v : Bool)
  | preamble (v : BitVec 16)
  | txPower (v : BitVec 8)
  | txBuf (i : Byte) (v : Byte)
deriving DecidableEq, Repr

/-- What becomes of a bus frame (20_memory.md R64): it completes, or it fails with or without the chip having taken
it. -/
inductive FrameFate
  | completes
  | failsUnseen
  | failsTaken
deriving DecidableEq, Repr

/-- The environment's draws for one micro-step of the Sequencer (log 4): what the other agents do just before it, and
the draws attached to the micro-step itself. -/
structure Draw where
  /-- Host writes attempted while the command runs (10_state.md R27). -/
  hostWrites : List HostWrite
  /-- Radio steps taken before the micro-step (45_chip_events.md R185). -/
  events : List RadioEvent
  /-- The fate of the micro-step's bus frame, if it has one (20_memory.md R64). -/
  fate : FrameFate
  /-- The sample of DIO when the mapping does not determine it (60_exceptions.md R210). -/
  dioSample : Bool
  /-- Whether `Wait` takes `timeout` when both its outcomes are enabled (60_exceptions.md R212). -/
  takeTimeout : Bool
deriving DecidableEq, Repr

/-- An input the core meets while it is idle (log 2). -/
inductive Input
  /-- A command word on the command port (30_encoding.md R100). -/
  | command (w : BitVec 24)
  /-- A bus frame at the chip (the format-B rows, log 16). -/
  | frame (w : BitVec 16)
  /-- A Host register write (10_state.md R27). -/
  | hostWrite (h : HostWrite)
  /-- A Radio step (45_chip_events.md R185). -/
  | radio (e : RadioEvent)
deriving DecidableEq, Repr

/-- The machine's state. -/
structure State where
  cfg : Cfg
  radio : RadioConfig
  txBuf : Mem
  status : ResultCode
  rdata : Byte
  frf : BitVec 24
  packet : Packet
  mode : Mode
  configured : Bool
  phase : Phase
  chip : Chip
  csN : Bool
  resetN : Bool
  busLog : List BusRecord
  txLog : List (List Byte)
  inbox : List Input
  env : List Draw
  free : Nat
deriving DecidableEq, Repr

/-- The outcome of a step or of a meaning. -/
abbrev Outcome := Host.Outcome State Fault Refusal

/-- The chip at the core's power-on: the spec says "unspecified"; the values are the model's (log 7). -/
def Chip.powerOn : Chip where
  mode := .sleep
  opHigh := 0#5
  frfMsb := 0#8
  frfMid := 0#8
  frfLsb := 0#8
  paConfig := 0#8
  lna := 0#8
  fifoAddrPtr := 0#8
  fifoTxBase := 0#8
  fifoRxBase := 0#8
  fifoRxCurrent := 0#8
  irqFlags := 0#8
  rxNbBytes := 0#8
  pktSnr := 0#8
  pktRssi := 0#8
  modemConfig1 := 0#8
  modemConfig2 := 0#8
  symbTimeout := 0#8
  preambleMsb := 0#8
  preambleLsb := 0#8
  payloadLength := 0#8
  dioMapping := 0#8
  fifo := { cells := [], epoch := 0 }
  rxwp := 0#8
  txPending := false

/-- The core right after power-on (10_state.md R55); the values R55 does not give are the model's (log 1, 5, 6, 7). -/
def State.reset : State where
  cfg := Cfg.reference
  radio :=
    { freq := 0#32, sf := 0#4, bw := 0#32, cr := 0#4, crcEn := false, preamble := 0#16, txPower := 0#8 }
  txBuf := { cells := [], epoch := 1 }
  status := .ok
  rdata := 0#8
  frf := 0#24
  packet := { rxBuf := { cells := [], epoch := 2 }, rxLen := 0#8, rssiDbm := 0#16, snrQ := 0#8, valid := false }
  mode := .sleep
  configured := false
  phase := .idle
  chip := Chip.powerOn
  csN := true
  resetN := true
  busLog := []
  txLog := []
  inbox := []
  env := []
  free := 3

end Sys2Proof.Machine
end

