-- ==== Sys2Proof/Machine/Flags.lean ====
section
/-! DEFINITION. The flags: the chip's IRQ flags (10_state.md R43), and the interrupt line that follows them
(60_exceptions.md R210 to R212). There are no arithmetic condition codes (R30). -/

namespace Sys2Proof.Machine

/-- Whether a flag is set in a byte read from the flags register (44_rx_crc.md R180). -/
def irqHas (v : Byte) (bit : Nat) : Bool := v.getLsbD bit

/-- Setting one flag (45_chip_events.md R186, R187). -/
def irqSet (v : Byte) (bit : Nat) : Byte := v ||| BitVec.twoPow 8 bit

/-- Write-1-to-clear: exactly the flags whose bits are 1 in `w` are cleared (10_state.md R43). -/
def irqClear (v w : Byte) : Byte := v &&& ~~~w

/-- The bits no named flag uses (45_chip_events.md R188). -/
def irqUnnamed (b : IrqBits) (m : Byte) : Bool :=
  !(irqHas m b.txDone) && !(irqHas m b.payloadCrcError) && !(irqHas m b.rxDone)

/-- The selector field of the pin-mapping register (10_state.md R48). -/
def dioSelect (v : Byte) : BitVec 2 := v.extractLsb' 6 2

/-- The level of DIO (60_exceptions.md R210); a draw under a mapping the model does not know (U4), and with no chip
attached (log 12). -/
def dioLevel (d : Draw) (s : State) : Bool :=
  if s.cfg.chipPresent then
    if dioSelect s.chip.dioMapping = 0b00#2 then irqHas s.chip.irqFlags s.cfg.irqBits.rxDone
    else if dioSelect s.chip.dioMapping = 0b01#2 then irqHas s.chip.irqFlags s.cfg.irqBits.txDone
    else d.dioSample
  else d.dioSample

/-- The outcome of `Wait(t)`: true for `signalled`, false for `timeout` (60_exceptions.md R212). `signalled` is enabled
exactly when DIO is 1; `timeout` when DIO is 0, and always if not `WAIT_STRICT`; where both are enabled the draw
decides. The window `t` is timing and has no effect (R262). -/
def waitSignalled (_ms : Nat) (d : Draw) (s : State) : Bool :=
  dioLevel d s && (s.cfg.waitStrict || !d.takeTimeout)

end Sys2Proof.Machine
end

