-- ==== Sys2Proof/Machine/Operands.lean ====
section
/-! DEFINITION. Operand assembly and the arithmetic of the core: the synthesizer's coefficient, the bytes the Sequencer
puts into write frames, the validation of the RadioConfig, and the conversions of RSSI and SNR (30_encoding.md R94;
41_synth.md R120 to R127; 42_mode.md R131; 44_rx_crc.md R174, R175). -/

namespace Sys2Proof.Machine

/-- `frf(f, c, r)` in exact integers, a tie going up (41_synth.md R120, R124). -/
def frfNat (f c r : Nat) : Nat := (2 * f * 2 ^ r + c) / (2 * c)

/-- `synthesize`: the 24-bit coefficient, where it has one (41_synth.md R122). -/
def synthesize? (f c r : Nat) : Option (BitVec 24) :=
  if c = 0 then none else if frfNat f c r < 2 ^ 24 then some (BitVec.ofNat 24 (frfNat f c r)) else none

/-- `byte_high`, `byte_mid`, `byte_low` (41_synth.md R121). -/
def frfHigh (n : BitVec 24) : Byte := n.extractLsb' 16 8
def frfMidByte (n : BitVec 24) : Byte := n.extractLsb' 8 8
def frfLow (n : BitVec 24) : Byte := n.extractLsb' 0 8

/-- The mode byte: the mode's code with the long-range bit (30_encoding.md R94 (a)). -/
def modeByte (c : Cfg) (m : Mode) : Byte := BitVec.twoPow 8 c.loraBit ||| (c.modeCodes.code m).setWidth 8

/-- `mc1` (30_encoding.md R94 (c); 10_state.md R46; packing PRESUMED by the spec, log 14). -/
def modemConfig1Byte (code cr : BitVec 4) : Byte :=
  (code.setWidth 8 <<< 4) ||| ((cr.setWidth 8 - 4#8) <<< 1)

/-- `mc2` (30_encoding.md R94 (c); 10_state.md R46; packing PRESUMED by the spec, log 14). -/
def modemConfig2Byte (sf : BitVec 4) (crcEn : Bool) : Byte :=
  (sf.setWidth 8 <<< 4) ||| ((if crcEn then 1#8 else 0#8) <<< 2)

/-- `pa_encode` of the power register's signed value (10_state.md R37), a parameter; a power it does not list has a free
byte (log 14). -/
def paEncode (c : Cfg) (p : BitVec 8) : Byte := (c.paCode? p.toInt).getD (Config.paUnlisted p.toInt)

/-- The preamble bytes, high byte first (30_encoding.md R94 (e); 20_memory.md R65). -/
def preambleHigh (p : BitVec 16) : Byte := p.extractLsb' 8 8
def preambleLow (p : BitVec 16) : Byte := p.extractLsb' 0 8

/-- The range checks of 42_mode.md R131 other than the bandwidth set and the coefficient's domain. TXPOWER is compared
as a signed number, the others as unsigned (41_synth.md R127). -/
def inRanges (c : Cfg) (rc : RadioConfig) : Bool :=
  decide (c.freqMinHz ≤ rc.freq.toNat) && decide (rc.freq.toNat ≤ c.freqMaxHz) &&
  decide (Config.sfMin ≤ rc.sf.toNat) && decide (rc.sf.toNat ≤ Config.sfMax) &&
  decide (Config.crMin ≤ rc.cr.toNat) && decide (rc.cr.toNat ≤ Config.crMax) &&
  decide (c.txpMin ≤ rc.txPower.toInt) && decide (rc.txPower.toInt ≤ c.txpMax)

/-- The twelve configuration writes of CONFIGURE micro-steps 6 to 17, in order (42_mode.md R130, R133). -/
def configWrites (c : Cfg) (rc : RadioConfig) (n : BitVec 24) (code : BitVec 4) : List (Reg × Byte) :=
  [(.frfMsb, frfHigh n), (.frfMid, frfMidByte n), (.frfLsb, frfLow n), (.paConfig, paEncode c rc.txPower),
   (.lna, c.lnaCfg), (.modemConfig1, modemConfig1Byte code rc.cr), (.modemConfig2, modemConfig2Byte rc.sf rc.crcEn),
   (.symbTimeout, c.symbTimeoutCfg), (.preambleMsb, preambleHigh rc.preamble),
   (.preambleLsb, preambleLow rc.preamble), (.fifoTxBase, c.txBase), (.fifoRxBase, c.rxBase)]

/-- CONFIGURE's validation (42_mode.md R131): the coefficient and the writes of a valid RadioConfig, none for an
invalid one. The RadioConfig is sampled here, once (10_state.md R23). -/
def configPlan (c : Cfg) (rc : RadioConfig) : Option (BitVec 24 × List (Reg × Byte)) :=
  match synthesize? rc.freq.toNat c.xtalHz c.resBits, c.bwCode? rc.bw.toNat with
  | some n, some code => if inRanges c rc then some (n, configWrites c rc n code) else none
  | _, _ => none

/-- `x[RSSI_DBM]`: the unsigned byte less the offset, exact in 16 bits (44_rx_crc.md R174). -/
def rssiDbmOf (r : Byte) : BitVec 16 := BitVec.ofInt 16 ((r.toNat : Int) - Config.rssiOffset)

/-- `x[SNR_Q]`: the byte itself, read as a signed number of quarter dB (44_rx_crc.md R175). -/
def snrQOf (s : Byte) : BitVec 8 := s

/-- The dB value the Host reads from `x[SNR_Q]` (10_state.md R24; 41_synth.md R128). -/
def snrDb (q : BitVec 8) : Rat := (q.toInt : Rat) / (Config.snrDiv : Rat)

end Sys2Proof.Machine
end

