-- ==== Sys2Proof/Machine/Ops.lean ====
section
/-! DEFINITION. The named operations over memory, the chip's registers, the bus and the Sequencer's position, and what
`raise` does (20_memory.md R60 to R64; 60_exceptions.md R215 to R217). -/

namespace Sys2Proof.Machine

/-! ## Byte memories -/

/-- The byte a cell list holds at an address. -/
def cellAt : List Host.Cell → Nat → Option Byte
  | [], _ => none
  | c :: rest, a => if c.1 = a then some c.2 else cellAt rest a

/-- Writes a cell, keeping the addresses rising. -/
def cellPut : List Host.Cell → Nat → Byte → List Host.Cell
  | [], a, v => [(a, v)]
  | c :: rest, a, v =>
    if a < c.1 then (a, v) :: c :: rest
    else if a = c.1 then (a, v) :: rest
    else c :: cellPut rest a v

/-- The addresses of a cell list are strictly rising and above a bound. -/
def cellsRise : Option Nat → List Host.Cell → Bool
  | _, [] => true
  | lo, c :: rest => (lo.all fun b => b < c.1) && cellsRise (some c.1) rest

/-- The byte at an index: what was written there, else the free value of the index (log 8). -/
def Mem.read (m : Mem) (a : Nat) : Byte := (cellAt m.cells a).getD (Config.unwritten m.epoch a)

/-- A write of one byte. -/
def Mem.write (m : Mem) (a : Nat) (v : Byte) : Mem := { m with cells := cellPut m.cells a v }

/-- Contents that have become unspecified at the free moment `k` (10_state.md R24, R44). -/
def Mem.discard (k : Nat) : Mem := { cells := [], epoch := k }

/-- The canonical form: addresses strictly rising and below the size. -/
def Mem.wf (size : Nat) (m : Mem) : Bool := cellsRise none m.cells && m.cells.all fun c => c.1 < size

/-- `n` bytes read from an 8-bit index on, modulo 256 (45_chip_events.md R186). -/
def Mem.readRun (m : Mem) (start : Byte) : Nat → List Byte
  | 0 => []
  | n + 1 => m.read start.toNat :: m.readRun (start + 1#8) n

/-- Bytes stored from an 8-bit index on, modulo 256 (45_chip_events.md R187). -/
def Mem.storeRun (m : Mem) (start : Byte) : List Byte → Mem
  | [] => m
  | b :: bs => (m.write start.toNat b).storeRun (start + 1#8) bs

/-! ## The chip's side of a bus frame -/

/-- `REG[A_OPMODE]` as a byte (10_state.md R34). -/
def Chip.opModeByte (c : Chip) (cfg : Cfg) : Byte := c.opHigh ++ cfg.modeCodes.code c.mode

/-- The long-range bit of `REG[A_OPMODE]` (10_state.md R34). -/
def Chip.lora (c : Chip) (cfg : Cfg) : Bool := c.opHigh.getLsbD (cfg.loraBit - 3)

/-- The effects of a mode write with a legal mode (10_state.md R34; 42_mode.md R139), on every such write also when the
mode does not change. `k` is the free moment at which Sleep makes the FIFO unspecified. -/
def Chip.enterMode (c : Chip) (k : Nat) (m : Mode) (hi : BitVec 5) : Chip :=
  { c with
    mode := m
    opHigh := hi
    fifo := if m = .sleep then Mem.discard k else c.fifo
    rxwp := if m = .rxContinuous then c.fifoRxBase else c.rxwp
    txPending := decide (m = .tx) }

/-- A write of `A_OPMODE` (10_state.md R34; U2, U3). -/
def Chip.writeOpMode (cfg : Cfg) (k : Nat) (v : Byte) (c : Chip) : Except Refusal Chip :=
  match cfg.modeCodes.mode? (v.extractLsb' 0 3) with
  | none => .error .reservedModeCode
  | some m =>
    if c.mode ≠ .sleep ∧ v.getLsbD cfg.loraBit ≠ c.lora cfg then .error .loraChangeOutsideSleep
    else .ok (c.enterMode k m (v.extractLsb' 3 5))

/-- The write of a register that is neither the mode register nor guarded: store, FIFO, write-1-to-clear, or nothing
for the read-only registers (20_memory.md R62, R68). -/
def Chip.store (r : Reg) (v : Byte) (c : Chip) : Chip :=
  match r with
  | .fifo => { c with fifo := c.fifo.write c.fifoAddrPtr.toNat v, fifoAddrPtr := c.fifoAddrPtr + 1#8 }
  | .opMode => c
  | .frfMsb => { c with frfMsb := v }
  | .frfMid => { c with frfMid := v }
  | .frfLsb => { c with frfLsb := v }
  | .paConfig => { c with paConfig := v }
  | .lna => { c with lna := v }
  | .fifoAddrPtr => { c with fifoAddrPtr := v }
  | .fifoTxBase => { c with fifoTxBase := v }
  | .fifoRxBase => { c with fifoRxBase := v }
  | .fifoRxCurrent => c
  | .irqFlags => { c with irqFlags := irqClear c.irqFlags v }
  | .rxNbBytes => c
  | .pktSnr => c
  | .pktRssi => c
  | .modemConfig1 => { c with modemConfig1 := v }
  | .modemConfig2 => { c with modemConfig2 := v }
  | .symbTimeout => { c with symbTimeout := v }
  | .preambleMsb => { c with preambleMsb := v }
  | .preambleLsb => { c with preambleLsb := v }
  | .payloadLength => { c with payloadLength := v }
  | .dioMapping => { c with dioMapping := v }
  | .version => c

/-- The chip's response to a write frame at a register of the map (20_memory.md R62; U1). -/
def Chip.write (cfg : Cfg) (k : Nat) (r : Reg) (v : Byte) (c : Chip) : Except Refusal Chip :=
  if r = .opMode then c.writeOpMode cfg k v
  else if r.isCfg = true ∧ c.mode ≠ .sleep then .error .cfgWriteOutsideSleep
  else .ok (c.store r v)

/-- The byte a register reads as (20_memory.md R63). -/
def Chip.value (cfg : Cfg) (r : Reg) (c : Chip) : Byte :=
  match r with
  | .fifo => c.fifo.read c.fifoAddrPtr.toNat
  | .opMode => c.opModeByte cfg
  | .frfMsb => c.frfMsb
  | .frfMid => c.frfMid
  | .frfLsb => c.frfLsb
  | .paConfig => c.paConfig
  | .lna => c.lna
  | .fifoAddrPtr => c.fifoAddrPtr
  | .fifoTxBase => c.fifoTxBase
  | .fifoRxBase => c.fifoRxBase
  | .fifoRxCurrent => c.fifoRxCurrent
  | .irqFlags => c.irqFlags
  | .rxNbBytes => c.rxNbBytes
  | .pktSnr => c.pktSnr
  | .pktRssi => c.pktRssi
  | .modemConfig1 => c.modemConfig1
  | .modemConfig2 => c.modemConfig2
  | .symbTimeout => c.symbTimeout
  | .preambleMsb => c.preambleMsb
  | .preambleLsb => c.preambleLsb
  | .payloadLength => c.payloadLength
  | .dioMapping => c.dioMapping
  | .version => cfg.chipVersion

/-- What a read frame changes: only a read of `A_FIFO` changes anything (20_memory.md R63, R68). -/
def Chip.afterRead (r : Reg) (c : Chip) : Chip :=
  if r = .fifo then { c with fifoAddrPtr := c.fifoAddrPtr + 1#8 } else c

/-- The chip's hardware reset (10_state.md R54): mode Sleep, IRQ flags 0, nothing pending, and every other item a free
value of the moment `k` (U13, U14). -/
def Chip.hardReset (k : Nat) : Chip where
  mode := .sleep
  opHigh := (Config.freeReg k .opMode).extractLsb' 3 5
  frfMsb := Config.freeReg k .frfMsb
  frfMid := Config.freeReg k .frfMid
  frfLsb := Config.freeReg k .frfLsb
  paConfig := Config.freeReg k .paConfig
  lna := Config.freeReg k .lna
  fifoAddrPtr := Config.freeReg k .fifoAddrPtr
  fifoTxBase := Config.freeReg k .fifoTxBase
  fifoRxBase := Config.freeReg k .fifoRxBase
  fifoRxCurrent := Config.freeReg k .fifoRxCurrent
  irqFlags := 0x00#8
  rxNbBytes := Config.freeReg k .rxNbBytes
  pktSnr := Config.freeReg k .pktSnr
  pktRssi := Config.freeReg k .pktRssi
  modemConfig1 := Config.freeReg k .modemConfig1
  modemConfig2 := Config.freeReg k .modemConfig2
  symbTimeout := Config.freeReg k .symbTimeout
  preambleMsb := Config.freeReg k .preambleMsb
  preambleLsb := Config.freeReg k .preambleLsb
  payloadLength := Config.freeReg k .payloadLength
  dioMapping := Config.freeReg k .dioMapping
  fifo := Mem.discard k
  rxwp := Config.freeByte k
  txPending := false

/-- What the far end of the bus does with a write frame. With no chip attached nothing happens (log 12). -/
def answerWrite (a : RegAddr) (v : Byte) (s : State) : Except Refusal State :=
  if s.cfg.chipPresent then
    match s.cfg.map.lookup a with
    | none => .error .unmappedWrite
    | some r =>
      match s.chip.write s.cfg s.free r v with
      | .ok c => .ok { s with chip := c, free := s.free + 1 }
      | .error e => .error e
  else .ok s

/-- What the far end of the bus answers to a read frame: the register's byte, a free value at an address outside the
map (10_state.md R50; U5), and with no chip attached the version byte of the environment or a free value (log 12). -/
def answerRead (a : RegAddr) (s : State) : Byte × State :=
  if s.cfg.chipPresent then
    match s.cfg.map.lookup a with
    | none => (Config.freeByte s.free, { s with free := s.free + 1 })
    | some r => (s.chip.value s.cfg r, { s with chip := s.chip.afterRead r })
  else if s.cfg.map.lookup a = some .version then (s.cfg.chipVersion, s)
  else (Config.freeByte s.free, { s with free := s.free + 1 })

/-! ## The bus -/

/-- The first byte of a write frame, `0x80 | a`, and of a read frame, `a` (20_memory.md R62, R63). -/
def writeAddrByte (a : RegAddr) : Byte := 1#1 ++ a
def readAddrByte (a : RegAddr) : Byte := 0#1 ++ a

/-- The two exchanged bytes of a frame with the far end's response; the result is the byte the frame carries: the value
written, or the value received in the second exchange (20_memory.md R61 to R63). -/
def exchange (addrByte dataByte : Byte) (s : State) : Except Refusal (Byte × State) :=
  if addrByte.msb then
    match answerWrite (addrByte.extractLsb' 0 7) dataByte s with
    | .ok s' => .ok (dataByte, s')
    | .error e => .error e
  else .ok (answerRead (addrByte.extractLsb' 0 7) s)

/-- One whole bus transaction (20_memory.md R61): chip-select low, the two exchanges, chip-select high, and the record
in BUSLOG (10_state.md R53). -/
def transact (addrByte dataByte : Byte) (s : State) : Except Refusal (Byte × State) :=
  match exchange addrByte dataByte { s with csN := false } with
  | .ok (v, s') =>
    .ok (v, { s' with csN := true,
                      busLog := s'.busLog ++ [⟨addrByte.msb, addrByte.extractLsb' 0 7, v⟩] })
  | .error e => .error e

/-- The result of a frame the Sequencer sends. -/
inductive FrameResult
  /-- The frame completed; the byte it carried and the state after it. -/
  | done (v : Byte) (s : State)
  /-- The bus failed; the state as the chip may have left it. -/
  | failed (s : State)
  /-- The frame has no meaning. -/
  | refused (r : Refusal)
deriving DecidableEq, Repr

/-- A frame with its fate (20_memory.md R64): a failed frame is not recorded, and the chip may or may not have taken
it. -/
def busFrame (d : Draw) (addrByte dataByte : Byte) (s : State) : FrameResult :=
  match d.fate with
  | .completes =>
    match transact addrByte dataByte s with
    | .ok (v, s') => .done v s'
    | .error e => .refused e
  | .failsUnseen => .failed s
  | .failsTaken =>
    match exchange addrByte dataByte s with
    | .ok (_, s') => .failed s'
    | .error e => .refused e

/-- `MemWrite(a, 1, v)` (40_regbus.md R111). -/
def memWrite (d : Draw) (a : RegAddr) (v : Byte) (s : State) : FrameResult := busFrame d (writeAddrByte a) v s

/-- `MemRead(a, 1)` (40_regbus.md R110). -/
def memRead (d : Draw) (a : RegAddr) (s : State) : FrameResult := busFrame d (readAddrByte a) s.cfg.dummy s

/-! ## The Sequencer's position and what `raise` does -/

/-- Whether a command is in execution: the port's BUSY line (30_encoding.md R100). -/
def State.busy (s : State) : Bool := decide (s.phase ≠ .idle)

/-- The Sequencer goes to a micro-step (10_state.md R29). -/
def State.goto (ph : Phase) (s : State) : State := { s with phase := ph }

/-- The last act of a command: its result code is written and PHASE is Idle (10_state.md R29, R30). -/
def State.finish (code : ResultCode) (s : State) : State := { s with status := code, phase := .idle }

/-- The Packet registers become unspecified and PKT_VALID 0 (10_state.md R24; U15). -/
def State.invalidatePacket (s : State) : State :=
  { s with
    packet :=
      { rxBuf := Mem.discard s.free, rxLen := Config.freeByte s.free, rssiDbm := Config.freeWord s.free,
        snrQ := Config.freeByte (s.free + 1), valid := false }
    free := s.free + 2 }

/-- `raise` of a refusal: only the result code is written (60_exceptions.md R217). -/
def State.refuse (code : ResultCode) (s : State) : State := s.finish code

/-- `raise` of a fatal condition: the one operation that ends a command early (60_exceptions.md R216). The Packet
registers stay invalid (log 21); chip, lines and mode stay as the completed frames made them; CS_N returns to 1. -/
def State.raiseFatal (code : ResultCode) (s : State) : State :=
  ({ s.invalidatePacket with configured := false, csN := true } : State).finish code

/-- The rest of a micro-step after its frame; a failed frame raises BusError (40_regbus.md R110, R111). -/
def FrameResult.andThen (f : FrameResult) (k : Byte → State → Outcome) : Outcome :=
  match f with
  | .done v s => k v s
  | .failed s => .next (s.raiseFatal .busError)
  | .refused r => .refused r

/-- `Delay(ms)`: lets time pass and changes nothing (70_reset_and_hazards.md R262). -/
def delay (_ms : Nat) (s : State) : State := s

/-- `SetMode(m)` micro-step a: the mode frame, and the Sequencer's record in the same micro-step (42_mode.md R136). -/
def setModeFrame (d : Draw) (m : Mode) (then_ : Phase) (s : State) : Outcome :=
  (memWrite d (s.cfg.map.addr .opMode) (modeByte s.cfg m) s).andThen fun _ s' =>
    .next (({ s' with mode := m } : State).goto then_)

/-- `SetMode(m)` micro-step b: the settle delay (42_mode.md R136). -/
def settle (then_ : Phase) (s : State) : Outcome := .next ((delay s.cfg.settleMs s).goto then_)

/-- The next draw of the environment; an exhausted script is a quiet environment (log 4). -/
def Draw.quiet : Draw :=
  { hostWrites := [], events := [], fate := .completes, dioSample := false, takeTimeout := false }

/-- The draw the next micro-step takes. -/
def State.nextDraw (s : State) : Draw := s.env.headD Draw.quiet

/-- A Host write of an operand register (10_state.md R21, R27). TXBUF has no index 255. -/
def State.hostWrite (h : HostWrite) (s : State) : Outcome :=
  match h with
  | .freq v => .next { s with radio := { s.radio with freq := v } }
  | .sf v => .next { s with radio := { s.radio with sf := v } }
  | .bw v => .next { s with radio := { s.radio with bw := v } }
  | .cr v => .next { s with radio := { s.radio with cr := v } }
  | .crcEn v => .next { s with radio := { s.radio with crcEn := v } }
  | .preamble v => .next { s with radio := { s.radio with preamble := v } }
  | .txPower v => .next { s with radio := { s.radio with txPower := v } }
  | .txBuf i v =>
    if i.toNat < Config.maxPayload then .next { s with txBuf := s.txBuf.write i.toNat v }
    else .fault .noSuchTxBufIndex

end Sys2Proof.Machine
end

