-- ==== Sys2Proof/Machine/ModeControl.lean ====
section
/-! DEFINITION. The micro-steps of CONFIGURE and SETMODE (42_mode.md R130 to R140). -/

namespace Sys2Proof.Machine

/-- CONFIGURE micro-step 0: CONFIGURED falls, the RadioConfig is sampled and validated (42_mode.md R130, R131). -/
def cfgValidate (s : State) : Outcome :=
  match configPlan s.cfg s.radio with
  | none => .next (({ s with configured := false } : State).raiseFatal .configError)
  | some (n, ws) => .next (({ s with configured := false, frf := n } : State).goto (.cfgResetLow ws))

/-- CONFIGURE micro-step 1: RESET_N falls, the chip takes its reset state (if there is one), the record is Sleep
(42_mode.md R132; 10_state.md R54). -/
def cfgResetLow (ws : List (Reg × Byte)) (s : State) : Outcome :=
  .next
    (({ s with
        resetN := false
        chip := if s.cfg.chipPresent then Chip.hardReset s.free else s.chip
        free := s.free + 1
        mode := .sleep } : State).goto (.cfgDelayLow ws))

/-- CONFIGURE micro-step 2. -/
def cfgDelayLow (ws : List (Reg × Byte)) (s : State) : Outcome :=
  .next ((delay s.cfg.resetLowMs s).goto (.cfgResetHigh ws))

/-- CONFIGURE micro-step 3: RESET_N is released (60_exceptions.md R226). -/
def cfgResetHigh (ws : List (Reg × Byte)) (s : State) : Outcome :=
  .next (({ s with resetN := true } : State).goto (.cfgDelayHigh ws))

/-- CONFIGURE micro-step 4. -/
def cfgDelayHigh (ws : List (Reg × Byte)) (s : State) : Outcome :=
  .next ((delay s.cfg.resetHighMs s).goto (.cfgSleep ws))

/-- Where CONFIGURE goes with configuration writes still to be sent. -/
def afterWrites : List (Reg × Byte) → Phase
  | [] => .cfgStandby
  | w :: ws => .cfgWrites (w :: ws)

/-- CONFIGURE micro-steps 6 to 17: one guarded configuration write, `CfgWrite` (42_mode.md R134). -/
def cfgWrite (d : Draw) (ws : List (Reg × Byte)) (s : State) : Outcome :=
  match ws with
  | [] => .next (s.goto .cfgStandby)
  | w :: rest =>
    if s.mode ≠ .sleep then .next (s.raiseFatal .configError)
    else (memWrite d (s.cfg.map.addr w.1) w.2 s).andThen fun _ s' => .next (s'.goto (afterWrites rest))

/-- CONFIGURE micro-step 19: the identification check (42_mode.md R135). -/
def cfgIdentify (d : Draw) (s : State) : Outcome :=
  (memRead d (s.cfg.map.addr .version) s).andThen fun v s' =>
    if v = s'.cfg.versionExpected then .next (s'.goto .cfgEnd) else .next (s'.raiseFatal .disconnected)

/-- CONFIGURE micro-step 20. -/
def cfgEnd (s : State) : Outcome := .next (({ s with configured := true } : State).finish .ok)

/-- SETMODE micro-step 2 (42_mode.md R138). -/
def setmodeEnd (s : State) : Outcome := .next (s.finish .ok)

end Sys2Proof.Machine
end

