-- ==== Sys2Proof/Machine/Radio.lean ====
section
/-! DEFINITION. The Radio agent's events (45_chip_events.md R185 to R190). -/

namespace Sys2Proof.Machine

/-- The positions after the assertion of RESET_N and up to the first frame after the second delay, at which the chip
stays in its reset state (42_mode.md R132). -/
def Phase.inReset : Phase → Bool
  | .cfgDelayLow _ | .cfgResetHigh _ | .cfgDelayHigh _ | .cfgSleep _ => true
  | .idle | .rdregFrame _ | .rdregEnd _ | .wrregGuard _ _ | .wrregFrame _ _ | .wrregEnd | .synthEval | .synthEnd _
  | .cfgValidate | .cfgResetLow _ | .cfgSleepSettle _ | .cfgWrites _ | .cfgStandby | .cfgStandbySettle | .cfgIdentify
  | .cfgEnd | .setmodeFrame _ | .setmodeSettle | .setmodeEnd | .sendStandby _ | .sendStandbySettle _ | .sendPointer _
  | .sendPayload _ _ | .sendLength _ | .sendMap | .sendTx | .sendTxSettle | .sendWait | .sendReadIrq | .sendAckIrq _
  | .sendRestore _ | .sendRestoreSettle _ | .sendEnd _ | .pollMap _ | .pollArm _ | .pollArmSettle _ | .pollWait _
  | .pollReadIrq | .pollAckIrq _ | .pollTest _ | .pollReadCurrent | .pollPointer _ | .pollReadCount | .pollReadout _ _
  | .pollReadRssi _ | .pollReadSnr _ _ | .pollPacket _ _ _ | .pollRearm _ | .pollRearmSettle _ | .pollEnd _ => false

/-- When an event is enabled (45_chip_events.md R186 to R188, R190): never while RESET_N is 0 nor before the first frame
after the reset pulse (42_mode.md R132, log 28), and never without a chip (log 12). Arguments outside an event's own
domain enable nothing (log 20). -/
def radioEnabled (e : RadioEvent) (s : State) : Bool :=
  s.resetN && !s.phase.inReset && s.cfg.chipPresent &&
    match e with
    | .txDone => decide (s.chip.mode = .tx) && s.chip.txPending
    | .rxPacket data _ _ _ => decide (s.chip.mode = .rxContinuous) && decide (data.length ≤ Config.maxPayload)
    | .irqOther m => irqUnnamed s.cfg.irqBits m

/-- The packet on air: the FIFO from the TX base for the payload length (45_chip_events.md R186). -/
def onAir (c : Chip) : List Byte := c.fifo.readRun c.fifoTxBase c.payloadLength.toNat

/-- `EV_TXDONE` (45_chip_events.md R186). -/
def radioTxDone (s : State) : State :=
  { s with
    txLog := s.txLog ++ [onAir s.chip]
    chip := { s.chip with irqFlags := irqSet s.chip.irqFlags s.cfg.irqBits.txDone, txPending := false } }

/-- `EV_RXPACKET` (45_chip_events.md R187). -/
def radioRxPacket (data : List Byte) (rssi snr : Byte) (crcBad : Bool) (s : State) : State :=
  let flags := irqSet s.chip.irqFlags s.cfg.irqBits.rxDone
  { s with
    chip :=
      { s.chip with
        fifoRxCurrent := s.chip.rxwp
        fifo := s.chip.fifo.storeRun s.chip.rxwp data
        rxwp := s.chip.rxwp + BitVec.ofNat 8 data.length
        rxNbBytes := BitVec.ofNat 8 data.length
        pktRssi := rssi
        pktSnr := snr
        irqFlags := if crcBad then irqSet flags s.cfg.irqBits.payloadCrcError else flags } }

/-- `EV_IRQ_OTHER` (45_chip_events.md R188). -/
def radioIrqOther (m : Byte) (s : State) : State :=
  { s with chip := { s.chip with irqFlags := s.chip.irqFlags ||| m } }

/-- One Radio step: the event if it is enabled, and nothing if it is not (it cannot happen then). -/
def radioStep (e : RadioEvent) (s : State) : State :=
  if radioEnabled e s then
    match e with
    | .txDone => radioTxDone s
    | .rxPacket data rssi snr crcBad => radioRxPacket data rssi snr crcBad s
    | .irqOther m => radioIrqOther m s
  else s

/-- The Radio steps between two micro-steps, in order (10_state.md R29; 45_chip_events.md R185). -/
def radioSteps : List RadioEvent → State → State
  | [], s => s
  | e :: es, s => radioSteps es (radioStep e s)

end Sys2Proof.Machine
end

