-- ==== Sys2Proof/Machine/Receive.lean ====
section
/-! DEFINITION. The micro-steps of POLL (44_rx_crc.md R165 to R182). -/

namespace Sys2Proof.Machine

/-- POLL P1, the mapping; the mode write follows only if the record is not RxContinuous (44_rx_crc.md R166). -/
def pollMap (d : Draw) (t : BitVec 16) (s : State) : Outcome :=
  (memWrite d (s.cfg.map.addr .dioMapping) s.cfg.mapRxDone s).andThen fun _ s' =>
    .next (s'.goto (if s'.mode = .rxContinuous then .pollWait t else .pollArm t))

/-- POLL P2: the wait; on a timeout the optional re-arm and the empty result (44_rx_crc.md R167). -/
def pollWait (d : Draw) (t : BitVec 16) (s : State) : Outcome :=
  if waitSignalled t.toNat d s then .next (s.goto .pollReadIrq)
  else .next (s.goto (if s.cfg.rxRearmOnTimeout then .pollRearm .rxTimeout else .pollEnd .rxTimeout))

/-- POLL P3, the read of the flags (44_rx_crc.md R168). -/
def pollReadIrq (d : Draw) (s : State) : Outcome :=
  (memRead d (s.cfg.map.addr .irqFlags) s).andThen fun v s' => .next (s'.goto (.pollAckIrq v))

/-- POLL P3, the write-back (44_rx_crc.md R168). -/
def pollAckIrq (d : Draw) (v : Byte) (s : State) : Outcome :=
  (memWrite d (s.cfg.map.addr .irqFlags) v s).andThen fun _ s' => .next (s'.goto (.pollTest v))

/-- Where the CRC validator sends POLL, a function of the flags read in P3 (44_rx_crc.md R169, R171, R180). -/
def crcVerdict (c : Cfg) (v : Byte) : Phase :=
  if irqHas v c.irqBits.payloadCrcError then .pollRearm .crcError
  else if irqHas v c.irqBits.rxDone then .pollReadCurrent
  else .pollEnd .rxTimeout

/-- POLL P4 (44_rx_crc.md R169, R171). -/
def pollTest (v : Byte) (s : State) : Outcome := .next (s.goto (crcVerdict s.cfg v))

/-- POLL P5: the packet's first index (44_rx_crc.md R172). -/
def pollReadCurrent (d : Draw) (s : State) : Outcome :=
  (memRead d (s.cfg.map.addr .fifoRxCurrent) s).andThen fun a s' => .next (s'.goto (.pollPointer a))

/-- POLL P5: the FIFO pointer to it (44_rx_crc.md R172). -/
def pollPointer (d : Draw) (a : Byte) (s : State) : Outcome :=
  (memWrite d (s.cfg.map.addr .fifoAddrPtr) a s).andThen fun _ s' => .next (s'.goto .pollReadCount)

/-- Where POLL goes before FIFO byte `i`: P5 while bytes are left, else P6 (44_rx_crc.md R173). -/
def readoutFrom (n : Byte) (i : Nat) : Phase := if i < n.toNat then .pollReadout n i else .pollReadRssi n

/-- POLL P5: the byte count (44_rx_crc.md R172). -/
def pollReadCount (d : Draw) (s : State) : Outcome :=
  (memRead d (s.cfg.map.addr .rxNbBytes) s).andThen fun n s' => .next (s'.goto (readoutFrom n 0))

/-- POLL P5: one FIFO byte into RXBUF (44_rx_crc.md R173). -/
def pollReadout (d : Draw) (n : Byte) (i : Nat) (s : State) : Outcome :=
  (memRead d (s.cfg.map.addr .fifo) s).andThen fun v s' =>
    .next (({ s' with packet := { s'.packet with rxBuf := s'.packet.rxBuf.write i v } } : State).goto
      (readoutFrom n (i + 1)))

/-- POLL P6: the RSSI register (44_rx_crc.md R174). -/
def pollReadRssi (d : Draw) (n : Byte) (s : State) : Outcome :=
  (memRead d (s.cfg.map.addr .pktRssi) s).andThen fun r s' => .next (s'.goto (.pollReadSnr n r))

/-- POLL P6: the SNR register (44_rx_crc.md R175). -/
def pollReadSnr (d : Draw) (n r : Byte) (s : State) : Outcome :=
  (memRead d (s.cfg.map.addr .pktSnr) s).andThen fun v s' => .next (s'.goto (.pollPacket n r v))

/-- POLL P7: the Packet registers, together (44_rx_crc.md R176). -/
def pollPacket (n r v : Byte) (s : State) : Outcome :=
  .next
    (({ s with
        packet :=
          { s.packet with rxLen := n, rssiDbm := rssiDbmOf r, snrQ := snrQOf v, valid := true } } : State).goto
      (.pollEnd .ok))

/-- The end of POLL: the recorded result (44_rx_crc.md R165, R177). -/
def pollEnd (res : ResultCode) (s : State) : Outcome := .next (s.finish res)

end Sys2Proof.Machine
end

