-- ==== Sys2Proof/Machine/RegBus.lean ====
section
/-! DEFINITION. The micro-steps of RDREG and WRREG (40_regbus.md R112 to R115). -/

namespace Sys2Proof.Machine

/-- RDREG micro-step 0; after a failed frame RDATA is unspecified (40_regbus.md R112; U15). -/
def rdregFrame (d : Draw) (a : RegAddr) (s : State) : Outcome :=
  match memRead d a s with
  | .done v s' => .next (s'.goto (.rdregEnd v))
  | .failed s' =>
    .next (({ s' with rdata := Config.freeByte s'.free, free := s'.free + 1 } : State).raiseFatal .busError)
  | .refused r => .refused r

/-- RDREG micro-step 1. -/
def rdregEnd (v : Byte) (s : State) : Outcome := .next (({ s with rdata := v } : State).finish .ok)

/-- Whether a register address is one of CFG_REGS (10_state.md R33). -/
def isCfgAddr (c : Cfg) (a : RegAddr) : Bool := (c.map.lookup a).any Reg.isCfg

/-- WRREG micro-step 0: the guards, before any frame (40_regbus.md R113 to R115). -/
def wrregGuard (a : RegAddr) (v : Byte) (s : State) : Outcome :=
  if a = (s.cfg.map.addr .opMode) then .next (s.refuse .badCommand)
  else if isCfgAddr s.cfg a = true ∧ ¬ (s.configured = true ∧ s.mode = .sleep) then .next (s.refuse .configError)
  else .next (s.goto (.wrregFrame a v))

/-- WRREG micro-step 1. -/
def wrregFrame (d : Draw) (a : RegAddr) (v : Byte) (s : State) : Outcome :=
  (memWrite d a v s).andThen fun _ s' => .next (s'.goto .wrregEnd)

/-- WRREG micro-step 2. -/
def wrregEnd (s : State) : Outcome := .next (s.finish .ok)

end Sys2Proof.Machine
end

