-- ==== Sys2Proof/Machine/Synth.lean ====
section
/-! DEFINITION. The micro-steps of SYNTH (41_synth.md R123). -/

namespace Sys2Proof.Machine

/-- SYNTH micro-step 0: the coefficient, or a refusal with ConfigError where it has no value (41_synth.md R122). -/
def synthEval (s : State) : Outcome :=
  match synthesize? s.radio.freq.toNat s.cfg.xtalHz s.cfg.resBits with
  | none => .next (s.refuse .configError)
  | some n => .next (s.goto (.synthEnd n))

/-- SYNTH micro-step 1. -/
def synthEnd (n : BitVec 24) (s : State) : Outcome := .next (({ s with frf := n } : State).finish .ok)

end Sys2Proof.Machine
end

