-- ==== Sys2Proof/Machine/Transmit.lean ====
section
/-! DEFINITION. The micro-steps of SEND (43_tx_fifo.md R150 to R161). -/

namespace Sys2Proof.Machine

/-- Where SEND goes before payload byte `i`: S3 while bytes are left, else S4 (43_tx_fifo.md R152). -/
def payloadFrom (n : Byte) (i : Nat) : Phase := if i < n.toNat then .sendPayload n i else .sendLength n

/-- SEND S2: the FIFO pointer to the TX base (43_tx_fifo.md R151). -/
def sendPointer (d : Draw) (n : Byte) (s : State) : Outcome :=
  (memWrite d (s.cfg.map.addr .fifoAddrPtr) s.cfg.txBase s).andThen fun _ s' => .next (s'.goto (payloadFrom n 0))

/-- SEND S3: one payload byte (43_tx_fifo.md R152). -/
def sendPayload (d : Draw) (n : Byte) (i : Nat) (s : State) : Outcome :=
  (memWrite d (s.cfg.map.addr .fifo) (s.txBuf.read i) s).andThen fun _ s' => .next (s'.goto (payloadFrom n (i + 1)))

/-- SEND S4: the payload length (43_tx_fifo.md R153). -/
def sendLength (d : Draw) (n : Byte) (s : State) : Outcome :=
  (memWrite d (s.cfg.map.addr .payloadLength) n s).andThen fun _ s' => .next (s'.goto .sendMap)

/-- SEND S5: the pin follows TX-complete (43_tx_fifo.md R154). -/
def sendMap (d : Draw) (s : State) : Outcome :=
  (memWrite d (s.cfg.map.addr .dioMapping) s.cfg.mapTxDone s).andThen fun _ s' => .next (s'.goto .sendTx)

/-- SEND S7: the wait; a timeout records TxTimeout and goes to S9 (43_tx_fifo.md R155). -/
def sendWait (d : Draw) (s : State) : Outcome :=
  if waitSignalled s.cfg.txTimeoutMs d s then .next (s.goto .sendReadIrq)
  else .next (s.goto (.sendRestore .txTimeout))

/-- SEND S8, the read of the flags (43_tx_fifo.md R156). -/
def sendReadIrq (d : Draw) (s : State) : Outcome :=
  (memRead d (s.cfg.map.addr .irqFlags) s).andThen fun v s' => .next (s'.goto (.sendAckIrq v))

/-- The result SEND draws from the flags it read (43_tx_fifo.md R156). -/
def sendResult (c : Cfg) (v : Byte) : ResultCode := if irqHas v c.irqBits.txDone then .ok else .txTimeout

/-- SEND S8, the write-back of the value read (43_tx_fifo.md R156). -/
def sendAckIrq (d : Draw) (v : Byte) (s : State) : Outcome :=
  (memWrite d (s.cfg.map.addr .irqFlags) v s).andThen fun _ s' => .next (s'.goto (.sendRestore (sendResult s'.cfg v)))

/-- The end of SEND: the recorded result (43_tx_fifo.md R150). -/
def sendEnd (res : ResultCode) (s : State) : Outcome := .next (s.finish res)

end Sys2Proof.Machine
end

