-- ==== Sys2Proof/Machine/Sequencer.lean ====
section
/-! DEFINITION. The Sequencer: one micro-step as one atomic transition (10_state.md R29), the acceptance of a command
(30_encoding.md R101, R103), and the run of a command from its micro-step 0 to Idle (R104). -/

namespace Sys2Proof.Machine

/-- The micro-step at the Sequencer's position, with its draw. -/
def perform (d : Draw) (s : State) : Outcome :=
  match s.phase with
  | .idle => .next s
  | .rdregFrame a => rdregFrame d a s
  | .rdregEnd v => rdregEnd v s
  | .wrregGuard a v => wrregGuard a v s
  | .wrregFrame a v => wrregFrame d a v s
  | .wrregEnd => wrregEnd s
  | .synthEval => synthEval s
  | .synthEnd n => synthEnd n s
  | .cfgValidate => cfgValidate s
  | .cfgResetLow ws => cfgResetLow ws s
  | .cfgDelayLow ws => cfgDelayLow ws s
  | .cfgResetHigh ws => cfgResetHigh ws s
  | .cfgDelayHigh ws => cfgDelayHigh ws s
  | .cfgSleep ws => setModeFrame d .sleep (.cfgSleepSettle ws) s
  | .cfgSleepSettle ws => settle (afterWrites ws) s
  | .cfgWrites ws => cfgWrite d ws s
  | .cfgStandby => setModeFrame d .standby .cfgStandbySettle s
  | .cfgStandbySettle => settle .cfgIdentify s
  | .cfgIdentify => cfgIdentify d s
  | .cfgEnd => cfgEnd s
  | .setmodeFrame m => setModeFrame d m .setmodeSettle s
  | .setmodeSettle => settle .setmodeEnd s
  | .setmodeEnd => setmodeEnd s
  | .sendStandby n => setModeFrame d .standby (.sendStandbySettle n) s
  | .sendStandbySettle n => settle (.sendPointer n) s
  | .sendPointer n => sendPointer d n s
  | .sendPayload n i => sendPayload d n i s
  | .sendLength n => sendLength d n s
  | .sendMap => sendMap d s
  | .sendTx => setModeFrame d .tx .sendTxSettle s
  | .sendTxSettle => settle .sendWait s
  | .sendWait => sendWait d s
  | .sendReadIrq => sendReadIrq d s
  | .sendAckIrq v => sendAckIrq d v s
  | .sendRestore res => setModeFrame d .standby (.sendRestoreSettle res) s
  | .sendRestoreSettle res => settle (.sendEnd res) s
  | .sendEnd res => sendEnd res s
  | .pollMap t => pollMap d t s
  | .pollArm t => setModeFrame d .rxContinuous (.pollArmSettle t) s
  | .pollArmSettle t => settle (.pollWait t) s
  | .pollWait t => pollWait d t s
  | .pollReadIrq => pollReadIrq d s
  | .pollAckIrq v => pollAckIrq d v s
  | .pollTest v => pollTest v s
  | .pollReadCurrent => pollReadCurrent d s
  | .pollPointer a => pollPointer d a s
  | .pollReadCount => pollReadCount d s
  | .pollReadout n i => pollReadout d n i s
  | .pollReadRssi n => pollReadRssi d n s
  | .pollReadSnr n r => pollReadSnr d n r s
  | .pollPacket n r v => pollPacket n r v s
  | .pollRearm res => setModeFrame d .rxContinuous (.pollRearmSettle res) s
  | .pollRearmSettle res => settle (.pollEnd res) s
  | .pollEnd res => pollEnd res s

/-- The state a micro-step starts from: its draw is used up and the Radio steps before it have been taken (10_state.md
R29). -/
def State.afterRadio (s : State) : State := radioSteps s.nextDraw.events { s with env := s.env.tail }

/-- One micro-step of the Sequencer. A Host write attempted before it is refused (10_state.md R27;
70_reset_and_hazards.md R258). -/
def microStep (s : State) : Outcome :=
  if s.nextDraw.hostWrites = [] then perform s.nextDraw s.afterRadio else .refused .hostWriteWhileBusy

/-- More micro-steps than a command at this position has left: the measure by which every command terminates
(30_encoding.md R104). -/
def Phase.bound : Phase → Nat
  | .idle => 0
  | .rdregFrame _ => 2
  | .rdregEnd _ => 1
  | .wrregGuard _ _ => 3
  | .wrregFrame _ _ => 2
  | .wrregEnd => 1
  | .synthEval => 2
  | .synthEnd _ => 1
  | .cfgValidate => 24
  | .cfgResetLow ws => 11 + ws.length
  | .cfgDelayLow ws => 10 + ws.length
  | .cfgResetHigh ws => 9 + ws.length
  | .cfgDelayHigh ws => 8 + ws.length
  | .cfgSleep ws => 7 + ws.length
  | .cfgSleepSettle ws => 6 + ws.length
  | .cfgWrites ws => 5 + ws.length
  | .cfgStandby => 4
  | .cfgStandbySettle => 3
  | .cfgIdentify => 2
  | .cfgEnd => 1
  | .setmodeFrame _ => 3
  | .setmodeSettle => 2
  | .setmodeEnd => 1
  | .sendStandby n => 14 + n.toNat
  | .sendStandbySettle n => 13 + n.toNat
  | .sendPointer n => 12 + n.toNat
  | .sendPayload n i => 11 + (n.toNat - i)
  | .sendLength _ => 10
  | .sendMap => 9
  | .sendTx => 8
  | .sendTxSettle => 7
  | .sendWait => 6
  | .sendReadIrq => 5
  | .sendAckIrq _ => 4
  | .sendRestore _ => 3
  | .sendRestoreSettle _ => 2
  | .sendEnd _ => 1
  | .pollMap _ => 270
  | .pollArm _ => 269
  | .pollArmSettle _ => 268
  | .pollWait _ => 267
  | .pollReadIrq => 266
  | .pollAckIrq _ => 265
  | .pollTest _ => 264
  | .pollReadCurrent => 263
  | .pollPointer _ => 262
  | .pollReadCount => 261
  | .pollReadout n i => 5 + (n.toNat - i)
  | .pollReadRssi _ => 4
  | .pollReadSnr _ _ => 3
  | .pollPacket _ _ _ => 2
  | .pollRearm _ => 3
  | .pollRearmSettle _ => 2
  | .pollEnd _ => 1

/-- At most `k` micro-steps, stopping at Idle. -/
def runFor : Nat → State → Outcome
  | 0, s => .next s
  | k + 1, s =>
    if s.busy then
      match microStep s with
      | .next s' => runFor k s'
      | .fault r => .fault r
      | .refused r => .refused r
    else .next s

/-- The command in execution runs to Idle (30_encoding.md R104). -/
def runToIdle (s : State) : Outcome := runFor s.phase.bound s

/-- Acceptance of a command whose first micro-step is `ph`: the Packet registers are invalidated and the command runs
(30_encoding.md R101). While BUSY the word is held and nothing happens (R100). -/
def accept (ph : Phase) (s : State) : Outcome :=
  if s.busy then .next s else runToIdle (s.invalidatePacket.goto ph)

/-- Acceptance of a command that needs CONFIGURED = 1 (30_encoding.md R103). -/
def acceptConfigured (ph : Phase) (s : State) : Outcome :=
  if s.busy then .next s
  else if s.configured then runToIdle (s.invalidatePacket.goto ph)
  else .next (s.invalidatePacket.refuse .badCommand)

/-- Acceptance of an illegal command word (30_encoding.md R96, R101). -/
def acceptIllegal (s : State) : Outcome :=
  if s.busy then .next s else .next (s.invalidatePacket.refuse .badCommand)

end Sys2Proof.Machine
end

