-- ==== Sys2Proof/Machine/Commands.lean ====
section
/-! DEFINITION. The meanings of the seven commands: acceptance, and the run of the command's micro-step list to Idle
(30_encoding.md R101, R103, R104). The micro-steps stand in RegBus, Synth, ModeControl, Transmit and Receive. -/

namespace Sys2Proof.Machine

/-- RDREG `a` (40_regbus.md R112); no guard. -/
def execRdreg (a : RegAddr) (s : State) : Outcome := accept (.rdregFrame a) s

/-- WRREG `a, v` (40_regbus.md R113); its guards are its micro-step 0. -/
def execWrreg (a : RegAddr) (v : Byte) (s : State) : Outcome := accept (.wrregGuard a v) s

/-- SYNTH (41_synth.md R123); no guard. -/
def execSynth (s : State) : Outcome := accept .synthEval s

/-- CONFIGURE (42_mode.md R130); no guard. -/
def execConfigure (s : State) : Outcome := accept .cfgValidate s

/-- SETMODE `m` (42_mode.md R138); needs CONFIGURED = 1. -/
def execSetmode (m : Mode) (s : State) : Outcome := acceptConfigured (.setmodeFrame m) s

/-- SEND `n` (43_tx_fifo.md R150); needs CONFIGURED = 1. -/
def execSend (n : Byte) (s : State) : Outcome := acceptConfigured (.sendStandby n) s

/-- POLL `t` (44_rx_crc.md R165); needs CONFIGURED = 1. -/
def execPoll (t : BitVec 16) (s : State) : Outcome := acceptConfigured (.pollMap t) s

end Sys2Proof.Machine
end

