-- ==== Sys2Proof/Machine/Frames.lean ====
section
/-! DEFINITION. The meanings of the nine format-B rows: one bus transaction, answered by the chip (20_memory.md R61 to
R63). The value a read frame returns is the value of the record it adds to BUSLOG (10_state.md R53). These rows are a
frame that reaches the chip, so its fate is not a draw here (log 16). -/

namespace Sys2Proof.Machine

/-- A transaction as an outcome. -/
def frameOutcome (addrByte dataByte : Byte) (s : State) : Outcome :=
  match transact addrByte dataByte s with
  | .ok (_, s') => .next s'
  | .error e => .refused e

/-- BUS.WRITE: byte `d` at address `a` (20_memory.md R62). -/
def execBusWrite (a : RegAddr) (d : Byte) (s : State) : Outcome := frameOutcome (writeAddrByte a) d s

/-- BUS.READ at address `a` (20_memory.md R63); the chip ignores the byte `d` (D15). -/
def execBusRead (a : RegAddr) (d : Byte) (s : State) : Outcome := frameOutcome (readAddrByte a) d s

/-- BUS.WRITE.A_FIFO (10_state.md R39). -/
def execBusWriteFifo (d : Byte) (s : State) : Outcome := frameOutcome (writeAddrByte (s.cfg.map.addr .fifo)) d s

/-- BUS.READ.A_FIFO (10_state.md R39). -/
def execBusReadFifo (d : Byte) (s : State) : Outcome := frameOutcome (readAddrByte (s.cfg.map.addr .fifo)) d s

/-- BUS.WRITE.A_OPMODE (10_state.md R34). -/
def execBusWriteOpMode (d : Byte) (s : State) : Outcome := frameOutcome (writeAddrByte (s.cfg.map.addr .opMode)) d s

/-- BUS.WRITE.A_FIFO_ADDR_PTR (10_state.md R40). -/
def execBusWriteFifoAddrPtr (d : Byte) (s : State) : Outcome :=
  frameOutcome (writeAddrByte (s.cfg.map.addr .fifoAddrPtr)) d s

/-- BUS.WRITE.A_IRQ_FLAGS (10_state.md R43). -/
def execBusWriteIrqFlags (d : Byte) (s : State) : Outcome := frameOutcome (writeAddrByte (s.cfg.map.addr .irqFlags)) d s

/-- BUS.WRITE.A_DIO_MAPPING (10_state.md R48). -/
def execBusWriteDioMapping (d : Byte) (s : State) : Outcome :=
  frameOutcome (writeAddrByte (s.cfg.map.addr .dioMapping)) d s

/-- BUS.READ.A_VERSION (10_state.md R49). -/
def execBusReadVersion (d : Byte) (s : State) : Outcome := frameOutcome (readAddrByte (s.cfg.map.addr .version)) d s

end Sys2Proof.Machine
end

