-- ==== Sys2Proof/Machine/Dispatch.lean ====
section
/-! DEFINITION. The dispatch from an instruction to its meaning, one arm per row of the opcode table. -/

namespace Sys2Proof.Machine

def exec (i : Instr) (s : State) : Host.Outcome State Fault Refusal :=
  match i with
  -- format K, the commands
  | .rdreg a => Sys2Proof.Machine.execRdreg a s
  | .wrreg a v => Sys2Proof.Machine.execWrreg a v s
  | .synth => Sys2Proof.Machine.execSynth s
  | .configure => Sys2Proof.Machine.execConfigure s
  | .setmode m => Sys2Proof.Machine.execSetmode m s
  | .send n => Sys2Proof.Machine.execSend n s
  | .poll t => Sys2Proof.Machine.execPoll t s
  -- format B, the bus frames
  | .busWrite a d => Sys2Proof.Machine.execBusWrite a d s
  | .busRead a d => Sys2Proof.Machine.execBusRead a d s
  | .busWriteFifo d => Sys2Proof.Machine.execBusWriteFifo d s
  | .busReadFifo d => Sys2Proof.Machine.execBusReadFifo d s
  | .busWriteOpMode d => Sys2Proof.Machine.execBusWriteOpMode d s
  | .busWriteFifoAddrPtr d => Sys2Proof.Machine.execBusWriteFifoAddrPtr d s
  | .busWriteIrqFlags d => Sys2Proof.Machine.execBusWriteIrqFlags d s
  | .busWriteDioMapping d => Sys2Proof.Machine.execBusWriteDioMapping d s
  | .busReadVersion d => Sys2Proof.Machine.execBusReadVersion d s

end Sys2Proof.Machine
end

