-- ==== Sys2Proof/Machine/Port.lean ====
section
/-! DEFINITION. The command port and the other inputs the core meets while idle (30_encoding.md R100, R101; 10_state.md
R27; 45_chip_events.md R185), and how a table word is placed there. -/

namespace Sys2Proof.Machine

/-- A command word presented while idle: decoded and executed, or reported illegal (30_encoding.md R96, R101). -/
def presentCommand (w : BitVec 24) (s : State) : Outcome :=
  match decodeCommand w with
  | .ok i => exec i s
  | .error _ => acceptIllegal s

/-- One input taken from the queue. -/
def takeInput (x : Input) (s : State) : Outcome :=
  match x with
  | .command w => presentCommand w s
  | .frame w => exec (decodeFrame s.cfg.map w) s
  | .hostWrite h => s.hostWrite h
  | .radio e => .next (radioStep e s)

/-- One step of the machine: while busy, one micro-step of the command in execution (a presented word waits,
30_encoding.md R100); while idle, the next input; with no input, nothing happens. -/
def portStep (s : State) : Outcome :=
  if s.busy then microStep s
  else
    match s.inbox with
    | [] => .next s
    | x :: rest => takeInput x { s with inbox := rest }

/-- The input that presents a table word: a command word or a bus frame. -/
def tableInput (nbits w : Nat) : Input :=
  if nbits ≤ 16 then .frame (BitVec.ofNat 16 w) else .command (BitVec.ofNat 24 w)

/-- The state in which the very next step takes a table word: idle, with the word presented first. -/
def presentTableWord (s : State) (nbits w : Nat) : State :=
  { s with phase := .idle, inbox := tableInput nbits w :: s.inbox }

end Sys2Proof.Machine
end

