-- ==== Sys2Proof/Safety.lean ====
section
/-! DEFINITION. What counts as a safe run, in the terms the claims use: the premises about the environment
(20_memory.md R64; 10_state.md R27), the agreement of the Sequencer's record with the chip (10_state.md R25), and the
invariant every step keeps. -/

namespace Sys2Proof.Machine

/-! ## The environment while a command runs -/

/-- No Host write falls inside a command (10_state.md R27). -/
def State.hostQuiet (s : State) : Prop := ∀ d ∈ s.env, d.hostWrites = []

/-- No bus frame fails (20_memory.md R64). -/
def State.busSound (s : State) : Prop := ∀ d ∈ s.env, d.fate = .completes

/-- No Radio event falls inside a command (45_chip_events.md R185). -/
def State.airQuiet (s : State) : Prop := ∀ d ∈ s.env, d.events = []

/-! ## The Sequencer's record and the chip -/

/-- `x[MODE]` equals the chip's mode, and the chip is in long-range mode, if a chip is attached (10_state.md R25,
R34). -/
def State.modesAgree (s : State) : Prop :=
  s.cfg.chipPresent = true → s.chip.mode = s.mode ∧ s.chip.lora s.cfg = true

/-- The attached chip is in Sleep (10_state.md R54). -/
def State.chipSleeps (s : State) : Prop := s.cfg.chipPresent = true → s.chip.mode = .sleep

/-- A state in which the guards of 30_encoding.md R103 pass and 10_state.md R25's equality holds: idle, configured,
lines released. -/
structure State.Ready (s : State) : Prop where
  cfg_wf : s.cfg.wf = true
  idle : s.phase = .idle
  csN : s.csN = true
  resetN : s.resetN = true
  configured : s.configured = true
  agree : s.modesAgree

/-! ## The invariant -/

/-- What holds while the Sequencer stands at each position: the guards that have been passed are still true
(42_mode.md R134; 40_regbus.md R114, R115; 30_encoding.md R103). -/
def State.phaseInv (s : State) : Prop :=
  match s.phase with
  | .idle => s.resetN = true ∧ (s.configured = true → s.modesAgree)
  | .rdregFrame _ | .rdregEnd _ | .wrregGuard _ _ | .wrregEnd | .synthEval | .synthEnd _ | .cfgValidate =>
    s.resetN = true ∧ (s.configured = true → s.modesAgree)
  | .wrregFrame a _ =>
    s.resetN = true ∧ (s.configured = true → s.modesAgree) ∧ a ≠ s.cfg.map.addr .opMode ∧
      (isCfgAddr s.cfg a = true → s.configured = true ∧ s.mode = .sleep)
  | .cfgResetLow ws => s.resetN = true ∧ s.configured = false ∧ ∀ w ∈ ws, w.1.isCfg = true
  | .cfgDelayLow ws | .cfgResetHigh ws =>
    s.resetN = false ∧ s.configured = false ∧ s.mode = .sleep ∧ s.chipSleeps ∧ ∀ w ∈ ws, w.1.isCfg = true
  | .cfgDelayHigh ws | .cfgSleep ws =>
    s.resetN = true ∧ s.configured = false ∧ s.mode = .sleep ∧ s.chipSleeps ∧ ∀ w ∈ ws, w.1.isCfg = true
  | .cfgSleepSettle ws | .cfgWrites ws =>
    s.resetN = true ∧ s.configured = false ∧ s.mode = .sleep ∧ s.modesAgree ∧ ∀ w ∈ ws, w.1.isCfg = true
  | .cfgStandby => s.resetN = true ∧ s.configured = false ∧ s.mode = .sleep ∧ s.modesAgree
  | .cfgStandbySettle | .cfgIdentify | .cfgEnd =>
    s.resetN = true ∧ s.configured = false ∧ s.mode = .standby ∧ s.modesAgree
  | .setmodeFrame _ | .setmodeSettle | .setmodeEnd | .sendStandby _ | .sendStandbySettle _ | .sendPointer _
  | .sendLength _ | .sendMap | .sendTx | .sendTxSettle | .sendWait | .sendReadIrq | .sendAckIrq _ | .sendRestore _
  | .sendRestoreSettle _ | .sendEnd _ | .pollMap _ | .pollArm _ | .pollArmSettle _ | .pollWait _ | .pollReadIrq
  | .pollAckIrq _ | .pollTest _ | .pollReadCurrent | .pollPointer _ | .pollReadCount | .pollReadRssi _
  | .pollReadSnr _ _ | .pollPacket _ _ _ | .pollRearm _ | .pollRearmSettle _ | .pollEnd _ =>
    s.resetN = true ∧ s.configured = true ∧ s.modesAgree
  | .sendPayload n i | .pollReadout n i =>
    s.resetN = true ∧ s.configured = true ∧ s.modesAgree ∧ i < n.toNat

/-- No bare bus frame stands in the input queue: the Sequencer is the only bus master (70_reset_and_hazards.md R250;
U19). -/
def State.soleMaster (s : State) : Prop := ∀ w, Input.frame w ∉ s.inbox

/-- The invariant of the machine: a well-formed configuration, one bus master, the memories in canonical form,
chip-select released between micro-steps, and what the Sequencer's position says. -/
structure State.Inv (s : State) : Prop where
  cfg_wf : s.cfg.wf = true
  master : s.soleMaster
  fifo_wf : s.chip.fifo.wf Config.fifoSize = true
  txBuf_wf : s.txBuf.wf Config.maxPayload = true
  rxBuf_wf : s.packet.rxBuf.wf Config.maxPayload = true
  csN : s.csN = true
  phaseInv : s.phaseInv

/-! ## Terms the rules speak in -/

/-- The seven commands of format K (00_scope.md R2). -/
def isCommand : Instr → Bool
  | .rdreg _ | .wrreg _ _ | .synth | .configure | .setmode _ | .send _ | .poll _ => true
  | .busWrite _ _ | .busRead _ _ | .busWriteFifo _ | .busReadFifo _ | .busWriteOpMode _ | .busWriteFifoAddrPtr _
  | .busWriteIrqFlags _ | .busWriteDioMapping _ | .busReadVersion _ => false

/-- The result codes a command can end with (60_exceptions.md R201); a bus frame writes none. -/
def resultCodes : Instr → List ResultCode
  | .rdreg _ => [.ok, .busError]
  | .wrreg _ _ => [.ok, .busError, .configError, .badCommand]
  | .synth => [.ok, .configError]
  | .configure => [.ok, .busError, .configError, .disconnected]
  | .setmode _ => [.ok, .busError, .badCommand]
  | .send _ => [.ok, .busError, .txTimeout, .badCommand]
  | .poll _ => [.ok, .busError, .rxTimeout, .crcError, .badCommand]
  | .busWrite _ _ | .busRead _ _ | .busWriteFifo _ | .busReadFifo _ | .busWriteOpMode _ | .busWriteFifoAddrPtr _
  | .busWriteIrqFlags _ | .busWriteDioMapping _ | .busReadVersion _ => []

/-- The positions whose micro-step is one bus frame (10_state.md R29). -/
def Phase.sendsFrame : Phase → Bool
  | .rdregFrame _ | .wrregFrame _ _ | .cfgSleep _ | .cfgStandby | .cfgIdentify | .setmodeFrame _ | .sendStandby _
  | .sendPointer _ | .sendPayload _ _ | .sendLength _ | .sendMap | .sendTx | .sendReadIrq | .sendAckIrq _
  | .sendRestore _ | .pollMap _ | .pollArm _ | .pollReadIrq | .pollAckIrq _ | .pollReadCurrent | .pollPointer _
  | .pollReadCount | .pollReadout _ _ | .pollReadRssi _ | .pollReadSnr _ _ | .pollRearm _ => true
  | .cfgWrites ws => !ws.isEmpty
  | .idle | .rdregEnd _ | .wrregGuard _ _ | .wrregEnd | .synthEval | .synthEnd _ | .cfgValidate | .cfgResetLow _
  | .cfgDelayLow _ | .cfgResetHigh _ | .cfgDelayHigh _ | .cfgSleepSettle _ | .cfgStandbySettle | .cfgEnd
  | .setmodeSettle | .setmodeEnd | .sendStandbySettle _ | .sendTxSettle | .sendWait | .sendRestoreSettle _ | .sendEnd _
  | .pollArmSettle _ | .pollWait _ | .pollTest _ | .pollPacket _ _ _ | .pollRearmSettle _ | .pollEnd _ => false

/-- The positions whose micro-step is `SetMode` micro-step a, with its target (42_mode.md R136). -/
def Phase.setsMode : Phase → Option Mode
  | .cfgSleep _ => some .sleep
  | .cfgStandby | .sendStandby _ | .sendRestore _ => some .standby
  | .setmodeFrame m => some m
  | .sendTx => some .tx
  | .pollArm _ | .pollRearm _ => some .rxContinuous
  | .idle | .rdregFrame _ | .rdregEnd _ | .wrregGuard _ _ | .wrregFrame _ _ | .wrregEnd | .synthEval | .synthEnd _
  | .cfgValidate | .cfgResetLow _ | .cfgDelayLow _ | .cfgResetHigh _ | .cfgDelayHigh _ | .cfgSleepSettle _
  | .cfgWrites _ | .cfgStandbySettle | .cfgIdentify | .cfgEnd | .setmodeSettle | .setmodeEnd | .sendStandbySettle _
  | .sendPointer _ | .sendPayload _ _ | .sendLength _ | .sendMap | .sendTxSettle | .sendWait | .sendReadIrq
  | .sendAckIrq _ | .sendRestoreSettle _ | .sendEnd _ | .pollMap _ | .pollArmSettle _ | .pollWait _ | .pollReadIrq
  | .pollAckIrq _ | .pollTest _ | .pollReadCurrent | .pollPointer _ | .pollReadCount | .pollReadout _ _
  | .pollReadRssi _ | .pollReadSnr _ _ | .pollPacket _ _ _ | .pollRearmSettle _ | .pollEnd _ => none

/-- Whether the position is the reset pulse's assertion (42_mode.md R132). -/
def Phase.assertsReset : Phase → Bool
  | .cfgResetLow _ => true
  | _ => false

/-- Whether the next micro-step is a write frame to A_IRQ_FLAGS: an acknowledge of SEND or POLL, or a WRREG there
(43_tx_fifo.md R156; 44_rx_crc.md R168; 45_chip_events.md R185). -/
def State.writesFlags (s : State) : Bool :=
  match s.phase with
  | .sendAckIrq _ | .pollAckIrq _ => true
  | .wrregFrame a _ => decide (a = s.cfg.map.addr .irqFlags)
  | .cfgWrites ws => ws.head?.any fun w => decide (w.1 = .irqFlags)
  | .idle | .rdregFrame _ | .rdregEnd _ | .wrregGuard _ _ | .wrregEnd | .synthEval | .synthEnd _ | .cfgValidate
  | .cfgResetLow _ | .cfgDelayLow _ | .cfgResetHigh _ | .cfgDelayHigh _ | .cfgSleep _ | .cfgSleepSettle _ | .cfgStandby
  | .cfgStandbySettle | .cfgIdentify | .cfgEnd | .setmodeFrame _ | .setmodeSettle | .setmodeEnd | .sendStandby _
  | .sendStandbySettle _ | .sendPointer _ | .sendPayload _ _ | .sendLength _ | .sendMap | .sendTx | .sendTxSettle
  | .sendWait | .sendReadIrq | .sendRestore _ | .sendRestoreSettle _ | .sendEnd _ | .pollMap _ | .pollArm _
  | .pollArmSettle _ | .pollWait _ | .pollReadIrq | .pollTest _ | .pollReadCurrent | .pollPointer _ | .pollReadCount
  | .pollReadout _ _ | .pollReadRssi _ | .pollReadSnr _ _ | .pollPacket _ _ _ | .pollRearm _ | .pollRearmSettle _
  | .pollEnd _ => false

/-- What no command of the core changes: the configuration record, the operand registers, TXBUF, and the inputs that
wait (10_state.md R21, R27). -/
structure KeepsOperands (s t : State) : Prop where
  cfg : t.cfg = s.cfg
  radio : t.radio = s.radio
  txBuf : t.txBuf = s.txBuf
  inbox : t.inbox = s.inbox

/-- The RadioConfig passes every check of 42_mode.md R131; `n` is the coefficient and `code` the bandwidth's code. -/
structure ValidConfig (c : Cfg) (rc : RadioConfig) (n : BitVec 24) (code : BitVec 4) : Prop where
  freq : c.freqMinHz ≤ rc.freq.toNat ∧ rc.freq.toNat ≤ c.freqMaxHz
  xtal : 0 < c.xtalHz
  frf : (2 * rc.freq.toNat * 2 ^ c.resBits + c.xtalHz) / (2 * c.xtalHz) = n.toNat
  sf : 7 ≤ rc.sf.toNat ∧ rc.sf.toNat ≤ 12
  bw : c.bwCode? rc.bw.toNat = some code
  cr : 5 ≤ rc.cr.toNat ∧ rc.cr.toNat ≤ 8
  txPower : c.txpMin ≤ rc.txPower.toInt ∧ rc.txPower.toInt ≤ c.txpMax

/-- A record of a write frame to a register. -/
def wrote (c : Cfg) (r : Reg) (v : Byte) : BusRecord := ⟨true, c.map.addr r, v⟩

/-- A record of a read frame of a register. -/
def didRead (c : Cfg) (r : Reg) (v : Byte) : BusRecord := ⟨false, c.map.addr r, v⟩

/-- The fifteen frames of a CONFIGURE that sends every write, in order (42_mode.md R130). -/
def configureFrames (c : Cfg) (rc : RadioConfig) (n : BitVec 24) (code : BitVec 4) (version : Byte) : List BusRecord :=
  [wrote c .opMode (modeByte c .sleep), wrote c .frfMsb (n.extractLsb' 16 8), wrote c .frfMid (n.extractLsb' 8 8),
   wrote c .frfLsb (n.extractLsb' 0 8), wrote c .paConfig (paEncode c rc.txPower), wrote c .lna c.lnaCfg,
   wrote c .modemConfig1 (modemConfig1Byte code rc.cr), wrote c .modemConfig2 (modemConfig2Byte rc.sf rc.crcEn),
   wrote c .symbTimeout c.symbTimeoutCfg, wrote c .preambleMsb (rc.preamble.extractLsb' 8 8),
   wrote c .preambleLsb (rc.preamble.extractLsb' 0 8), wrote c .fifoTxBase c.txBase, wrote c .fifoRxBase c.rxBase,
   wrote c .opMode (modeByte c .standby), didRead c .version version]

/-- The first `n` bytes of TXBUF. -/
def payload (s : State) (n : Byte) : List Byte := (List.range n.toNat).map fun i => s.txBuf.read i

/-- The frames of SEND S1 to S6, in order (43_tx_fifo.md R150). -/
def sendFrames (s : State) (n : Byte) : List BusRecord :=
  [wrote s.cfg .opMode (modeByte s.cfg .standby), wrote s.cfg .fifoAddrPtr s.cfg.txBase] ++
    (payload s n).map (wrote s.cfg .fifo) ++
  [wrote s.cfg .payloadLength n, wrote s.cfg .dioMapping s.cfg.mapTxDone, wrote s.cfg .opMode (modeByte s.cfg .tx)]

end Sys2Proof.Machine
end

