-- ==== Sys2Proof/Certificates/Slice0/Obligations.lean ====
section
/-! DEFINITION. The statements for the provers. "env" premises: `hostQuiet` no Host write falls inside the command
(10_state.md R27), `busSound` no frame fails (20_memory.md R64), `airQuiet` no Radio event falls inside it. A statement
without `airQuiet` holds for every Radio behaviour during the command. The chip at a command's first micro-step is
`(radioSteps s.nextDraw.events s).chip`: the chip after the Radio steps that fall before that micro-step. -/

open Sys2Proof Sys2Proof.Machine

/-! ## Encodings -/

/-- Words written out from 30_encoding.md R91 to R95 and the rules' examples decode to what they stand for. -/
def Obligations.SpecWordsDecode : Prop :=
  decodeCommand 0x104200#24 = .ok (.rdreg 0x42#7) ∧ decodeCommand 0x2012FF#24 = .ok (.wrreg 0x12#7 0xFF#8) ∧
  decodeCommand 0x300000#24 = .ok .synth ∧ decodeCommand 0x400000#24 = .ok .configure ∧
  decodeCommand 0x500003#24 = .ok (.setmode .rxContinuous) ∧ decodeCommand 0x600005#24 = .ok (.send 5#8) ∧
  decodeCommand 0x7003E8#24 = .ok (.poll 1000#16) ∧ decodeCommand 0x510000#24 = .error .zNotZero ∧
  decodeCommand 0x800000#24 = .error .reservedOp ∧ decodeCommand 0x100001#24 = .error .operandBits ∧
  decodeFrame RegMap.reference 0x8C23#16 = .busWrite 0x0C#7 0x23#8 ∧
  decodeFrame RegMap.reference 0x0C00#16 = .busRead 0x0C#7 0x00#8 ∧
  decodeFrame RegMap.reference 0x8048#16 = .busWriteFifo 0x48#8 ∧
  decodeFrame RegMap.reference 0x0000#16 = .busReadFifo 0x00#8 ∧
  decodeFrame RegMap.reference 0x8185#16 = .busWriteOpMode 0x85#8 ∧
  decodeFrame RegMap.reference 0x8D00#16 = .busWriteFifoAddrPtr 0x00#8 ∧
  decodeFrame RegMap.reference 0x92FF#16 = .busWriteIrqFlags 0xFF#8 ∧
  decodeFrame RegMap.reference 0xC040#16 = .busWriteDioMapping 0x40#8 ∧
  decodeFrame RegMap.reference 0x4200#16 = .busReadVersion 0x00#8

/-- Decoding what an instruction encodes to gives the instruction back, under every register map the spec allows. -/
def Obligations.DecodeOfEncode : Prop :=
  ∀ (m : RegMap) (i : Instr), m.wf = true → i.wf m = true → decode m (encode m i) = .ok i

/-- Encoding what a word decodes to gives the word back: no bit of a legal word is dropped, and no instruction has two
words. -/
def Obligations.EncodeOfDecode : Prop :=
  ∀ (m : RegMap) (e : Encoded) (i : Instr), m.wf = true → decode m e = .ok i → encode m i = e ∧ i.wf m = true

/-- R95: a word is the command of a row exactly when its masked bits are the row's match, the rows do not overlap, and
the write bit tells the frames apart. That a register with a row of its own is decoded to that row, and not to the
generic row that also holds its words, is the model's choice (log 26, at the default addresses of log 13). -/
def Obligations.WordsMatchTheirRows : Prop :=
  (∀ (w : BitVec 24), ∀ row ∈ commandRows,
    (∃ i, decodeCommand w = .ok i ∧ i.mnemonic = row.mnemonic) ↔ w.toNat &&& row.mask = row.pattern) ∧
  (∀ (w : BitVec 24), ∀ row ∈ commandRows, ∀ row' ∈ commandRows,
    w.toNat &&& row.mask = row.pattern → w.toNat &&& row'.mask = row'.pattern → row = row') ∧
  (∀ (w : BitVec 16), frameIsWrite w = true ↔ w.toNat &&& 0x8000 = 0x8000) ∧
  (∀ (w : BitVec 16), frameIsWrite w = false ↔ w.toNat &&& 0x8000 = 0x0000) ∧
  (∀ (w : BitVec 16), ∀ row ∈ frameRows, row.mask = 0xFF00 →
    ((decodeFrame RegMap.reference w).mnemonic = row.mnemonic ↔ w.toNat &&& row.mask = row.pattern))

/-- R91: a frame is the write bit, the 7-bit address and the data byte; the Sequencer's first byte is `0x80 | a` for a
write and `a` for a read, and its second byte the data. -/
def Obligations.FramesAreAddressThenData : Prop :=
  ∀ (m : RegMap) (a : RegAddr) (d : Byte),
    encode m (.busWrite a d) = .frame (writeAddrByte a ++ d) ∧ encode m (.busRead a d) = .frame (readAddrByte a ++ d) ∧
    writeAddrByte a = 0x80#8 ||| a.setWidth 8 ∧ readAddrByte a = a.setWidth 8 ∧
    frameIsWrite (writeAddrByte a ++ d) = true ∧ frameIsWrite (readAddrByte a ++ d) = false ∧
    frameAddr (writeAddrByte a ++ d) = a ∧ frameAddr (readAddrByte a ++ d) = a ∧
    frameData (writeAddrByte a ++ d) = d ∧ frameData (readAddrByte a ++ d) = d

/-! ## The step and the command port -/

/-- A step of the idle machine runs the instruction that the presented word decodes to, with the word consumed. -/
def Obligations.StepRunsTheDecodedInstruction : Prop :=
  (∀ (s : State) (w : BitVec 24) (rest : List Input) (i : Instr),
    s.phase = .idle → s.inbox = .command w :: rest → decodeCommand w = .ok i →
      step s = exec i { s with inbox := rest }) ∧
  (∀ (s : State) (w : BitVec 16) (rest : List Input),
    s.phase = .idle → s.inbox = .frame w :: rest →
      step s = exec (decodeFrame s.cfg.map w) { s with inbox := rest })

/-- A table word placed for the next step is decoded and run by it (the placing is the model's own, log 2). -/
def Obligations.PlacedWordRunsNext : Prop :=
  ∀ (s : State) (nbits w : Nat) (i : Instr), s.cfg.map = RegMap.reference → decodeTableWord nbits w = some i →
    step (s.withFetchWord nbits w) = exec i { s with phase := .idle }

/-- R100: BUSY is 0 exactly when PHASE is Idle; while BUSY a presented word is neither accepted nor lost and a command
has no effect; a word is taken only when BUSY is 0. That presented words wait in a queue is log 2, that `exec` of a
command while BUSY answers the state unchanged is log 24. -/
def Obligations.BusyHoldsThePresentedWord : Prop :=
  (∀ s : State, s.busy = false ↔ s.phase = .idle) ∧
  (∀ s t : State, s.busy = true → step s = .next t → t.inbox = s.inbox) ∧
  (∀ (s : State) (i : Instr), isCommand i = true → s.busy = true → exec i s = .next s) ∧
  (∀ (s t : State) (w : BitVec 24) (rest : List Input),
    s.busy = false → s.inbox = .command w :: rest → step s = .next t → t.inbox = rest)

/-- R96, R101 (1), (2): a word that matches no row of R95 invalidates the Packet registers, writes BadCommand, and does
nothing else. `free` is the model's counter of free values (log 5). -/
def Obligations.IllegalWordIsReported : Prop :=
  ∀ (s : State) (w : BitVec 24) (rest : List Input), s.phase = .idle → s.inbox = .command w :: rest →
    (∀ row ∈ commandRows, w.toNat &&& row.mask ≠ row.pattern) →
      ∃ p k, step s = .next { s with inbox := rest, status := .badCommand, packet := p, free := k } ∧ p.valid = false

/-- R103: while not configured SETMODE, SEND and POLL are refused with BadCommand and cause no bus frame. -/
def Obligations.UnconfiguredCommandsAreRefused : Prop :=
  ∀ (s : State) (i : Instr), s.phase = .idle → s.configured = false →
    ((∃ m, i = .setmode m) ∨ (∃ n, i = .send n) ∨ (∃ t, i = .poll t)) →
      ∃ p k, exec i s = .next { s with status := .badCommand, packet := p, free := k } ∧ p.valid = false

/-- R104, R201, R219: from every state that meets the invariant a command runs to Idle and reports one of its own
codes, whatever the Radio does and whatever frames fail; the one form left out is WRREG to an address outside the map
with a chip attached, which is refused (U5): `MeaninglessWriteFramesAreRefused` states that of WRREG. -/
def Obligations.EveryCommandEndsWithItsOwnCode : Prop :=
  ∀ (s : State) (i : Instr), s.Inv → s.phase = .idle → s.hostQuiet → isCommand i = true →
    (∀ a v, i = .wrreg a v → s.cfg.chipPresent = true → s.cfg.map.lookup a ≠ none) →
      ∃ t, exec i s = .next t ∧ t.phase = .idle ∧ t.status ∈ resultCodes i

/-- What no command changes, and which commands may change RDATA, FRF, MODE, CONFIGURED and RESET_N: a frame for all
seven, on every path (10_state.md R21). -/
def Obligations.CommandsKeepWhatTheyDoNotName : Prop :=
  ∀ (s t : State) (i : Instr), isCommand i = true → exec i s = .next t →
    KeepsOperands s t ∧
    ((∀ a, i ≠ .rdreg a) → t.rdata = s.rdata) ∧
    (i ≠ .synth → i ≠ .configure → t.frf = s.frf) ∧
    ((∃ a, i = .rdreg a) ∨ (∃ a v, i = .wrreg a v) ∨ i = .synth → t.mode = s.mode) ∧
    (i ≠ .configure → s.configured = false → t.configured = false) ∧
    (i ≠ .configure → t.resetN = s.resetN) ∧
    ((∀ a, i ≠ .poll a) → s.phase = .idle → t.packet.valid = false)

/-- R23: the RadioConfig registers are sampled once, in CONFIGURE's validation step: every micro-step but that one and
SYNTH's evaluation, and every instruction but CONFIGURE and SYNTH, does the same whatever they hold, and leaves them as
they are. -/
def Obligations.OnlyValidationAndSynthReadTheRadioConfig : Prop :=
  (∀ (s : State) (rc : RadioConfig), s.phase ≠ .synthEval → s.phase ≠ .cfgValidate →
    microStep { s with radio := rc } =
      match microStep s with
      | .next t => .next { t with radio := rc }
      | .fault e => .fault e
      | .refused e => .refused e) ∧
  ∀ (s : State) (rc : RadioConfig) (i : Instr), i ≠ .synth → i ≠ .configure →
    exec i { s with radio := rc } =
      match exec i s with
      | .next t => .next { t with radio := rc }
      | .fault e => .fault e
      | .refused e => .refused e

/-! ## RDREG and WRREG -/

/-- R112: RDREG of a register of the map completes with the register's byte; a read of A_FIFO moves the pointer and no
other read changes the chip. With no chip attached RDREG completes at every address, with CHIP_VERSION at A_VERSION and
any byte elsewhere (log 12). -/
def Obligations.RdregReturnsTheRegister : Prop :=
  (∀ (s : State) (r : Reg), s.cfg.wf = true → s.cfg.chipPresent = true → s.phase = .idle → s.hostQuiet → s.busSound →
    ∃ t, exec (.rdreg (s.cfg.map.addr r)) s = .next t ∧
      t.rdata = (radioSteps s.nextDraw.events s).chip.value s.cfg r ∧ t.status = .ok ∧ t.phase = .idle ∧
      t.busLog = s.busLog ++ [didRead s.cfg r t.rdata] ∧ t.packet.valid = false ∧ KeepsOperands s t ∧
      t.frf = s.frf ∧ t.mode = s.mode ∧ t.configured = s.configured ∧ t.resetN = s.resetN ∧ t.csN = true ∧
      (s.airQuiet → t.txLog = s.txLog ∧
        t.chip = if r = .fifo then { s.chip with fifoAddrPtr := s.chip.fifoAddrPtr + 1#8 } else s.chip)) ∧
  ∀ (s : State) (a : RegAddr), s.cfg.chipPresent = false → s.phase = .idle → s.hostQuiet → s.busSound →
    ∃ t, exec (.rdreg a) s = .next t ∧ t.status = .ok ∧ t.phase = .idle ∧
      (s.cfg.map.lookup a = some .version → t.rdata = s.cfg.chipVersion) ∧
      t.busLog = s.busLog ++ [⟨false, a, t.rdata⟩] ∧ t.packet.valid = false ∧ KeepsOperands s t ∧
      t.frf = s.frf ∧ t.mode = s.mode ∧ t.configured = s.configured ∧ t.resetN = s.resetN ∧ t.csN = true ∧
      t.txLog = s.txLog ∧ t.chip = s.chip

/-- R50, U5: RDREG of an address outside the map completes; the byte is any value, recorded in BUSLOG, and the chip
does not change. -/
def Obligations.RdregOutsideTheMapCompletes : Prop :=
  ∀ (s : State) (a : RegAddr), s.cfg.map.lookup a = none → s.phase = .idle → s.hostQuiet → s.busSound →
    ∃ t, exec (.rdreg a) s = .next t ∧ t.status = .ok ∧ t.phase = .idle ∧
      t.busLog = s.busLog ++ [⟨false, a, t.rdata⟩] ∧ t.packet.valid = false ∧ KeepsOperands s t ∧
      t.frf = s.frf ∧ t.mode = s.mode ∧ t.configured = s.configured ∧
      (s.airQuiet → t.txLog = s.txLog ∧ t.chip = s.chip)

/-- R113: WRREG of a register of the map that passes the guards completes and the chip does what R62 says for that
register: FIFO, write-1-to-clear, nothing for the read-only five, a store for the rest. With no chip attached it completes
at every address the guards pass and changes no chip (log 12). -/
def Obligations.WrregWritesTheRegister : Prop :=
  (∀ (s : State) (r : Reg) (v : Byte), s.cfg.wf = true → s.cfg.chipPresent = true → s.phase = .idle → s.hostQuiet →
    s.busSound → r ≠ .opMode →
    (r.isCfg = true → s.configured = true ∧ s.mode = .sleep ∧ s.chip.mode = .sleep) →
      ∃ t, exec (.wrreg (s.cfg.map.addr r) v) s = .next t ∧ t.status = .ok ∧ t.phase = .idle ∧
        t.busLog = s.busLog ++ [wrote s.cfg r v] ∧ t.packet.valid = false ∧ KeepsOperands s t ∧
        t.rdata = s.rdata ∧ t.frf = s.frf ∧ t.mode = s.mode ∧ t.configured = s.configured ∧ t.resetN = s.resetN ∧
        t.csN = true ∧
        (s.airQuiet → t.txLog = s.txLog ∧ t.chip.mode = s.chip.mode ∧ t.chip.rxwp = s.chip.rxwp ∧
          t.chip.txPending = s.chip.txPending ∧
          (∀ r', r' ≠ r → r' ≠ .fifo → r' ≠ .fifoAddrPtr → t.chip.value s.cfg r' = s.chip.value s.cfg r') ∧
          (r = .fifo →
            t.chip.fifo.read s.chip.fifoAddrPtr.toNat = v ∧ t.chip.fifoAddrPtr = s.chip.fifoAddrPtr + 1#8 ∧
              ∀ a, a ≠ s.chip.fifoAddrPtr.toNat → t.chip.fifo.read a = s.chip.fifo.read a) ∧
          (r ≠ .fifo → t.chip.fifo = s.chip.fifo) ∧
          (r ≠ .fifo → r ≠ .fifoAddrPtr → t.chip.fifoAddrPtr = s.chip.fifoAddrPtr) ∧
          (r = .irqFlags → t.chip.irqFlags = s.chip.irqFlags &&& ~~~v) ∧
          (r.isReadOnly = true → t.chip = s.chip) ∧
          (r ≠ .fifo → r ≠ .irqFlags → r.isReadOnly = false → t.chip.value s.cfg r = v))) ∧
  ∀ (s : State) (a : RegAddr) (v : Byte), s.cfg.chipPresent = false → s.phase = .idle → s.hostQuiet → s.busSound →
    a ≠ s.cfg.map.addr .opMode →
    (∀ r : Reg, r.isCfg = true → s.cfg.map.lookup a = some r → s.configured = true ∧ s.mode = .sleep) →
      ∃ t, exec (.wrreg a v) s = .next t ∧ t.status = .ok ∧ t.phase = .idle ∧
        t.busLog = s.busLog ++ [⟨true, a, v⟩] ∧ t.packet.valid = false ∧ KeepsOperands s t ∧
        t.rdata = s.rdata ∧ t.frf = s.frf ∧ t.mode = s.mode ∧ t.configured = s.configured ∧ t.resetN = s.resetN ∧
        t.csN = true ∧ t.txLog = s.txLog ∧ t.chip = s.chip

/-- R114, R115, R217: WRREG to a register of CFG_REGS without CONFIGURED = 1 and MODE = Sleep ends with ConfigError, WRREG
to A_OPMODE with BadCommand; no frame is sent and nothing but STATUS and the Packet registers changes. -/
def Obligations.WrregGuardsRefuse : Prop :=
  ∀ (s : State) (r : Reg) (v : Byte) (code : ResultCode), s.cfg.wf = true → s.phase = .idle → s.hostQuiet →
    (r = .opMode ∧ code = .badCommand ∨
      r.isCfg = true ∧ ¬ (s.configured = true ∧ s.mode = .sleep) ∧ code = .configError) →
      ∃ t, exec (.wrreg (s.cfg.map.addr r) v) s = .next t ∧ t.status = code ∧ t.phase = .idle ∧
        t.busLog = s.busLog ∧ t.packet.valid = false ∧ KeepsOperands s t ∧ t.rdata = s.rdata ∧ t.frf = s.frf ∧
        t.mode = s.mode ∧ t.configured = s.configured ∧ t.csN = s.csN ∧ t.resetN = s.resetN ∧
        t.chip = (radioSteps s.nextDraw.events s).chip

/-! ## SYNTH and the synthesizer -/

/-- R123, R122: SYNTH completes with the coefficient of R120 in FRF where it has one, and ends with ConfigError and FRF
unchanged where it has none; it sends no frame, touches no line, and changes neither MODE nor CONFIGURED. -/
def Obligations.SynthWritesTheCoefficient : Prop :=
  ∀ (s : State), s.phase = .idle → s.hostQuiet →
    ∃ t, exec .synth s = .next t ∧ t.phase = .idle ∧ t.busLog = s.busLog ∧ t.packet.valid = false ∧
      KeepsOperands s t ∧ t.rdata = s.rdata ∧ t.mode = s.mode ∧ t.configured = s.configured ∧ t.csN = s.csN ∧
      t.resetN = s.resetN ∧ (s.airQuiet → t.chip = s.chip ∧ t.txLog = s.txLog) ∧
      (∀ n : BitVec 24, 0 < s.cfg.xtalHz →
        (2 * s.radio.freq.toNat * 2 ^ s.cfg.resBits + s.cfg.xtalHz) / (2 * s.cfg.xtalHz) = n.toNat →
          t.frf = n ∧ t.status = .ok) ∧
      (s.cfg.xtalHz = 0 ∨
        2 ^ 24 ≤ (2 * s.radio.freq.toNat * 2 ^ s.cfg.resBits + s.cfg.xtalHz) / (2 * s.cfg.xtalHz) →
          t.frf = s.frf ∧ t.status = .configError)

/-- R122: the synthesizer has a value exactly when the crystal is not 0 and the coefficient fits 24 bits; at the
reference parameters that is up to 1 023 999 969 Hz, where the coefficient is all ones, and the step is exact. R124: a tie
goes up, and at the reference parameters no integer frequency is a tie. -/
def Obligations.SynthesizerDomainAndTies : Prop :=
  (∀ f c r : Nat, (synthesize? f c r).isSome = true ↔ 0 < c ∧ (2 * f * 2 ^ r + c) / (2 * c) < 2 ^ 24) ∧
  (∀ f : Nat, (synthesize? f 32000000 19).isSome = true ↔ f ≤ 1023999969) ∧
  synthesize? 1023999969 32000000 19 = some 0xFFFFFF#24 ∧
  (2 * 1023999970 * 2 ^ 19 + 32000000) / (2 * 32000000) = 0x1000000 ∧
  (32000000 : Rat) / 2 ^ 19 = 6103515625 / 100000000 ∧
  (∀ f c r k : Nat, 0 < c → 2 * f * 2 ^ r = (2 * k + 1) * c → frfNat f c r = k + 1) ∧
  (∀ f k : Nat, 2 * f * 2 ^ 19 ≠ (2 * k + 1) * 32000000)

/-- R125: the recomputed carrier is within half a step of the input, the coefficient is monotone in the frequency, and
recomputing from the carrier rounded to the nearest hertz gives the coefficient back when the step exceeds 1 Hz. -/
def Obligations.SynthesizerRoundTrip : Prop :=
  (∀ f c r : Nat, 0 < c →
    |((frfNat f c r : Rat) * (c : Rat) / 2 ^ r) - (f : Rat)| ≤ (c : Rat) / 2 ^ (r + 1)) ∧
  (∀ f g c r : Nat, f ≤ g → frfNat f c r ≤ frfNat g c r) ∧
  (∀ f g c r : Nat, 2 ^ r < c →
    |(g : Rat) - (frfNat f c r : Rat) * (c : Rat) / 2 ^ r| ≤ 1 / 2 → frfNat g c r = frfNat f c r)

/-- R121: the three frequency bytes are the big-endian 24-bit coefficient, and CONFIGURE writes them first of its
configuration writes, most significant first, to three consecutive registers. -/
def Obligations.FrequencyBytesAreBigEndian : Prop :=
  (∀ n : BitVec 24,
    frfHigh n = n.extractLsb' 16 8 ∧ frfMidByte n = n.extractLsb' 8 8 ∧ frfLow n = n.extractLsb' 0 8 ∧
    n.toNat = (frfHigh n).toNat * 65536 + (frfMidByte n).toNat * 256 + (frfLow n).toNat) ∧
  (∀ (c : Cfg) (rc : RadioConfig) (n : BitVec 24) (code : BitVec 4),
    (configWrites c rc n code).take 3 = [(.frfMsb, frfHigh n), (.frfMid, frfMidByte n), (.frfLsb, frfLow n)]) ∧
  ∀ m : RegMap, m.wf = true →
    (m.addr .frfMid).toNat = (m.addr .frfMsb).toNat + 1 ∧ (m.addr .frfLsb).toNat = (m.addr .frfMsb).toNat + 2

/-- R46: the two modem-config bytes hold their fields without overlap, for every validated field (that packing is from
general knowledge by the spec's own mark, log 14). -/
def Obligations.ModemConfigBytesHoldTheirFields : Prop :=
  ∀ (code cr sf : BitVec 4) (crc : Bool), 5 ≤ cr.toNat → cr.toNat ≤ 8 →
    (modemConfig1Byte code cr).extractLsb' 4 4 = code ∧
    ((modemConfig1Byte code cr).extractLsb' 1 3).toNat = cr.toNat - 4 ∧
    (modemConfig1Byte code cr).getLsbD 0 = false ∧
    (modemConfig2Byte sf crc).extractLsb' 4 4 = sf ∧ (modemConfig2Byte sf crc).getLsbD 3 = false ∧
    (modemConfig2Byte sf crc).getLsbD 2 = crc ∧ (modemConfig2Byte sf crc).extractLsb' 0 2 = 0#2

/-- R174, R175: RSSI is the unsigned byte less 157, with no wrap; SNR is the byte read as signed, a quarter dB each. -/
def Obligations.SignalConversionsAreExact : Prop :=
  ∀ b : Byte,
    (rssiDbmOf b).toInt = (b.toNat : Int) - 157 ∧
    (snrQOf b).toInt = (if b.toNat ≤ 127 then (b.toNat : Int) else (b.toNat : Int) - 256) ∧
    snrDb (snrQOf b) = ((snrQOf b).toInt : Rat) / 4

/-! ## CONFIGURE -/

/-- R130, R131, R135: a CONFIGURE of a valid RadioConfig whose frames complete, with a chip that answers the expected
version, completes configured in Standby, with the fifteen frames sent in order and the chip's registers holding what
was written. -/
def Obligations.ConfigureCompletes : Prop :=
  ∀ (s : State) (n : BitVec 24) (code : BitVec 4), s.cfg.wf = true → s.cfg.chipPresent = true → s.phase = .idle →
    s.hostQuiet → s.busSound → ValidConfig s.cfg s.radio n code → s.cfg.chipVersion = s.cfg.versionExpected →
      ∃ t, exec .configure s = .next t ∧ t.status = .ok ∧ t.configured = true ∧ t.mode = .standby ∧ t.frf = n ∧
        t.phase = .idle ∧
        t.busLog = s.busLog ++ configureFrames s.cfg s.radio n code s.cfg.versionExpected ∧
        t.packet.valid = false ∧ KeepsOperands s t ∧ t.rdata = s.rdata ∧ t.csN = true ∧ t.resetN = true ∧
        t.chip.mode = .standby ∧ t.chip.opModeByte s.cfg = modeByte s.cfg .standby ∧
        t.chip.frfMsb = n.extractLsb' 16 8 ∧ t.chip.frfMid = n.extractLsb' 8 8 ∧ t.chip.frfLsb = n.extractLsb' 0 8 ∧
        t.chip.paConfig = paEncode s.cfg s.radio.txPower ∧ t.chip.lna = s.cfg.lnaCfg ∧
        t.chip.modemConfig1 = modemConfig1Byte code s.radio.cr ∧
        t.chip.modemConfig2 = modemConfig2Byte s.radio.sf s.radio.crcEn ∧
        t.chip.symbTimeout = s.cfg.symbTimeoutCfg ∧ t.chip.preambleMsb = s.radio.preamble.extractLsb' 8 8 ∧
        t.chip.preambleLsb = s.radio.preamble.extractLsb' 0 8 ∧ t.chip.fifoTxBase = s.cfg.txBase ∧
        t.chip.fifoRxBase = s.cfg.rxBase ∧ t.chip.txPending = false

/-- R131, R140, R216: an invalid RadioConfig ends CONFIGURE at micro-step 0 with ConfigError: no line moves, no frame is
sent, the chip, MODE and FRF keep their values, CONFIGURED is 0. -/
def Obligations.InvalidRadioConfigIsRejected : Prop :=
  ∀ (s : State), s.phase = .idle → s.hostQuiet → (∀ n code, ¬ ValidConfig s.cfg s.radio n code) →
    ∃ t, exec .configure s = .next t ∧ t.status = .configError ∧ t.configured = false ∧ t.phase = .idle ∧
      t.busLog = s.busLog ∧ t.mode = s.mode ∧ t.frf = s.frf ∧ t.rdata = s.rdata ∧ t.packet.valid = false ∧
      KeepsOperands s t ∧ t.resetN = s.resetN ∧ t.chip = (radioSteps s.nextDraw.events s).chip

/-- R135, R140, R132: a version byte that is not the expected one ends CONFIGURE with Disconnected after every write has
been sent, in Standby, not configured; so does a bus with no chip attached (`Cfg.wf` holds R49's "some other byte"). -/
def Obligations.WrongVersionIsDisconnected : Prop :=
  ∀ (s : State) (n : BitVec 24) (code : BitVec 4), s.cfg.wf = true → s.phase = .idle → s.hostQuiet → s.busSound →
    ValidConfig s.cfg s.radio n code →
    (s.cfg.chipPresent = false ∨ s.cfg.chipVersion ≠ s.cfg.versionExpected) →
      ∃ t, exec .configure s = .next t ∧ t.status = .disconnected ∧ t.configured = false ∧ t.mode = .standby ∧
        t.frf = n ∧ t.phase = .idle ∧ t.packet.valid = false ∧ t.csN = true ∧ t.resetN = true ∧ KeepsOperands s t ∧
        t.busLog = s.busLog ++ configureFrames s.cfg s.radio n code s.cfg.chipVersion ∧
        (s.cfg.chipPresent = true → t.chip.mode = .standby) ∧
        (s.cfg.chipPresent = false → t.chip = s.chip ∧ t.txLog = s.txLog)

/-- R54 (a), R132, R241: the micro-step that asserts RESET_N puts the chip into Sleep with no IRQ flag set and nothing
pending, records Sleep, and touches no other register of the core, no TXBUF byte and no history (the flags and TXPENDING
are 0 by the spec's own decisions D21 and D25). The next three micro-steps change only PHASE and, in the second, RESET_N,
and no Radio event happens up to the first frame: the chip stays in its reset state until then (log 20, log 28). -/
def Obligations.ResetPulseResetsTheChip : Prop :=
  (∀ (s : State) (ws : List (Reg × Byte)), s.phase = .cfgResetLow ws → s.nextDraw.hostWrites = [] →
    ∃ t, microStep s = .next t ∧ t.resetN = false ∧ t.mode = .sleep ∧ t.phase = .cfgDelayLow ws ∧
      (s.cfg.chipPresent = true → t.chip.mode = .sleep ∧ t.chip.irqFlags = 0x00#8 ∧ t.chip.txPending = false) ∧
      (s.cfg.chipPresent = false → t.chip = s.chip) ∧
      KeepsOperands s t ∧ t.status = s.status ∧ t.rdata = s.rdata ∧ t.frf = s.frf ∧ t.packet = s.packet ∧
      t.configured = s.configured ∧ t.csN = s.csN ∧ t.busLog = s.busLog ∧
      t.txLog = (radioSteps s.nextDraw.events s).txLog) ∧
  (∀ (s : State) (ws : List (Reg × Byte)), s.nextDraw.hostWrites = [] →
    (s.phase = .cfgDelayLow ws → microStep s = .next { s with env := s.env.tail, phase := .cfgResetHigh ws }) ∧
    (s.phase = .cfgResetHigh ws →
      microStep s = .next { s with env := s.env.tail, phase := .cfgDelayHigh ws, resetN := true }) ∧
    (s.phase = .cfgDelayHigh ws → microStep s = .next { s with env := s.env.tail, phase := .cfgSleep ws })) ∧
  ∀ (s : State) (ws : List (Reg × Byte)) (es : List RadioEvent),
    s.phase = .cfgDelayLow ws ∨ s.phase = .cfgResetHigh ws ∨ s.phase = .cfgDelayHigh ws ∨ s.phase = .cfgSleep ws →
      radioSteps es s = s

/-! ## SetMode and SETMODE -/

/-- R136: SetMode's first micro-step sends one frame of the mode byte, after which the chip's mode and the record are
both the target, in the same micro-step; if the frame fails the record keeps its value and BusError is raised; its
second micro-step changes only PHASE. -/
def Obligations.SetModeMovesBothCopies : Prop :=
  (∀ (s : State) (d : Draw) (m : Mode) (ph : Phase), s.cfg.wf = true → s.modesAgree → d.fate = .completes →
    ∃ t, setModeFrame d m ph s = .next t ∧ t.mode = m ∧ (s.cfg.chipPresent = true → t.chip.mode = m) ∧ t.modesAgree ∧
      t.phase = ph ∧ t.busLog = s.busLog ++ [wrote s.cfg .opMode (modeByte s.cfg m)]) ∧
  (∀ (s t : State) (d : Draw) (m : Mode) (ph : Phase), d.fate ≠ .completes → setModeFrame d m ph s = .next t →
    t.mode = s.mode ∧ t.status = .busError ∧ t.phase = .idle ∧ t.busLog = s.busLog) ∧
  (∀ (s : State) (ph : Phase), settle ph s = .next { s with phase := ph })

/-- R138, R137: SETMODE completes from every mode, equal ones included, with one frame; MODE and the chip's mode are
the target; the chip's other effects are those of R139. -/
def Obligations.SetmodeCompletes : Prop :=
  ∀ (s : State) (m : Mode), s.Ready → s.hostQuiet → s.busSound →
    ∃ t, exec (.setmode m) s = .next t ∧ t.status = .ok ∧ t.mode = m ∧ t.phase = .idle ∧ t.configured = true ∧
      t.modesAgree ∧ t.busLog = s.busLog ++ [wrote s.cfg .opMode (modeByte s.cfg m)] ∧ t.packet.valid = false ∧
      KeepsOperands s t ∧ t.rdata = s.rdata ∧ t.frf = s.frf ∧ t.csN = true ∧ t.resetN = true ∧
      (s.cfg.chipPresent = true → s.airQuiet → t.txLog = s.txLog ∧
        t.chip.opModeByte s.cfg = modeByte s.cfg m ∧ t.chip.txPending = decide (m = .tx) ∧
        t.chip.rxwp = (if m = .rxContinuous then s.chip.fifoRxBase else s.chip.rxwp) ∧
        (m ≠ .sleep → t.chip.fifo = s.chip.fifo) ∧
        ∀ r, r ≠ .opMode → r ≠ .fifo → t.chip.value s.cfg r = s.chip.value s.cfg r)

/-! ## SEND -/

/-- R158 (a), R157, R201: after any SEND whose frames complete, success or TxTimeout, the mode is Standby on both sides;
nothing but the named registers changed; with no Radio event inside it the chip holds the payload from the TX base on,
modulo 256, and no other FIFO byte and no other register of the chip changed (R152). -/
def Obligations.SendEndsInStandby : Prop :=
  ∀ (s : State) (n : Byte), s.Ready → s.hostQuiet → s.busSound →
    ∃ t, exec (.send n) s = .next t ∧ t.mode = .standby ∧ t.modesAgree ∧ (t.status = .ok ∨ t.status = .txTimeout) ∧
      t.phase = .idle ∧ t.configured = true ∧ t.packet.valid = false ∧ KeepsOperands s t ∧ t.rdata = s.rdata ∧
      t.frf = s.frf ∧ t.csN = true ∧ t.resetN = true ∧
      (s.cfg.chipPresent = true → t.chip.txPending = false ∧
        (s.airQuiet → t.txLog = s.txLog ∧ t.chip.fifoAddrPtr = s.cfg.txBase + n ∧ t.chip.payloadLength = n ∧
          t.chip.dioMapping = s.cfg.mapTxDone ∧ t.chip.rxwp = s.chip.rxwp ∧
          (∀ i < n.toNat, t.chip.fifo.read (s.cfg.txBase + BitVec.ofNat 8 i).toNat = s.txBuf.read i) ∧
          (∀ x : Byte, (∀ i < n.toNat, x ≠ s.cfg.txBase + BitVec.ofNat 8 i) →
            t.chip.fifo.read x.toNat = s.chip.fifo.read x.toNat) ∧
          ∀ r : Reg, r ∉ [.opMode, .fifo, .fifoAddrPtr, .payloadLength, .dioMapping, .irqFlags] →
            t.chip.value s.cfg r = s.chip.value s.cfg r))

/-- R150, R155, R156, R158 (c), (d): the frames of SEND, in order: the nine steps with the flags read and written back
unchanged, and Ok exactly when TxDone was among them; or, on a timeout, S1 to S6 and the return to Standby. -/
def Obligations.SendSendsItsFramesInOrder : Prop :=
  ∀ (s t : State) (n : Byte), s.Ready → s.hostQuiet → s.busSound → exec (.send n) s = .next t →
    (∃ v, t.busLog = s.busLog ++ sendFrames s n ++
        [didRead s.cfg .irqFlags v, wrote s.cfg .irqFlags v, wrote s.cfg .opMode (modeByte s.cfg .standby)] ∧
        t.status = if v.getLsbD s.cfg.irqBits.txDone then .ok else .txTimeout) ∨
    (t.busLog = s.busLog ++ sendFrames s n ++ [wrote s.cfg .opMode (modeByte s.cfg .standby)] ∧ t.status = .txTimeout)

/-- R158 (e), R152, R153, R161: a SEND that reports Ok has put exactly its payload on air, if TxDone was 0 when S1 ran
(nothing sets it from S1 to S5, so that is TxDone 0 when S5 runs), from every mode, and the chip's TX base is the one
CONFIGURE wrote. -/
def Obligations.SuccessfulSendPutsThePayloadOnAir : Prop :=
  ∀ (s t : State) (n : Byte), s.Ready → s.hostQuiet → s.busSound → s.cfg.chipPresent = true →
    (radioSteps s.nextDraw.events s).chip.irqFlags.getLsbD s.cfg.irqBits.txDone = false →
    s.chip.fifoTxBase = s.cfg.txBase → exec (.send n) s = .next t → t.status = .ok →
      t.txLog = s.txLog ++ [payload s n]

/-! ## POLL -/

/-- R178 (a), R176, R177: after any POLL whose frames complete the mode is RxContinuous on both sides; PKT_VALID is 1
exactly with Ok; with no Radio event inside it no FIFO byte and no register of the chip changed but the pointer, the
mapping, the flags and the mode register. -/
def Obligations.PollEndsInRxContinuous : Prop :=
  ∀ (s : State) (ms : BitVec 16), s.Ready → s.hostQuiet → s.busSound →
    ∃ t, exec (.poll ms) s = .next t ∧ t.mode = .rxContinuous ∧ t.modesAgree ∧
      ((t.status = .ok ∧ t.packet.valid = true) ∨
        ((t.status = .rxTimeout ∨ t.status = .crcError) ∧ t.packet.valid = false)) ∧
      t.phase = .idle ∧ t.configured = true ∧ KeepsOperands s t ∧ t.rdata = s.rdata ∧ t.frf = s.frf ∧ t.csN = true ∧
      t.resetN = true ∧
      (s.cfg.chipPresent = true → s.airQuiet → t.txLog = s.txLog ∧ t.chip.fifo = s.chip.fifo ∧
        t.chip.dioMapping = s.cfg.mapRxDone ∧
        ∀ r : Reg, r ∉ [.opMode, .fifo, .fifoAddrPtr, .dioMapping, .irqFlags] →
          t.chip.value s.cfg r = s.chip.value s.cfg r)

/-- R180: the CRC validator's decision is the table's function of the byte read in P3, and P4 goes there. -/
def Obligations.CrcValidatorDecides : Prop :=
  ∀ (s : State) (v : Byte), s.phase = .pollTest v → s.nextDraw.hostWrites = [] →
    ∃ t, microStep s = .next t ∧ t.phase =
      (if v.getLsbD s.cfg.irqBits.payloadCrcError then .pollRearm .crcError
       else if v.getLsbD s.cfg.irqBits.rxDone then .pollReadCurrent
       else .pollEnd .rxTimeout) ∧ t.busLog = s.busLog ∧ t.packet = s.packet

/-- R172 to R176, R178 (d): a POLL that finds a clean packet waiting, with no Radio event inside it, hands it over: the
bytes from the current-RX address on, the count, RSSI less 157 and SNR as a signed byte, with the frames of P3, P5 and P6
in order. -/
def Obligations.PollHandsOverTheWaitingPacket : Prop :=
  ∀ (s : State) (ms : BitVec 16), s.Ready → s.hostQuiet → s.busSound → s.airQuiet → s.cfg.chipPresent = true →
    s.cfg.waitStrict = true → s.mode = .rxContinuous → s.chip.irqFlags.getLsbD s.cfg.irqBits.rxDone = true →
    s.chip.irqFlags.getLsbD s.cfg.irqBits.payloadCrcError = false →
      ∃ t, exec (.poll ms) s = .next t ∧ t.status = .ok ∧ t.packet.valid = true ∧
        t.packet.rxLen = s.chip.rxNbBytes ∧
        t.packet.rssiDbm.toInt = (s.chip.pktRssi.toNat : Int) - 157 ∧ t.packet.snrQ.toInt = s.chip.pktSnr.toInt ∧
        (∀ i < s.chip.rxNbBytes.toNat, t.packet.rxBuf.read i =
          s.chip.fifo.read (s.chip.fifoRxCurrent + BitVec.ofNat 8 i).toNat) ∧
        t.chip.irqFlags = 0x00#8 ∧ t.chip.fifo = s.chip.fifo ∧ t.chip.rxwp = s.chip.rxwp ∧
        t.chip.fifoAddrPtr = s.chip.fifoRxCurrent + s.chip.rxNbBytes ∧ t.mode = .rxContinuous ∧
        t.busLog = s.busLog ++
          [wrote s.cfg .dioMapping s.cfg.mapRxDone, didRead s.cfg .irqFlags s.chip.irqFlags,
           wrote s.cfg .irqFlags s.chip.irqFlags, didRead s.cfg .fifoRxCurrent s.chip.fifoRxCurrent,
           wrote s.cfg .fifoAddrPtr s.chip.fifoRxCurrent, didRead s.cfg .rxNbBytes s.chip.rxNbBytes] ++
          (List.range s.chip.rxNbBytes.toNat).map (fun i =>
            didRead s.cfg .fifo (s.chip.fifo.read (s.chip.fifoRxCurrent + BitVec.ofNat 8 i).toNat)) ++
          [didRead s.cfg .pktRssi s.chip.pktRssi, didRead s.cfg .pktSnr s.chip.pktSnr]

/-- R169, R170: a POLL that finds PayloadCrcError set reports CrcError and no Packet, reads no FIFO byte, and re-arms:
the next packet is stored from the RX base. -/
def Obligations.PollDiscardsABadPacket : Prop :=
  ∀ (s : State) (ms : BitVec 16), s.Ready → s.hostQuiet → s.busSound → s.airQuiet → s.cfg.chipPresent = true →
    s.cfg.waitStrict = true → s.mode = .rxContinuous → s.chip.irqFlags.getLsbD s.cfg.irqBits.rxDone = true →
    s.chip.irqFlags.getLsbD s.cfg.irqBits.payloadCrcError = true →
      ∃ t, exec (.poll ms) s = .next t ∧ t.status = .crcError ∧ t.packet.valid = false ∧ t.configured = true ∧
        t.mode = .rxContinuous ∧ t.chip.mode = .rxContinuous ∧ t.chip.rxwp = s.chip.fifoRxBase ∧
        t.chip.irqFlags = 0x00#8 ∧ t.chip.fifo = s.chip.fifo ∧ t.chip.fifoAddrPtr = s.chip.fifoAddrPtr ∧
        t.busLog = s.busLog ++
          [wrote s.cfg .dioMapping s.cfg.mapRxDone, didRead s.cfg .irqFlags s.chip.irqFlags,
           wrote s.cfg .irqFlags s.chip.irqFlags, wrote s.cfg .opMode (modeByte s.cfg .rxContinuous)]

/-- R166, R167, R170: a POLL with RxDone clear and no Radio event times out with the empty result; the mode write of P1
is sent exactly when the record is not RxContinuous, the re-arm exactly when RX_REARM_ON_TIMEOUT is true; the IRQ flags
are neither read nor cleared. -/
def Obligations.PollWithoutAPacketTimesOut : Prop :=
  ∀ (s : State) (ms : BitVec 16), s.Ready → s.hostQuiet → s.busSound → s.airQuiet → s.cfg.chipPresent = true →
    s.chip.irqFlags.getLsbD s.cfg.irqBits.rxDone = false →
      ∃ t, exec (.poll ms) s = .next t ∧ t.status = .rxTimeout ∧ t.packet.valid = false ∧ t.configured = true ∧
        t.mode = .rxContinuous ∧ t.chip.mode = .rxContinuous ∧ t.chip.irqFlags = s.chip.irqFlags ∧
        t.chip.rxwp = (if s.mode = .rxContinuous ∧ s.cfg.rxRearmOnTimeout = false then s.chip.rxwp
          else s.chip.fifoRxBase) ∧
        t.busLog = s.busLog ++ [wrote s.cfg .dioMapping s.cfg.mapRxDone] ++
          (if s.mode = .rxContinuous then [] else [wrote s.cfg .opMode (modeByte s.cfg .rxContinuous)]) ++
          (if s.cfg.rxRearmOnTimeout then [wrote s.cfg .opMode (modeByte s.cfg .rxContinuous)] else [])

/-! ## Bus frames at the chip -/

/-- R62: BUS.WRITE of a register of the map without a row of its own completes: the five read-only registers do not
change the chip, every other stores the byte; nothing else of the machine changes but BUSLOG. `free` is the model's
counter (log 5). With no chip attached every write row completes and changes nothing but BUSLOG and CS_N (log 12). -/
def Obligations.BusWriteStoresTheByte : Prop :=
  (∀ (s : State) (r : Reg) (d : Byte), s.cfg.wf = true → s.cfg.chipPresent = true → hasWriteRow r = false →
    (r.isCfg = true → s.chip.mode = .sleep) →
      ∃ c, exec (.busWrite (s.cfg.map.addr r) d) s =
          .next { s with chip := c, csN := true, busLog := s.busLog ++ [wrote s.cfg r d], free := s.free + 1 } ∧
        c.value s.cfg r = (if r.isReadOnly then s.chip.value s.cfg r else d) ∧
        (∀ r', r' ≠ r → c.value s.cfg r' = s.chip.value s.cfg r') ∧ c.fifo = s.chip.fifo ∧
        c.mode = s.chip.mode ∧ c.fifoAddrPtr = s.chip.fifoAddrPtr ∧ c.rxwp = s.chip.rxwp ∧
        c.txPending = s.chip.txPending) ∧
  ∀ (s : State) (d : Byte), s.cfg.chipPresent = false →
    (∀ a, exec (.busWrite a d) s = .next { s with csN := true, busLog := s.busLog ++ [⟨true, a, d⟩] }) ∧
    ∀ row ∈ [(Instr.busWriteFifo d, Reg.fifo), (.busWriteOpMode d, .opMode), (.busWriteFifoAddrPtr d, .fifoAddrPtr),
        (.busWriteIrqFlags d, .irqFlags), (.busWriteDioMapping d, .dioMapping)],
      exec row.1 s = .next { s with csN := true, busLog := s.busLog ++ [wrote s.cfg row.2 d] }

/-- R63, R50: BUS.READ of a register of the map without a row of its own completes, records the register's byte and
changes nothing else, whatever byte is sent in the second exchange; at an address outside the map it completes with
some value (any, U5), and so does every read row but that of A_VERSION with no chip attached (log 12). -/
def Obligations.BusReadReturnsTheByte : Prop :=
  (∀ (s : State) (r : Reg) (d : Byte), s.cfg.wf = true → s.cfg.chipPresent = true → hasReadRow r = false →
    exec (.busRead (s.cfg.map.addr r) d) s =
      .next { s with csN := true, busLog := s.busLog ++ [didRead s.cfg r (s.chip.value s.cfg r)] }) ∧
  (∀ (s : State) (a : RegAddr) (d : Byte), s.cfg.map.lookup a = none →
    ∃ v, exec (.busRead a d) s =
      .next { s with csN := true, busLog := s.busLog ++ [⟨false, a, v⟩], free := s.free + 1 }) ∧
  (∀ (s : State) (a : RegAddr) (d : Byte), s.cfg.chipPresent = false → s.cfg.map.lookup a ≠ some .version →
    ∃ v, exec (.busRead a d) s =
      .next { s with csN := true, busLog := s.busLog ++ [⟨false, a, v⟩], free := s.free + 1 }) ∧
  (∀ (s : State) (d : Byte), s.cfg.wf = true → s.cfg.chipPresent = false →
    ∃ v, exec (.busReadFifo d) s =
      .next { s with csN := true, busLog := s.busLog ++ [didRead s.cfg .fifo v], free := s.free + 1 })

/-- R39: a write of A_FIFO stores at the pointer and moves it, a read returns the byte at the pointer and moves it; the
pointer wraps from 255 to 0; no other byte and no other part of the chip changes. -/
def Obligations.FifoAccessMovesThePointer : Prop :=
  (∀ (s : State) (d : Byte), s.cfg.wf = true → s.cfg.chipPresent = true →
    ∃ fifo, exec (.busWriteFifo d) s =
        .next { s with chip := { s.chip with fifo := fifo, fifoAddrPtr := s.chip.fifoAddrPtr + 1#8 }, csN := true,
                       busLog := s.busLog ++ [wrote s.cfg .fifo d], free := s.free + 1 } ∧
      fifo.read s.chip.fifoAddrPtr.toNat = d ∧
      ∀ a, a ≠ s.chip.fifoAddrPtr.toNat → fifo.read a = s.chip.fifo.read a) ∧
  (∀ (s : State) (d : Byte), s.cfg.wf = true → s.cfg.chipPresent = true →
    exec (.busReadFifo d) s =
      .next { s with chip := { s.chip with fifoAddrPtr := s.chip.fifoAddrPtr + 1#8 }, csN := true,
                     busLog := s.busLog ++ [didRead s.cfg .fifo (s.chip.fifo.read s.chip.fifoAddrPtr.toNat)] }) ∧
  (255#8 + 1#8 = 0#8 ∧ ∀ p : Byte, (p + 1#8).toNat = (p.toNat + 1) % Config.fifoSize)

/-- R34, R139: a write of A_OPMODE with a legal mode field, long-range bit unchanged unless in Sleep, completes with
the effects of the transition table, also when the mode does not change; entering Sleep leaves the FIFO unspecified, no
other transition touches it. -/
def Obligations.ModeWriteHasItsEffects : Prop :=
  ∀ (s : State) (d : Byte) (m : Mode), s.cfg.wf = true → s.cfg.chipPresent = true →
    d.extractLsb' 0 3 = s.cfg.modeCodes.code m →
    (s.chip.mode = .sleep ∨ d.getLsbD s.cfg.loraBit = s.chip.lora s.cfg) →
      ∃ fifo, exec (.busWriteOpMode d) s =
          .next { s with
            chip := { s.chip with
              mode := m
              opHigh := d.extractLsb' 3 5
              fifo := fifo
              rxwp := if m = .rxContinuous then s.chip.fifoRxBase else s.chip.rxwp
              txPending := decide (m = .tx) }
            csN := true
            busLog := s.busLog ++ [wrote s.cfg .opMode d]
            free := s.free + 1 } ∧
        (m ≠ .sleep → fifo = s.chip.fifo) ∧
        ({ s.chip with mode := m, opHigh := d.extractLsb' 3 5 } : Chip).opModeByte s.cfg = d

/-- R40, R43, R48: a write of A_FIFO_ADDR_PTR sets the pointer, a write of A_IRQ_FLAGS clears exactly the flags whose
bits are 1, a write of A_DIO_MAPPING sets the mapping; each changes nothing else of the chip. -/
def Obligations.PointerFlagAndMappingWrites : Prop :=
  ∀ (s : State) (d : Byte), s.cfg.wf = true → s.cfg.chipPresent = true →
    exec (.busWriteFifoAddrPtr d) s =
      .next { s with chip := { s.chip with fifoAddrPtr := d }, csN := true,
                     busLog := s.busLog ++ [wrote s.cfg .fifoAddrPtr d], free := s.free + 1 } ∧
    exec (.busWriteIrqFlags d) s =
      .next { s with chip := { s.chip with irqFlags := s.chip.irqFlags &&& ~~~d }, csN := true,
                     busLog := s.busLog ++ [wrote s.cfg .irqFlags d], free := s.free + 1 } ∧
    exec (.busWriteDioMapping d) s =
      .next { s with chip := { s.chip with dioMapping := d }, csN := true,
                     busLog := s.busLog ++ [wrote s.cfg .dioMapping d], free := s.free + 1 }

/-- R49: a read of A_VERSION returns the constant CHIP_VERSION of whatever is attached and changes nothing but BUSLOG;
with no chip attached too. -/
def Obligations.VersionReadReturnsTheConstant : Prop :=
  ∀ (s : State) (d : Byte), s.cfg.wf = true →
    exec (.busReadVersion d) s =
      .next { s with csN := true, busLog := s.busLog ++ [didRead s.cfg .version s.cfg.chipVersion] }

/-- U1, U2, U3, U5: the four write frames the spec gives no meaning stop with their own refusal: a configuration write
outside Sleep, a reserved mode code, a change of the long-range bit outside Sleep, an address outside the map, the last
also as the frame of a WRREG (log 10, log 11). -/
def Obligations.MeaninglessWriteFramesAreRefused : Prop :=
  ∀ (s : State) (d : Byte), s.cfg.wf = true → s.cfg.chipPresent = true →
    (∀ r : Reg, r.isCfg = true → s.chip.mode ≠ .sleep →
      exec (.busWrite (s.cfg.map.addr r) d) s = .refused .cfgWriteOutsideSleep) ∧
    ((∀ m, d.extractLsb' 0 3 ≠ s.cfg.modeCodes.code m) →
      exec (.busWriteOpMode d) s = .refused .reservedModeCode) ∧
    (∀ m, d.extractLsb' 0 3 = s.cfg.modeCodes.code m → s.chip.mode ≠ .sleep →
      d.getLsbD s.cfg.loraBit ≠ s.chip.lora s.cfg →
        exec (.busWriteOpMode d) s = .refused .loraChangeOutsideSleep) ∧
    (∀ a, s.cfg.map.lookup a = none → exec (.busWrite a d) s = .refused .unmappedWrite) ∧
    (∀ a, s.cfg.map.lookup a = none → s.phase = .idle → s.hostQuiet → s.busSound →
      exec (.wrreg a d) s = .refused .unmappedWrite)

/-! ## The Radio, the interrupt line, the Host -/

/-- R186 (sent once per entry into Tx and recorded at completion by the spec's own decision D21): EV_TXDONE, when the
chip is in Tx with a transmission pending, appends the payload-length bytes from the TX base to TXLOG, sets TxDone,
clears TXPENDING. An event that is not enabled does nothing: the model's choice, on a guard that R190 calls a reading
(log 20). -/
def Obligations.TxDoneEvent : Prop :=
  ∀ s : State, s.cfg.chipPresent = true → s.resetN = true → s.phase.inReset = false →
    (s.chip.mode = .tx ∧ s.chip.txPending = true →
      ∃ flags, radioStep .txDone s =
          { s with
            txLog := s.txLog ++ [(List.range s.chip.payloadLength.toNat).map fun i =>
              s.chip.fifo.read (s.chip.fifoTxBase + BitVec.ofNat 8 i).toNat]
            chip := { s.chip with irqFlags := flags, txPending := false } } ∧
        ∀ b < 8, flags.getLsbD b = (decide (b = s.cfg.irqBits.txDone) || s.chip.irqFlags.getLsbD b)) ∧
    (¬ (s.chip.mode = .tx ∧ s.chip.txPending = true) → radioStep .txDone s = s)

/-- R187: EV_RXPACKET, when the chip is in RxContinuous, stores the bytes from RXWP on modulo 256, moves RXWP, writes the
four packet registers, sets RxDone and, for a bad packet, PayloadCrcError. An event that is not enabled does nothing:
the model's choice, on a guard that R190 calls a reading (log 20). -/
def Obligations.RxPacketEvent : Prop :=
  ∀ (s : State) (data : List Byte) (rssi snr : Byte) (bad : Bool), s.cfg.chipPresent = true → s.resetN = true →
    s.phase.inReset = false → data.length ≤ 255 →
    (s.chip.mode = .rxContinuous →
      ∃ fifo flags, radioStep (.rxPacket data rssi snr bad) s =
          { s with chip := { s.chip with
              fifoRxCurrent := s.chip.rxwp
              fifo := fifo
              rxwp := s.chip.rxwp + BitVec.ofNat 8 data.length
              rxNbBytes := BitVec.ofNat 8 data.length
              pktRssi := rssi
              pktSnr := snr
              irqFlags := flags } } ∧
        (∀ (i : Nat) (hi : i < data.length), fifo.read (s.chip.rxwp + BitVec.ofNat 8 i).toNat = data[i]) ∧
        (∀ x : Byte, (∀ i < data.length, x ≠ s.chip.rxwp + BitVec.ofNat 8 i) →
          fifo.read x.toNat = s.chip.fifo.read x.toNat) ∧
        ∀ b < 8, flags.getLsbD b =
          (decide (b = s.cfg.irqBits.rxDone) || (bad && decide (b = s.cfg.irqBits.payloadCrcError)) ||
            s.chip.irqFlags.getLsbD b)) ∧
    (s.chip.mode ≠ .rxContinuous → radioStep (.rxPacket data rssi snr bad) s = s)

/-- R188: EV_IRQ_OTHER sets unnamed flags, in every mode; a byte with a named bit is no such event and does nothing
(log 20). -/
def Obligations.OtherIrqEvent : Prop :=
  ∀ (s : State) (m : Byte), s.cfg.chipPresent = true → s.resetN = true → s.phase.inReset = false →
    (m.getLsbD s.cfg.irqBits.txDone = false → m.getLsbD s.cfg.irqBits.rxDone = false →
      m.getLsbD s.cfg.irqBits.payloadCrcError = false →
        radioStep (.irqOther m) s = { s with chip := { s.chip with irqFlags := s.chip.irqFlags ||| m } }) ∧
    (m.getLsbD s.cfg.irqBits.txDone = true ∨ m.getLsbD s.cfg.irqBits.rxDone = true ∨
      m.getLsbD s.cfg.irqBits.payloadCrcError = true → radioStep (.irqOther m) s = s)

/-- R185, R132: no Radio event changes the mode, the pointer, the mapping, the payload length, the bases, a configuration
register, any register of the core or a line; none happens while RESET_N is 0 or up to the first frame after the reset
pulse (that an event not enabled does nothing is log 20); the Radio never clears a flag; a micro-step clears one only if
it is a write frame to A_IRQ_FLAGS or the assertion of RESET_N, and of the frames only a write of the flags register
can. -/
def Obligations.RadioKeepsItsHandsOff : Prop :=
  (∀ (s : State) (e : RadioEvent),
    (∃ c log, radioStep e s = { s with chip := c, txLog := log } ∧ c.mode = s.chip.mode ∧ c.opHigh = s.chip.opHigh ∧
      c.fifoAddrPtr = s.chip.fifoAddrPtr ∧ c.dioMapping = s.chip.dioMapping ∧
      c.payloadLength = s.chip.payloadLength ∧ (∀ r : Reg, r.isCfg = true → c.value s.cfg r = s.chip.value s.cfg r) ∧
      ∀ b < 8, s.chip.irqFlags.getLsbD b = true → c.irqFlags.getLsbD b = true) ∧
    (s.resetN = false ∨ s.phase.inReset = true → radioStep e s = s)) ∧
  (∀ (s t : State) (b : Nat), s.cfg.wf = true → microStep s = .next t →
    (radioSteps s.nextDraw.events s).chip.irqFlags.getLsbD b = true → t.chip.irqFlags.getLsbD b = false →
      s.writesFlags = true ∨ s.phase.assertsReset = true) ∧
  (∀ (cfg : Cfg) (k : Nat) (r : Reg) (v : Byte) (c c' : Chip), r ≠ .irqFlags → c.write cfg k r v = .ok c' →
    c'.irqFlags = c.irqFlags) ∧
  ∀ (r : Reg) (c : Chip), (c.afterRead r).irqFlags = c.irqFlags

/-- R210: the level of DIO is the mapped flag (from general knowledge by the spec's own mark); under an unknown selector
it is a draw (both levels occur). -/
def Obligations.DioFollowsTheMappedFlag : Prop :=
  ∀ (d : Draw) (s : State), s.cfg.chipPresent = true →
    (s.chip.dioMapping.extractLsb' 6 2 = 0b00#2 → dioLevel d s = s.chip.irqFlags.getLsbD s.cfg.irqBits.rxDone) ∧
    (s.chip.dioMapping.extractLsb' 6 2 = 0b01#2 → dioLevel d s = s.chip.irqFlags.getLsbD s.cfg.irqBits.txDone) ∧
    (s.chip.dioMapping.extractLsb' 6 2 = 0b10#2 ∨ s.chip.dioMapping.extractLsb' 6 2 = 0b11#2 →
      dioLevel d s = d.dioSample)

/-- R212: `signalled` can be taken exactly when DIO is 1; `timeout` exactly when DIO is 0, and always if not
WAIT_STRICT; one of the two is always enabled; the window is timing. -/
def Obligations.WaitTakesAnEnabledOutcome : Prop :=
  ∀ (ms ms' : Nat) (d : Draw) (s : State),
    ((∃ b, waitSignalled ms { d with takeTimeout := b } s = true) ↔ dioLevel d s = true) ∧
    ((∃ b, waitSignalled ms { d with takeTimeout := b } s = false) ↔
      dioLevel d s = false ∨ s.cfg.waitStrict = false) ∧
    waitSignalled ms d s = waitSignalled ms' d s

/-- R21, R27, R258: a Host write attempted while a command runs is refused (U16); an idle one sets the named operand
register or TXBUF byte and nothing else; TXBUF has no index 255, where the model stops with its fault (log 18). -/
def Obligations.HostWritesOnlyWhileIdle : Prop :=
  (∀ s : State, s.busy = true → s.nextDraw.hostWrites ≠ [] → step s = .refused .hostWriteWhileBusy) ∧
  ∀ (s : State) (rest : List Input), s.phase = .idle →
    (∀ v, step { s with inbox := .hostWrite (.freq v) :: rest } =
      .next { s with inbox := rest, radio := { s.radio with freq := v } }) ∧
    (∀ v, step { s with inbox := .hostWrite (.sf v) :: rest } =
      .next { s with inbox := rest, radio := { s.radio with sf := v } }) ∧
    (∀ v, step { s with inbox := .hostWrite (.bw v) :: rest } =
      .next { s with inbox := rest, radio := { s.radio with bw := v } }) ∧
    (∀ v, step { s with inbox := .hostWrite (.cr v) :: rest } =
      .next { s with inbox := rest, radio := { s.radio with cr := v } }) ∧
    (∀ v, step { s with inbox := .hostWrite (.crcEn v) :: rest } =
      .next { s with inbox := rest, radio := { s.radio with crcEn := v } }) ∧
    (∀ v, step { s with inbox := .hostWrite (.preamble v) :: rest } =
      .next { s with inbox := rest, radio := { s.radio with preamble := v } }) ∧
    (∀ v, step { s with inbox := .hostWrite (.txPower v) :: rest } =
      .next { s with inbox := rest, radio := { s.radio with txPower := v } }) ∧
    (∀ (i v : Byte), i ≠ 255#8 →
      ∃ buf, step { s with inbox := .hostWrite (.txBuf i v) :: rest } = .next { s with inbox := rest, txBuf := buf } ∧
        buf.read i.toNat = v ∧ ∀ j, j ≠ i.toNat → buf.read j = s.txBuf.read j) ∧
    (∀ v, step { s with inbox := .hostWrite (.txBuf 255#8 v) :: rest } = .fault .noSuchTxBufIndex)

/-! ## Errors -/

/-- R64, R216, R110, R111: a frame that fails ends the command with BusError at once: not configured, no Packet, not in
BUSLOG, MODE as it was, chip-select released; the chip is as it was, or as the frame would have left it. -/
def Obligations.FailedFrameEndsTheCommand : Prop :=
  ∀ (s t : State), s.Inv → s.phase.sendsFrame = true → s.nextDraw.fate ≠ .completes → microStep s = .next t →
    t.phase = .idle ∧ t.status = .busError ∧ t.configured = false ∧ t.packet.valid = false ∧ t.busLog = s.busLog ∧
    t.mode = s.mode ∧ t.csN = true ∧ t.resetN = true ∧ KeepsOperands s t ∧ t.frf = s.frf ∧
    (s.nextDraw.fate = .failsUnseen → t.chip = (radioSteps s.nextDraw.events s).chip) ∧
    (s.nextDraw.fate = .failsTaken →
      ∀ u, microStep { s with env := { s.nextDraw with fate := .completes } :: s.env.tail } = .next u →
        t.chip = u.chip)

/-- R216, R26: a command that ends with BusError or Disconnected, and a CONFIGURE that ends with ConfigError, leaves the
core not configured and with no Packet. -/
def Obligations.FatalErrorsLeaveTheCoreUnconfigured : Prop :=
  ∀ (s t : State) (i : Instr), s.phase = .idle → isCommand i = true → exec i s = .next t →
    (t.status = .busError ∨ t.status = .disconnected ∨ (t.status = .configError ∧ i = .configure) →
      t.configured = false ∧ t.packet.valid = false ∧ t.phase = .idle) ∧
    (i = .configure → (t.configured = true ↔ t.status = .ok)) ∧
    (t.status = .txTimeout ∨ t.status = .rxTimeout ∨ t.status = .crcError → t.configured = true)

/-! ## The machine as a whole -/

/-- R55: what the spec states of the core right after power-on. -/
def Obligations.ResetLeavesTheStatedValues : Prop :=
  State.reset.phase = .idle ∧ State.reset.status.code = 0#3 ∧ State.reset.configured = false ∧
  State.reset.mode = .sleep ∧ State.reset.packet.valid = false ∧ State.reset.csN = true ∧
  State.reset.resetN = true ∧ State.reset.busLog = [] ∧ State.reset.txLog = []

/-- The state after reset meets the invariant. -/
def Obligations.ResetMeetsTheInvariant : Prop := State.reset.Inv

/-- From every state that meets the invariant, a step gives a state that meets it. -/
def Obligations.StepKeepsTheInvariant : Prop := ∀ s t : State, s.Inv → step s = .next t → t.Inv

/-- R25: whenever the Sequencer is idle and configured, MODE equals the chip's mode, after any step from a state that
meets the invariant. -/
def Obligations.ModeRecordEqualsTheChipsMode : Prop :=
  ∀ s t : State, s.Inv → step s = .next t → t.phase = .idle → t.configured = true → t.cfg.chipPresent = true →
    t.mode = t.chip.mode

/-- R251, R134, R114, R115: the guards make the chip's undefined cases unreachable: from a state that meets the
invariant the only refusals of a step are a Host write during a command and a WRREG outside the map, and the only fault
the Host write past TXBUF (that these stop, and no others, is the model's: log 10, log 17, log 18). -/
def Obligations.GuardsMakeTheUndefinedUnreachable : Prop :=
  ∀ s : State, s.Inv →
    (∀ r, step s = .refused r → r = .hostWriteWhileBusy ∨ r = .unmappedWrite) ∧
    (∀ f, step s = .fault f → ∃ v rest, s.inbox = .hostWrite (.txBuf 255#8 v) :: rest)

/-- R35, R137 (d), R185: the chip's mode changes only in a micro-step that writes the mode register or asserts RESET_N,
and MODE only there too; nothing changes them spontaneously. -/
def Obligations.ModeChangesOnlyByACommand : Prop :=
  ∀ s t : State, s.Inv → microStep s = .next t →
    (t.chip.mode ≠ s.chip.mode → s.phase.assertsReset = true ∨ s.phase.setsMode = some t.chip.mode) ∧
    (t.mode ≠ s.mode → s.phase.assertsReset = true ∨ s.phase.setsMode = some t.mode)

/-- R53: the two histories only grow. -/
def Obligations.HistoriesOnlyGrow : Prop :=
  ∀ s t : State, step s = .next t → s.busLog <+: t.busLog ∧ s.txLog <+: t.txLog
end

