-- ==== Sys2Proof/Laws/Bus.lean ====
section
/-! SUPPORT. The laws of the register map and of the bus: what each shared operation can do, said once. -/

namespace Sys2Proof

/-! ### The register map -/

theorem Reg.mem_all (r : Reg) : r ∈ Reg.all := by cases r <;> decide

theorem RegMap.nodup {m : RegMap} (h : m.wf = true) : (Reg.all.map m.addr).Nodup := by
  simp only [RegMap.wf, Bool.and_eq_true, decide_eq_true_eq] at h
  exact h.1.1.1

/-- Distinct registers have distinct addresses (10_state.md R33). -/
theorem RegMap.addr_inj {m : RegMap} (h : m.wf = true) {r r' : Reg} (heq : m.addr r = m.addr r') : r = r' :=
  List.inj_on_of_nodup_map (RegMap.nodup h) r.mem_all r'.mem_all heq

/-- The register found at an address is the one that lives there. -/
theorem RegMap.addr_of_lookup {m : RegMap} {a : RegAddr} {r : Reg} (h : m.lookup a = some r) : m.addr r = a := by
  simpa using List.find?_some h

/-- Every register is found at its own address (10_state.md R33). -/
theorem RegMap.lookup_addr {m : RegMap} (h : m.wf = true) (r : Reg) : m.lookup (m.addr r) = some r := by
  cases hl : m.lookup (m.addr r) with
  | none =>
    have := List.find?_eq_none.mp hl r r.mem_all
    simp at this
  | some r' => rw [RegMap.addr_inj h (RegMap.addr_of_lookup hl)]

/-- An address holds register `r` exactly when it is `r`'s address. -/
theorem RegMap.lookup_eq_some_iff {m : RegMap} (h : m.wf = true) (a : RegAddr) (r : Reg) :
    m.lookup a = some r ↔ a = m.addr r :=
  ⟨fun hl => (RegMap.addr_of_lookup hl).symm, fun ha => ha ▸ RegMap.lookup_addr h r⟩

theorem Cfg.wf_map {c : Cfg} (h : c.wf = true) : c.map.wf = true := by
  simp only [Cfg.wf, Bool.and_eq_true] at h
  exact h.1.1.1.1.1.1.1.1.1.1.1

theorem Cfg.wf_codes {c : Cfg} (h : c.wf = true) :
    [c.modeCodes.sleep, c.modeCodes.standby, c.modeCodes.tx, c.modeCodes.rxContinuous].Nodup := by
  simp only [Cfg.wf, Bool.and_eq_true, decide_eq_true_eq] at h
  exact h.1.1.1.1.1.1.1.1.1.1.2

theorem Cfg.wf_lora {c : Cfg} (h : c.wf = true) : 3 ≤ c.loraBit ∧ c.loraBit < 8 := by
  simp only [Cfg.wf, Bool.and_eq_true, decide_eq_true_eq] at h
  exact ⟨h.1.1.1.1.1.1.1.1.1.2, h.1.1.1.1.1.1.1.1.2⟩

theorem Cfg.wf_irq {c : Cfg} (h : c.wf = true) :
    [c.irqBits.txDone, c.irqBits.payloadCrcError, c.irqBits.rxDone].Nodup := by
  simp only [Cfg.wf, Bool.and_eq_true, decide_eq_true_eq] at h
  exact h.1.1.1.1.1.1.1.2

theorem Cfg.wf_irq_lt {c : Cfg} (h : c.wf = true) :
    c.irqBits.txDone < 8 ∧ c.irqBits.payloadCrcError < 8 ∧ c.irqBits.rxDone < 8 := by
  simp only [Cfg.wf, Bool.and_eq_true, decide_eq_true_eq] at h
  exact ⟨h.1.1.1.1.1.1.2, h.1.1.1.1.1.2, h.1.1.1.1.2⟩

theorem Cfg.wf_mapRx {c : Cfg} (h : c.wf = true) : c.mapRxDone.extractLsb' 6 2 = 0b00#2 := by
  simp only [Cfg.wf, Bool.and_eq_true, decide_eq_true_eq] at h
  exact h.1.1.1.2

theorem Cfg.wf_mapTx {c : Cfg} (h : c.wf = true) : c.mapTxDone.extractLsb' 6 2 = 0b01#2 := by
  simp only [Cfg.wf, Bool.and_eq_true, decide_eq_true_eq] at h
  exact h.1.1.2

/-- With no chip attached the version register does not read as the expected byte (10_state.md R49). -/
theorem Cfg.wf_absent {c : Cfg} (h : c.wf = true) (hp : c.chipPresent = false) : c.chipVersion ≠ c.versionExpected := by
  simp only [Cfg.wf, Bool.and_eq_true] at h
  simpa [hp] using h.2

/-- The code of a mode stands for that mode (10_state.md R34). -/
theorem ModeCodes.mode?_code {c : ModeCodes} (h : [c.sleep, c.standby, c.tx, c.rxContinuous].Nodup) (m : Mode) :
    c.mode? (c.code m) = some m := by
  simp only [List.nodup_cons, List.mem_cons, List.not_mem_nil, or_false, not_or] at h
  obtain ⟨⟨h1, h2, h3⟩, ⟨h4, h5⟩, h6, -⟩ := h
  cases m <;> simp [ModeCodes.mode?, ModeCodes.code, *, Ne.symm h1, Ne.symm h2, Ne.symm h3, Ne.symm h4, Ne.symm h5,
    Ne.symm h6]

namespace Machine

/-! ### The address byte -/

@[simp] theorem writeAddrByte_isWrite (a : RegAddr) : (writeAddrByte a).msb = true := by
  revert a; decide

@[simp] theorem readAddrByte_isWrite (a : RegAddr) : (readAddrByte a).msb = false := by
  revert a; decide

@[simp] theorem writeAddrByte_addr (a : RegAddr) : (writeAddrByte a).extractLsb' 0 7 = a := by
  revert a; decide

@[simp] theorem readAddrByte_addr (a : RegAddr) : (readAddrByte a).extractLsb' 0 7 = a := by
  revert a; decide

/-! ### The mode byte -/

/-- The mode field of the mode byte is the mode's code (30_encoding.md R94 (a)). -/
theorem modeByte_code {c : Cfg} (h : c.wf = true) (m : Mode) :
    (modeByte c m).extractLsb' 0 3 = c.modeCodes.code m := by
  obtain ⟨h3, -⟩ := Cfg.wf_lora h
  apply BitVec.eq_of_getLsbD_eq
  intro i hi
  have hi8 : i < 8 := by omega
  simp [modeByte, hi, hi8]
  omega

/-- The long-range bit of the mode byte is set (30_encoding.md R94 (a)). -/
theorem modeByte_lora {c : Cfg} (h : c.wf = true) (m : Mode) : (modeByte c m).getLsbD c.loraBit = true := by
  obtain ⟨-, h8⟩ := Cfg.wf_lora h
  simp [modeByte, h8]

/-- The mode byte's upper bits have the long-range bit set. -/
theorem modeByte_opHigh {c : Cfg} (h : c.wf = true) (m : Mode) :
    ((modeByte c m).extractLsb' 3 5).getLsbD (c.loraBit - 3) = true := by
  obtain ⟨h3, h8⟩ := Cfg.wf_lora h
  have h1 : c.loraBit - 3 < 5 := by omega
  have h2 : 3 + (c.loraBit - 3) = c.loraBit := by omega
  rw [BitVec.getLsbD_extractLsb', h2, modeByte_lora h]
  simp [h1]

/-! ### The chip's answers -/

/-- A mode write with a legal byte: the chip's mode is unchanged, Sleep, or keeps its long-range bit (10_state.md
R34). -/
theorem Chip.writeOpMode_modeByte {cfg : Cfg} (h : cfg.wf = true) (k : Nat) (m : Mode) (c : Chip)
    (hl : c.mode = .sleep ∨ c.lora cfg = true) :
    c.writeOpMode cfg k (modeByte cfg m) = .ok (c.enterMode k m ((modeByte cfg m).extractLsb' 3 5)) := by
  have hcond : ¬ (c.mode ≠ .sleep ∧ (modeByte cfg m).getLsbD cfg.loraBit ≠ c.lora cfg) := by
    rw [modeByte_lora h]
    rintro ⟨h1, h2⟩
    rcases hl with h3 | h3
    · exact h1 h3
    · exact h2 h3.symm
  simp only [Chip.writeOpMode, modeByte_code h, ModeCodes.mode?_code (Cfg.wf_codes h), if_neg hcond]

/-- After a mode write with a mode byte the chip is in long-range mode. -/
theorem Chip.lora_enterMode {cfg : Cfg} (h : cfg.wf = true) (k : Nat) (m : Mode) (c : Chip) :
    (c.enterMode k m ((modeByte cfg m).extractLsb' 3 5)).lora cfg = true := modeByte_opHigh h m

/-- A write frame to a register that is neither the mode register nor a configuration register is always taken. -/
theorem Chip.write_plain (cfg : Cfg) (k : Nat) (r : Reg) (v : Byte) (c : Chip) (h1 : r ≠ .opMode)
    (h2 : r.isCfg = false) : c.write cfg k r v = .ok (c.store r v) := by
  simp [Chip.write, h1, h2]

/-- In Sleep a configuration register is written (10_state.md R35). -/
theorem Chip.write_cfg (cfg : Cfg) (k : Nat) (r : Reg) (v : Byte) (c : Chip) (h1 : r.isCfg = true)
    (h2 : c.mode = .sleep) : c.write cfg k r v = .ok (c.store r v) := by
  have h3 : r ≠ .opMode := by rintro rfl; cases h1
  simp [Chip.write, h3, h2]

/-- The mode register is written by the mode write. -/
theorem Chip.write_opMode (cfg : Cfg) (k : Nat) (v : Byte) (c : Chip) :
    c.write cfg k .opMode v = c.writeOpMode cfg k v := by simp [Chip.write]

/-- What an attached chip does with a write frame at a register of the map. -/
theorem answerWrite_reg {s : State} {a : RegAddr} {r : Reg} (v : Byte) (hp : s.cfg.chipPresent = true)
    (hl : s.cfg.map.lookup a = some r) {c : Chip} (hw : s.chip.write s.cfg s.free r v = .ok c) :
    answerWrite a v s = .ok { s with chip := c, free := s.free + 1 } := by
  simp [answerWrite, hp, hl, hw]

/-- What an attached chip answers to a read frame at a register of the map. -/
theorem answerRead_reg {s : State} {a : RegAddr} {r : Reg} (hp : s.cfg.chipPresent = true)
    (hl : s.cfg.map.lookup a = some r) :
    answerRead a s = (s.chip.value s.cfg r, { s with chip := s.chip.afterRead r }) := by
  simp [answerRead, hp, hl]

/-! ### Transactions and frames -/

theorem exchange_write (a : RegAddr) (v : Byte) (s : State) :
    exchange (writeAddrByte a) v s = (answerWrite a v s).map fun s' => (v, s') := by
  simp only [exchange, writeAddrByte_isWrite, writeAddrByte_addr, if_true]
  cases answerWrite a v s <;> rfl

theorem exchange_read (a : RegAddr) (v : Byte) (s : State) :
    exchange (readAddrByte a) v s = .ok (answerRead a s) := by
  simp [exchange]

/-- A completed write frame at a register of the map: the chip takes it and BUSLOG gains its record
(20_memory.md R62). -/
theorem transact_write_reg {s : State} {a : RegAddr} {r : Reg} (v : Byte) (hp : s.cfg.chipPresent = true)
    (hl : s.cfg.map.lookup a = some r) {c : Chip} (hw : s.chip.write s.cfg s.free r v = .ok c) :
    transact (writeAddrByte a) v s =
      .ok (v, { s with chip := c, free := s.free + 1, csN := true, busLog := s.busLog ++ [⟨true, a, v⟩] }) := by
  have h := answerWrite_reg (s := { s with csN := false }) (a := a) v hp hl hw
  simp only [transact, exchange_write, h, Except.map, writeAddrByte_isWrite, writeAddrByte_addr]

/-- A completed read frame at a register of the map (20_memory.md R63). -/
theorem transact_read_reg {s : State} {a : RegAddr} {r : Reg} (v : Byte) (hp : s.cfg.chipPresent = true)
    (hl : s.cfg.map.lookup a = some r) :
    transact (readAddrByte a) v s =
      .ok (s.chip.value s.cfg r,
        { s with chip := s.chip.afterRead r, csN := true,
                 busLog := s.busLog ++ [⟨false, a, s.chip.value s.cfg r⟩] }) := by
  have h := answerRead_reg (s := { s with csN := false }) (a := a) hp hl
  simp only [transact, exchange_read, h, readAddrByte_isWrite, readAddrByte_addr]

/-- A completed write frame with no chip attached: only BUSLOG and CS_N change (log 12). -/
theorem transact_write_absent {s : State} (a : RegAddr) (v : Byte) (hp : s.cfg.chipPresent = false) :
    transact (writeAddrByte a) v s = .ok (v, { s with csN := true, busLog := s.busLog ++ [⟨true, a, v⟩] }) := by
  simp [transact, exchange_write, answerWrite, hp, Except.map]

/-- A completed read frame with no chip attached: CHIP_VERSION at the version register, a free byte elsewhere
(log 12). -/
theorem transact_read_absent {s : State} (a : RegAddr) (w : Byte) (hp : s.cfg.chipPresent = false) :
    ∃ v k, transact (readAddrByte a) w s =
        .ok (v, { s with csN := true, busLog := s.busLog ++ [⟨false, a, v⟩], free := k }) ∧
      (s.cfg.map.lookup a = some .version → v = s.cfg.chipVersion) ∧
      (s.cfg.map.lookup a ≠ some .version → k = s.free + 1) := by
  by_cases hl : s.cfg.map.lookup a = some .version
  · exact ⟨s.cfg.chipVersion, s.free, by simp [transact, exchange_read, answerRead, hp, hl], fun _ => rfl,
      fun h => absurd hl h⟩
  · exact ⟨Config.freeByte s.free, s.free + 1, by simp [transact, exchange_read, answerRead, hp, hl],
      fun h => absurd h hl, fun _ => rfl⟩

/-- `MemWrite` at a register, with an attached chip and a frame that completes. -/
theorem memWrite_reg {d : Draw} {s : State} {r : Reg} (v : Byte) (hd : d.fate = .completes)
    (hwf : s.cfg.wf = true) (hp : s.cfg.chipPresent = true) {c : Chip}
    (hw : s.chip.write s.cfg s.free r v = .ok c) :
    memWrite d (s.cfg.map.addr r) v s =
      .done v { s with chip := c, free := s.free + 1, csN := true,
                       busLog := s.busLog ++ [⟨true, s.cfg.map.addr r, v⟩] } := by
  simp only [memWrite, busFrame, hd, transact_write_reg v hp (RegMap.lookup_addr (Cfg.wf_map hwf) r) hw]

/-- `MemRead` at a register, with an attached chip and a frame that completes. -/
theorem memRead_reg {d : Draw} {s : State} {r : Reg} (hd : d.fate = .completes)
    (hwf : s.cfg.wf = true) (hp : s.cfg.chipPresent = true) :
    memRead d (s.cfg.map.addr r) s =
      .done (s.chip.value s.cfg r)
        { s with chip := s.chip.afterRead r, csN := true,
                 busLog := s.busLog ++ [⟨false, s.cfg.map.addr r, s.chip.value s.cfg r⟩] } := by
  simp only [memRead, busFrame, hd, transact_read_reg s.cfg.dummy hp (RegMap.lookup_addr (Cfg.wf_map hwf) r)]

@[simp] theorem FrameResult.andThen_done (v : Byte) (s : State) (k : Byte → State → Outcome) :
    (FrameResult.done v s).andThen k = k v s := rfl

@[simp] theorem FrameResult.andThen_failed (s : State) (k : Byte → State → Outcome) :
    (FrameResult.failed s).andThen k = .next (s.raiseFatal .busError) := rfl

@[simp] theorem FrameResult.andThen_refused (r : Refusal) (k : Byte → State → Outcome) :
    (FrameResult.refused r).andThen k = .refused r := rfl

/-- The chip changed by a frame is the only part of the machine a frame changes, with the free counter, BUSLOG and
CS_N. -/
structure FrameOnly (s t : State) : Prop where
  cfg : t.cfg = s.cfg
  radio : t.radio = s.radio
  txBuf : t.txBuf = s.txBuf
  status : t.status = s.status
  rdata : t.rdata = s.rdata
  frf : t.frf = s.frf
  packet : t.packet = s.packet
  mode : t.mode = s.mode
  configured : t.configured = s.configured
  phase : t.phase = s.phase
  resetN : t.resetN = s.resetN
  txLog : t.txLog = s.txLog
  inbox : t.inbox = s.inbox
  env : t.env = s.env

theorem answerWrite_frameOnly {a : RegAddr} {v : Byte} {s t : State} (h : answerWrite a v s = .ok t) :
    FrameOnly s t ∧ t.busLog = s.busLog ∧ t.csN = s.csN := by
  simp only [answerWrite] at h
  split at h
  · split at h
    · cases h
    · split at h
      · cases h; exact ⟨by constructor <;> rfl, rfl, rfl⟩
      · cases h
  · cases h; exact ⟨by constructor <;> rfl, rfl, rfl⟩

theorem answerRead_frameOnly (a : RegAddr) (s : State) :
    FrameOnly s (answerRead a s).2 ∧ (answerRead a s).2.busLog = s.busLog ∧ (answerRead a s).2.csN = s.csN := by
  simp only [answerRead]
  split
  · split
    · exact ⟨by constructor <;> rfl, rfl, rfl⟩
    · exact ⟨by constructor <;> rfl, rfl, rfl⟩
  · split
    · exact ⟨by constructor <;> rfl, rfl, rfl⟩
    · exact ⟨by constructor <;> rfl, rfl, rfl⟩

theorem exchange_frameOnly {ab db v : Byte} {s t : State} (h : exchange ab db s = .ok (v, t)) :
    FrameOnly s t ∧ t.busLog = s.busLog ∧ t.csN = s.csN := by
  simp only [exchange] at h
  split at h
  · split at h
    · next s' hs => cases h; exact answerWrite_frameOnly hs
    · cases h
  · have h' := Except.ok.inj h
    have := answerRead_frameOnly (ab.extractLsb' 0 7) s
    rw [h'] at this
    exact this

/-- Everything a completed transaction can do. -/
theorem transact_frameOnly {ab db v : Byte} {s t : State} (h : transact ab db s = .ok (v, t)) :
    FrameOnly s t ∧ t.csN = true ∧ t.busLog = s.busLog ++ [⟨ab.msb, ab.extractLsb' 0 7, v⟩] := by
  simp only [transact] at h
  split at h
  · next v' s' hs =>
    cases h
    obtain ⟨hf, hb, -⟩ := exchange_frameOnly hs
    refine ⟨⟨hf.cfg, hf.radio, hf.txBuf, hf.status, hf.rdata, hf.frf, hf.packet, hf.mode, hf.configured, hf.phase,
      hf.resetN, hf.txLog, hf.inbox, hf.env⟩, rfl, ?_⟩
    show s'.busLog ++ _ = _
    rw [hb]
  · cases h

/-- Everything a frame of the Sequencer can do when it completes. -/
theorem busFrame_done {d : Draw} {ab db v : Byte} {s t : State} (h : busFrame d ab db s = .done v t) :
    d.fate = .completes ∧ transact ab db s = .ok (v, t) := by
  simp only [busFrame] at h
  split at h
  · next hd =>
    split at h
    · next v' s' hs => cases h; exact ⟨hd, hs⟩
    · cases h
  · cases h
  · split at h <;> cases h

/-- Everything a frame of the Sequencer can do when it fails. -/
theorem busFrame_failed {d : Draw} {ab db : Byte} {s t : State} (h : busFrame d ab db s = .failed t) :
    t = s ∨ ∃ v, exchange ab db s = .ok (v, t) := by
  simp only [busFrame] at h
  split at h
  · split at h <;> cases h
  · cases h; exact .inl rfl
  · split at h
    · next v' s' hs => cases h; exact .inr ⟨v', hs⟩
    · cases h

/-- Everything the Sequencer's frame and what follows it can do: the frame completed and the rest of the micro-step ran
after it, or the frame failed, is not in BUSLOG, and BusError is raised (40_regbus.md R110, R111). -/
theorem busFrame_andThen {d : Draw} {ab db : Byte} {s t : State} {k : Byte → State → Outcome}
    (h : (busFrame d ab db s).andThen k = .next t) :
    (∃ v u, d.fate = .completes ∧ transact ab db s = .ok (v, u) ∧ FrameOnly s u ∧ u.csN = true ∧
      u.busLog = s.busLog ++ [⟨ab.msb, ab.extractLsb' 0 7, v⟩] ∧ k v u = .next t) ∨
    (∃ u, d.fate ≠ .completes ∧ (u = s ∨ ∃ v, exchange ab db s = .ok (v, u)) ∧ FrameOnly s u ∧ u.busLog = s.busLog ∧
      t = u.raiseFatal .busError) := by
  cases hf : busFrame d ab db s with
  | done v u =>
    rw [hf] at h
    obtain ⟨hd, ht⟩ := busFrame_done hf
    obtain ⟨h1, h2, h3⟩ := transact_frameOnly ht
    exact .inl ⟨v, u, hd, ht, h1, h2, h3, h⟩
  | failed u =>
    rw [hf] at h
    cases h
    have hd : d.fate ≠ .completes := by
      intro hc
      simp only [busFrame, hc] at hf
      split at hf <;> cases hf
    have hu := busFrame_failed hf
    refine .inr ⟨u, hd, hu, ?_⟩
    rcases hu with rfl | ⟨v, hv⟩
    · exact ⟨by constructor <;> rfl, rfl, rfl⟩
    · obtain ⟨h1, h2, -⟩ := exchange_frameOnly hv
      exact ⟨h1, h2, rfl⟩
  | refused r =>
    rw [hf] at h
    cases h

/-- The same for a write frame. -/
theorem memWrite_andThen {d : Draw} {a : RegAddr} {v : Byte} {s t : State} {k : Byte → State → Outcome}
    (h : (memWrite d a v s).andThen k = .next t) :
    (∃ u, d.fate = .completes ∧ transact (writeAddrByte a) v s = .ok (v, u) ∧ FrameOnly s u ∧ u.csN = true ∧
      u.busLog = s.busLog ++ [⟨true, a, v⟩] ∧ k v u = .next t) ∨
    (∃ u, d.fate ≠ .completes ∧ (u = s ∨ answerWrite a v s = .ok u) ∧ FrameOnly s u ∧ u.busLog = s.busLog ∧
      t = u.raiseFatal .busError) := by
  rcases busFrame_andThen h with ⟨w, u, hd, ht, hf, hc, hb, hk⟩ | ⟨u, hd, hu, hf, hb, hk⟩
  · have hw : w = v := by
      simp only [transact, exchange_write] at ht
      cases ha : answerWrite a v { s with csN := false } with
      | ok s' => rw [ha] at ht; simp only [Except.map, Except.ok.injEq, Prod.mk.injEq] at ht; exact ht.1.symm
      | error e => rw [ha] at ht; cases ht
    subst hw
    simp only [writeAddrByte_isWrite, writeAddrByte_addr] at hb
    exact .inl ⟨u, hd, ht, hf, hc, hb, hk⟩
  · refine .inr ⟨u, hd, ?_, hf, hb, hk⟩
    rcases hu with hu | ⟨w, hw⟩
    · exact .inl hu
    · rw [exchange_write] at hw
      cases ha : answerWrite a v s with
      | ok s' => rw [ha] at hw; simp only [Except.map, Except.ok.injEq, Prod.mk.injEq] at hw; exact .inr (by rw [hw.2])
      | error e => rw [ha] at hw; cases hw

/-- The same for a read frame. -/
theorem memRead_andThen {d : Draw} {a : RegAddr} {s t : State} {k : Byte → State → Outcome}
    (h : (memRead d a s).andThen k = .next t) :
    (∃ v u, d.fate = .completes ∧ transact (readAddrByte a) s.cfg.dummy s = .ok (v, u) ∧ FrameOnly s u ∧
      u.csN = true ∧ u.busLog = s.busLog ++ [⟨false, a, v⟩] ∧ k v u = .next t) ∨
    (∃ u, d.fate ≠ .completes ∧ (u = s ∨ u = (answerRead a s).2) ∧ FrameOnly s u ∧ u.busLog = s.busLog ∧
      t = u.raiseFatal .busError) := by
  rcases busFrame_andThen h with ⟨w, u, hd, ht, hf, hc, hb, hk⟩ | ⟨u, hd, hu, hf, hb, hk⟩
  · simp only [readAddrByte_isWrite, readAddrByte_addr] at hb
    exact .inl ⟨w, u, hd, ht, hf, hc, hb, hk⟩
  · refine .inr ⟨u, hd, ?_, hf, hb, hk⟩
    rcases hu with hu | ⟨w, hw⟩
    · exact .inl hu
    · rw [exchange_read] at hw
      exact .inr (by rw [Except.ok.inj hw])

/-- The chip after a completed write frame: what `answerWrite` makes of it. -/
theorem transact_write_chip {a : RegAddr} {v : Byte} {s t : State} (h : transact (writeAddrByte a) v s = .ok (v, t)) :
    ∃ u, answerWrite a v s = .ok u ∧ t.chip = u.chip ∧ t.free = u.free := by
  simp only [transact, exchange_write] at h
  cases ha : answerWrite a v { s with csN := false } with
  | error e => rw [ha] at h; cases h
  | ok s' =>
    rw [ha] at h
    simp only [Except.map, Except.ok.injEq, Prod.mk.injEq, true_and] at h
    subst h
    by_cases hp : s.cfg.chipPresent = true
    · cases hl : s.cfg.map.lookup a with
      | none => simp [answerWrite, hp, hl] at ha
      | some r =>
        cases hc : s.chip.write s.cfg s.free r v with
        | error e => simp [answerWrite, hp, hl, hc] at ha
        | ok c =>
          simp [answerWrite, hp, hl, hc] at ha
          subst ha
          exact ⟨{ s with chip := c, free := s.free + 1 }, by simp [answerWrite, hp, hl, hc], rfl, rfl⟩
    · simp [answerWrite, hp] at ha
      subst ha
      exact ⟨s, by simp [answerWrite, hp], rfl, rfl⟩

/-- The chip after a completed read frame: what `answerRead` makes of it. -/
theorem transact_read_chip {a : RegAddr} {v w : Byte} {s t : State} (h : transact (readAddrByte a) w s = .ok (v, t)) :
    v = (answerRead a s).1 ∧ t.chip = (answerRead a s).2.chip ∧ t.free = (answerRead a s).2.free := by
  simp only [transact, exchange_read, Except.ok.injEq, Prod.mk.injEq] at h
  obtain ⟨rfl, rfl⟩ := h
  simp only [answerRead]
  split
  · split <;> exact ⟨rfl, rfl, rfl⟩
  · split <;> exact ⟨rfl, rfl, rfl⟩

end Machine

end Sys2Proof
end

