-- ==== Sys2Proof/Laws/Memory.lean ====
section
/-! SUPPORT. The laws of the byte memories: what a read sees after a write, and that every operation keeps the
canonical form (addresses strictly rising and below the size). -/

namespace Sys2Proof.Machine

theorem cellAt_cellPut_same (cs : List Host.Cell) (a : Nat) (v : Byte) : cellAt (cellPut cs a v) a = some v := by
  induction cs with
  | nil => simp [cellPut, cellAt]
  | cons c rest ih =>
    simp only [cellPut]
    split
    · simp [cellAt]
    · split
      · simp [cellAt]
      · next h1 h2 =>
        have h3 : c.1 ≠ a := fun h => h2 h.symm
        simp [cellAt, h3, ih]

theorem cellAt_cellPut_other (cs : List Host.Cell) (a b : Nat) (v : Byte) (hab : b ≠ a) :
    cellAt (cellPut cs a v) b = cellAt cs b := by
  have hba : ¬ a = b := fun h => hab h.symm
  induction cs with
  | nil => simp [cellPut, cellAt, hba]
  | cons c rest ih =>
    simp only [cellPut]
    split
    · simp [cellAt, hba]
    · split
      · next _ h2 =>
        have h3 : ¬ c.1 = b := fun h => hba (h2.trans h)
        simp [cellAt, hba, h3]
      · simp only [cellAt, ih]

/-- A read of the byte just written gives it. -/
@[simp] theorem Mem.read_write_same (m : Mem) (a : Nat) (v : Byte) : (m.write a v).read a = v := by
  simp [Mem.read, Mem.write, cellAt_cellPut_same]

/-- A write leaves every other byte alone. -/
theorem Mem.read_write_other (m : Mem) (a b : Nat) (v : Byte) (h : b ≠ a) : (m.write a v).read b = m.read b := by
  simp [Mem.read, Mem.write, cellAt_cellPut_other _ _ _ _ h]

theorem cellsRise_cellPut (cs : List Host.Cell) (a : Nat) (v : Byte) (lo : Option Nat)
    (hlo : ∀ b, lo = some b → b < a) (h : cellsRise lo cs = true) : cellsRise lo (cellPut cs a v) = true := by
  induction cs generalizing lo with
  | nil =>
    cases lo with
    | none => simp [cellPut, cellsRise]
    | some b => simpa [cellPut, cellsRise] using hlo b rfl
  | cons c rest ih =>
    simp only [cellsRise, Bool.and_eq_true] at h
    simp only [cellPut]
    split
    · next h1 =>
      simp only [cellsRise, Bool.and_eq_true, Option.all_some, decide_eq_true_eq]
      refine ⟨?_, h1, h.2⟩
      cases lo with
      | none => rfl
      | some b => simpa using hlo b rfl
    · split
      · next _ h2 =>
        subst h2
        simp only [cellsRise, Bool.and_eq_true]
        exact ⟨h.1, h.2⟩
      · next h1 h2 =>
        simp only [cellsRise, Bool.and_eq_true]
        refine ⟨h.1, ih _ (fun b hb => ?_) h.2⟩
        cases hb
        omega

theorem cellPut_below (cs : List Host.Cell) (a size : Nat) (v : Byte) (ha : a < size)
    (h : (cs.all fun c => decide (c.1 < size)) = true) :
    ((cellPut cs a v).all fun c => decide (c.1 < size)) = true := by
  induction cs with
  | nil => simpa [cellPut] using ha
  | cons c rest ih =>
    simp only [List.all_cons, Bool.and_eq_true, decide_eq_true_eq] at h
    simp only [cellPut]
    split
    · simp only [List.all_cons, Bool.and_eq_true, decide_eq_true_eq]
      exact ⟨ha, h⟩
    · split
      · simp only [List.all_cons, Bool.and_eq_true, decide_eq_true_eq]
        exact ⟨ha, h.2⟩
      · simp only [List.all_cons, Bool.and_eq_true, decide_eq_true_eq]
        exact ⟨h.1, ih h.2⟩

/-- A write inside the memory keeps the canonical form. -/
theorem Mem.wf_write {m : Mem} {size a : Nat} (v : Byte) (ha : a < size) (h : m.wf size = true) :
    (m.write a v).wf size = true := by
  simp only [Mem.wf, Mem.write, Bool.and_eq_true] at h ⊢
  exact ⟨cellsRise_cellPut _ _ _ _ (by simp) h.1, cellPut_below _ _ _ _ ha h.2⟩

/-- Discarded contents are in canonical form. -/
@[simp] theorem Mem.wf_discard (k size : Nat) : (Mem.discard k).wf size = true := rfl

/-- Storing a run of bytes from an 8-bit index keeps the canonical form of a 256-byte memory. -/
theorem Mem.wf_storeRun {m : Mem} (start : Byte) (bs : List Byte) (h : m.wf 256 = true) :
    (m.storeRun start bs).wf 256 = true := by
  induction bs generalizing m start with
  | nil => exact h
  | cons b bs ih => exact ih (start + 1#8) (Mem.wf_write b (by have := start.isLt; omega) h)

/-- An index outside a stored run is untouched. -/
theorem Mem.read_storeRun_other (m : Mem) (start : Byte) (bs : List Byte) (x : Byte)
    (hx : ∀ i < bs.length, x ≠ start + BitVec.ofNat 8 i) : (m.storeRun start bs).read x.toNat = m.read x.toNat := by
  induction bs generalizing m start with
  | nil => rfl
  | cons b bs ih =>
    have h0 : x.toNat ≠ start.toNat := by
      have h := hx 0 (by simp)
      intro h'
      exact h (by simpa using BitVec.eq_of_toNat_eq h')
    have hrest : ∀ i < bs.length, x ≠ start + 1#8 + BitVec.ofNat 8 i := by
      intro i hi
      have h := hx (i + 1) (by simp; omega)
      rw [BitVec.add_assoc, show (1#8 + BitVec.ofNat 8 i) = BitVec.ofNat 8 (i + 1) by
        rw [Nat.add_comm, BitVec.ofNat_add]]
      exact h
    simp only [Mem.storeRun]
    rw [ih _ _ hrest, Mem.read_write_other _ _ _ _ h0]

/-- Byte `i` of a stored run of at most 256 bytes lies at its index, modulo 256. -/
theorem Mem.read_storeRun (m : Mem) (start : Byte) (bs : List Byte) (hlen : bs.length ≤ 256) (i : Nat)
    (hi : i < bs.length) : (m.storeRun start bs).read (start + BitVec.ofNat 8 i).toNat = bs[i] := by
  induction bs generalizing m start i with
  | nil => simp at hi
  | cons b bs ih =>
    simp only [List.length_cons] at hlen hi
    cases i with
    | zero =>
      simp only [Mem.storeRun, List.getElem_cons_zero]
      rw [Mem.read_storeRun_other]
      · simp
      · intro j hj h
        have h2 := congrArg BitVec.toNat h
        simp [BitVec.toNat_add] at h2
        have := start.isLt
        omega
    | succ i =>
      simp only [Mem.storeRun, List.getElem_cons_succ]
      rw [show start + BitVec.ofNat 8 (i + 1) = start + 1#8 + BitVec.ofNat 8 i by
        rw [BitVec.add_assoc, Nat.add_comm i 1, BitVec.ofNat_add]]
      exact ih _ _ (by omega) i (by omega)

theorem Mem.length_readRun (m : Mem) (start : Byte) (n : Nat) : (m.readRun start n).length = n := by
  induction n generalizing start with
  | zero => rfl
  | succ n ih => simp [Mem.readRun, ih]

/-- Byte `i` of a run read from an 8-bit index. -/
theorem Mem.getElem_readRun (m : Mem) (start : Byte) (n i : Nat) (hi : i < (m.readRun start n).length) :
    (m.readRun start n)[i] = m.read (start + BitVec.ofNat 8 i).toNat := by
  induction n generalizing start i with
  | zero => simp [Mem.readRun] at hi
  | succ n ih =>
    cases i with
    | zero => simp [Mem.readRun]
    | succ i =>
      simp only [Mem.readRun, List.getElem_cons_succ]
      rw [ih, BitVec.add_assoc, Nat.add_comm i 1, BitVec.ofNat_add]

end Sys2Proof.Machine
end

