-- ==== Sys2Proof/Laws/State.lean ====
section
/-! SUPPORT. The small laws of the state: for each named update one law per field, true by rfl, so that no later proof
unfolds a record update. -/

namespace Sys2Proof.Machine

/-! ### goto -/

@[simp] theorem State.goto_cfg (ph : Phase) (s : State) : (s.goto ph).cfg = s.cfg := rfl
@[simp] theorem State.goto_radio (ph : Phase) (s : State) : (s.goto ph).radio = s.radio := rfl
@[simp] theorem State.goto_txBuf (ph : Phase) (s : State) : (s.goto ph).txBuf = s.txBuf := rfl
@[simp] theorem State.goto_status (ph : Phase) (s : State) : (s.goto ph).status = s.status := rfl
@[simp] theorem State.goto_rdata (ph : Phase) (s : State) : (s.goto ph).rdata = s.rdata := rfl
@[simp] theorem State.goto_frf (ph : Phase) (s : State) : (s.goto ph).frf = s.frf := rfl
@[simp] theorem State.goto_packet (ph : Phase) (s : State) : (s.goto ph).packet = s.packet := rfl
@[simp] theorem State.goto_mode (ph : Phase) (s : State) : (s.goto ph).mode = s.mode := rfl
@[simp] theorem State.goto_configured (ph : Phase) (s : State) : (s.goto ph).configured = s.configured := rfl
@[simp] theorem State.goto_phase (ph : Phase) (s : State) : (s.goto ph).phase = ph := rfl
@[simp] theorem State.goto_chip (ph : Phase) (s : State) : (s.goto ph).chip = s.chip := rfl
@[simp] theorem State.goto_csN (ph : Phase) (s : State) : (s.goto ph).csN = s.csN := rfl
@[simp] theorem State.goto_resetN (ph : Phase) (s : State) : (s.goto ph).resetN = s.resetN := rfl
@[simp] theorem State.goto_busLog (ph : Phase) (s : State) : (s.goto ph).busLog = s.busLog := rfl
@[simp] theorem State.goto_txLog (ph : Phase) (s : State) : (s.goto ph).txLog = s.txLog := rfl
@[simp] theorem State.goto_inbox (ph : Phase) (s : State) : (s.goto ph).inbox = s.inbox := rfl
@[simp] theorem State.goto_env (ph : Phase) (s : State) : (s.goto ph).env = s.env := rfl
@[simp] theorem State.goto_free (ph : Phase) (s : State) : (s.goto ph).free = s.free := rfl

/-! ### finish -/

@[simp] theorem State.finish_cfg (code : ResultCode) (s : State) : (s.finish code).cfg = s.cfg := rfl
@[simp] theorem State.finish_radio (code : ResultCode) (s : State) : (s.finish code).radio = s.radio := rfl
@[simp] theorem State.finish_txBuf (code : ResultCode) (s : State) : (s.finish code).txBuf = s.txBuf := rfl
@[simp] theorem State.finish_status (code : ResultCode) (s : State) : (s.finish code).status = code := rfl
@[simp] theorem State.finish_rdata (code : ResultCode) (s : State) : (s.finish code).rdata = s.rdata := rfl
@[simp] theorem State.finish_frf (code : ResultCode) (s : State) : (s.finish code).frf = s.frf := rfl
@[simp] theorem State.finish_packet (code : ResultCode) (s : State) : (s.finish code).packet = s.packet := rfl
@[simp] theorem State.finish_mode (code : ResultCode) (s : State) : (s.finish code).mode = s.mode := rfl
@[simp] theorem State.finish_configured (code : ResultCode) (s : State) : (s.finish code).configured = s.configured := rfl
@[simp] theorem State.finish_phase (code : ResultCode) (s : State) : (s.finish code).phase = .idle := rfl
@[simp] theorem State.finish_chip (code : ResultCode) (s : State) : (s.finish code).chip = s.chip := rfl
@[simp] theorem State.finish_csN (code : ResultCode) (s : State) : (s.finish code).csN = s.csN := rfl
@[simp] theorem State.finish_resetN (code : ResultCode) (s : State) : (s.finish code).resetN = s.resetN := rfl
@[simp] theorem State.finish_busLog (code : ResultCode) (s : State) : (s.finish code).busLog = s.busLog := rfl
@[simp] theorem State.finish_txLog (code : ResultCode) (s : State) : (s.finish code).txLog = s.txLog := rfl
@[simp] theorem State.finish_inbox (code : ResultCode) (s : State) : (s.finish code).inbox = s.inbox := rfl
@[simp] theorem State.finish_env (code : ResultCode) (s : State) : (s.finish code).env = s.env := rfl
@[simp] theorem State.finish_free (code : ResultCode) (s : State) : (s.finish code).free = s.free := rfl

/-! ### refuse -/

@[simp] theorem State.refuse_cfg (code : ResultCode) (s : State) : (s.refuse code).cfg = s.cfg := rfl
@[simp] theorem State.refuse_radio (code : ResultCode) (s : State) : (s.refuse code).radio = s.radio := rfl
@[simp] theorem State.refuse_txBuf (code : ResultCode) (s : State) : (s.refuse code).txBuf = s.txBuf := rfl
@[simp] theorem State.refuse_status (code : ResultCode) (s : State) : (s.refuse code).status = code := rfl
@[simp] theorem State.refuse_rdata (code : ResultCode) (s : State) : (s.refuse code).rdata = s.rdata := rfl
@[simp] theorem State.refuse_frf (code : ResultCode) (s : State) : (s.refuse code).frf = s.frf := rfl
@[simp] theorem State.refuse_packet (code : ResultCode) (s : State) : (s.refuse code).packet = s.packet := rfl
@[simp] theorem State.refuse_mode (code : ResultCode) (s : State) : (s.refuse code).mode = s.mode := rfl
@[simp] theorem State.refuse_configured (code : ResultCode) (s : State) : (s.refuse code).configured = s.configured := rfl
@[simp] theorem State.refuse_phase (code : ResultCode) (s : State) : (s.refuse code).phase = .idle := rfl
@[simp] theorem State.refuse_chip (code : ResultCode) (s : State) : (s.refuse code).chip = s.chip := rfl
@[simp] theorem State.refuse_csN (code : ResultCode) (s : State) : (s.refuse code).csN = s.csN := rfl
@[simp] theorem State.refuse_resetN (code : ResultCode) (s : State) : (s.refuse code).resetN = s.resetN := rfl
@[simp] theorem State.refuse_busLog (code : ResultCode) (s : State) : (s.refuse code).busLog = s.busLog := rfl
@[simp] theorem State.refuse_txLog (code : ResultCode) (s : State) : (s.refuse code).txLog = s.txLog := rfl
@[simp] theorem State.refuse_inbox (code : ResultCode) (s : State) : (s.refuse code).inbox = s.inbox := rfl
@[simp] theorem State.refuse_env (code : ResultCode) (s : State) : (s.refuse code).env = s.env := rfl
@[simp] theorem State.refuse_free (code : ResultCode) (s : State) : (s.refuse code).free = s.free := rfl

/-! ### invalidatePacket -/

@[simp] theorem State.invalidatePacket_cfg (s : State) : s.invalidatePacket.cfg = s.cfg := rfl
@[simp] theorem State.invalidatePacket_radio (s : State) : s.invalidatePacket.radio = s.radio := rfl
@[simp] theorem State.invalidatePacket_txBuf (s : State) : s.invalidatePacket.txBuf = s.txBuf := rfl
@[simp] theorem State.invalidatePacket_status (s : State) : s.invalidatePacket.status = s.status := rfl
@[simp] theorem State.invalidatePacket_rdata (s : State) : s.invalidatePacket.rdata = s.rdata := rfl
@[simp] theorem State.invalidatePacket_frf (s : State) : s.invalidatePacket.frf = s.frf := rfl
@[simp] theorem State.invalidatePacket_mode (s : State) : s.invalidatePacket.mode = s.mode := rfl
@[simp] theorem State.invalidatePacket_configured (s : State) : s.invalidatePacket.configured = s.configured := rfl
@[simp] theorem State.invalidatePacket_phase (s : State) : s.invalidatePacket.phase = s.phase := rfl
@[simp] theorem State.invalidatePacket_chip (s : State) : s.invalidatePacket.chip = s.chip := rfl
@[simp] theorem State.invalidatePacket_csN (s : State) : s.invalidatePacket.csN = s.csN := rfl
@[simp] theorem State.invalidatePacket_resetN (s : State) : s.invalidatePacket.resetN = s.resetN := rfl
@[simp] theorem State.invalidatePacket_busLog (s : State) : s.invalidatePacket.busLog = s.busLog := rfl
@[simp] theorem State.invalidatePacket_txLog (s : State) : s.invalidatePacket.txLog = s.txLog := rfl
@[simp] theorem State.invalidatePacket_inbox (s : State) : s.invalidatePacket.inbox = s.inbox := rfl
@[simp] theorem State.invalidatePacket_env (s : State) : s.invalidatePacket.env = s.env := rfl
@[simp] theorem State.invalidatePacket_free (s : State) : s.invalidatePacket.free = s.free + 2 := rfl

/-! ### raiseFatal -/

@[simp] theorem State.raiseFatal_cfg (code : ResultCode) (s : State) : (s.raiseFatal code).cfg = s.cfg := rfl
@[simp] theorem State.raiseFatal_radio (code : ResultCode) (s : State) : (s.raiseFatal code).radio = s.radio := rfl
@[simp] theorem State.raiseFatal_txBuf (code : ResultCode) (s : State) : (s.raiseFatal code).txBuf = s.txBuf := rfl
@[simp] theorem State.raiseFatal_status (code : ResultCode) (s : State) : (s.raiseFatal code).status = code := rfl
@[simp] theorem State.raiseFatal_rdata (code : ResultCode) (s : State) : (s.raiseFatal code).rdata = s.rdata := rfl
@[simp] theorem State.raiseFatal_frf (code : ResultCode) (s : State) : (s.raiseFatal code).frf = s.frf := rfl
@[simp] theorem State.raiseFatal_packet (code : ResultCode) (s : State) : (s.raiseFatal code).packet = s.invalidatePacket.packet := rfl
@[simp] theorem State.raiseFatal_mode (code : ResultCode) (s : State) : (s.raiseFatal code).mode = s.mode := rfl
@[simp] theorem State.raiseFatal_configured (code : ResultCode) (s : State) : (s.raiseFatal code).configured = false := rfl
@[simp] theorem State.raiseFatal_phase (code : ResultCode) (s : State) : (s.raiseFatal code).phase = .idle := rfl
@[simp] theorem State.raiseFatal_chip (code : ResultCode) (s : State) : (s.raiseFatal code).chip = s.chip := rfl
@[simp] theorem State.raiseFatal_csN (code : ResultCode) (s : State) : (s.raiseFatal code).csN = true := rfl
@[simp] theorem State.raiseFatal_resetN (code : ResultCode) (s : State) : (s.raiseFatal code).resetN = s.resetN := rfl
@[simp] theorem State.raiseFatal_busLog (code : ResultCode) (s : State) : (s.raiseFatal code).busLog = s.busLog := rfl
@[simp] theorem State.raiseFatal_txLog (code : ResultCode) (s : State) : (s.raiseFatal code).txLog = s.txLog := rfl
@[simp] theorem State.raiseFatal_inbox (code : ResultCode) (s : State) : (s.raiseFatal code).inbox = s.inbox := rfl
@[simp] theorem State.raiseFatal_env (code : ResultCode) (s : State) : (s.raiseFatal code).env = s.env := rfl
@[simp] theorem State.raiseFatal_free (code : ResultCode) (s : State) : (s.raiseFatal code).free = s.free + 2 := rfl

/-- The Packet is invalid after acceptance (10_state.md R24). -/
@[simp] theorem State.invalidatePacket_valid (s : State) : s.invalidatePacket.packet.valid = false := rfl

@[simp] theorem State.invalidatePacket_rxBuf (s : State) :
    s.invalidatePacket.packet.rxBuf = Mem.discard s.free := rfl

@[simp] theorem State.raiseFatal_valid (code : ResultCode) (s : State) :
    (s.raiseFatal code).packet.valid = false := rfl

theorem State.busy_iff (s : State) : s.busy = true ↔ s.phase ≠ .idle := by simp [State.busy]

@[simp] theorem State.busy_goto (ph : Phase) (s : State) : (s.goto ph).busy = decide (ph ≠ .idle) := rfl

@[simp] theorem State.busy_finish (code : ResultCode) (s : State) : (s.finish code).busy = false := rfl

@[simp] theorem State.busy_refuse (code : ResultCode) (s : State) : (s.refuse code).busy = false := rfl

@[simp] theorem State.busy_raiseFatal (code : ResultCode) (s : State) : (s.raiseFatal code).busy = false := rfl

theorem State.busy_eq_false {s : State} (h : s.phase = .idle) : s.busy = false := by simp [State.busy, h]

theorem State.busy_eq_true {s : State} (h : s.phase ≠ .idle) : s.busy = true := by simp [State.busy, h]

@[simp] theorem delay_eq (ms : Nat) (s : State) : delay ms s = s := rfl

end Sys2Proof.Machine
end

