-- ==== Sys2Proof/Laws/Radio.lean ====
section
/-! SUPPORT. What a Radio step can do, said once: it changes no register of the Sequencer, no line, no mode, no
configuration register, no pointer (45_chip_events.md R185), and it keeps the FIFO's canonical form. -/

namespace Sys2Proof.Machine

/-! ### The Sequencer's side -/

@[simp] theorem radioStep_cfg (e : RadioEvent) (s : State) : (radioStep e s).cfg = s.cfg := by
  simp only [radioStep]
  split <;> [(cases e <;> rfl); rfl]

@[simp] theorem radioStep_radio (e : RadioEvent) (s : State) : (radioStep e s).radio = s.radio := by
  simp only [radioStep]
  split <;> [(cases e <;> rfl); rfl]

@[simp] theorem radioStep_txBuf (e : RadioEvent) (s : State) : (radioStep e s).txBuf = s.txBuf := by
  simp only [radioStep]
  split <;> [(cases e <;> rfl); rfl]

@[simp] theorem radioStep_status (e : RadioEvent) (s : State) : (radioStep e s).status = s.status := by
  simp only [radioStep]
  split <;> [(cases e <;> rfl); rfl]

@[simp] theorem radioStep_rdata (e : RadioEvent) (s : State) : (radioStep e s).rdata = s.rdata := by
  simp only [radioStep]
  split <;> [(cases e <;> rfl); rfl]

@[simp] theorem radioStep_frf (e : RadioEvent) (s : State) : (radioStep e s).frf = s.frf := by
  simp only [radioStep]
  split <;> [(cases e <;> rfl); rfl]

@[simp] theorem radioStep_packet (e : RadioEvent) (s : State) : (radioStep e s).packet = s.packet := by
  simp only [radioStep]
  split <;> [(cases e <;> rfl); rfl]

@[simp] theorem radioStep_mode (e : RadioEvent) (s : State) : (radioStep e s).mode = s.mode := by
  simp only [radioStep]
  split <;> [(cases e <;> rfl); rfl]

@[simp] theorem radioStep_configured (e : RadioEvent) (s : State) : (radioStep e s).configured = s.configured := by
  simp only [radioStep]
  split <;> [(cases e <;> rfl); rfl]

@[simp] theorem radioStep_phase (e : RadioEvent) (s : State) : (radioStep e s).phase = s.phase := by
  simp only [radioStep]
  split <;> [(cases e <;> rfl); rfl]

@[simp] theorem radioStep_csN (e : RadioEvent) (s : State) : (radioStep e s).csN = s.csN := by
  simp only [radioStep]
  split <;> [(cases e <;> rfl); rfl]

@[simp] theorem radioStep_resetN (e : RadioEvent) (s : State) : (radioStep e s).resetN = s.resetN := by
  simp only [radioStep]
  split <;> [(cases e <;> rfl); rfl]

@[simp] theorem radioStep_busLog (e : RadioEvent) (s : State) : (radioStep e s).busLog = s.busLog := by
  simp only [radioStep]
  split <;> [(cases e <;> rfl); rfl]

@[simp] theorem radioStep_inbox (e : RadioEvent) (s : State) : (radioStep e s).inbox = s.inbox := by
  simp only [radioStep]
  split <;> [(cases e <;> rfl); rfl]

@[simp] theorem radioStep_env (e : RadioEvent) (s : State) : (radioStep e s).env = s.env := by
  simp only [radioStep]
  split <;> [(cases e <;> rfl); rfl]

@[simp] theorem radioStep_free (e : RadioEvent) (s : State) : (radioStep e s).free = s.free := by
  simp only [radioStep]
  split <;> [(cases e <;> rfl); rfl]

@[simp] theorem radioSteps_cfg (es : List RadioEvent) (s : State) : (radioSteps es s).cfg = s.cfg := by
  induction es generalizing s with
  | nil => rfl
  | cons e es ih => simp [radioSteps, ih]

@[simp] theorem radioSteps_radio (es : List RadioEvent) (s : State) : (radioSteps es s).radio = s.radio := by
  induction es generalizing s with
  | nil => rfl
  | cons e es ih => simp [radioSteps, ih]

@[simp] theorem radioSteps_txBuf (es : List RadioEvent) (s : State) : (radioSteps es s).txBuf = s.txBuf := by
  induction es generalizing s with
  | nil => rfl
  | cons e es ih => simp [radioSteps, ih]

@[simp] theorem radioSteps_status (es : List RadioEvent) (s : State) : (radioSteps es s).status = s.status := by
  induction es generalizing s with
  | nil => rfl
  | cons e es ih => simp [radioSteps, ih]

@[simp] theorem radioSteps_rdata (es : List RadioEvent) (s : State) : (radioSteps es s).rdata = s.rdata := by
  induction es generalizing s with
  | nil => rfl
  | cons e es ih => simp [radioSteps, ih]

@[simp] theorem radioSteps_frf (es : List RadioEvent) (s : State) : (radioSteps es s).frf = s.frf := by
  induction es generalizing s with
  | nil => rfl
  | cons e es ih => simp [radioSteps, ih]

@[simp] theorem radioSteps_packet (es : List RadioEvent) (s : State) : (radioSteps es s).packet = s.packet := by
  induction es generalizing s with
  | nil => rfl
  | cons e es ih => simp [radioSteps, ih]

@[simp] theorem radioSteps_mode (es : List RadioEvent) (s : State) : (radioSteps es s).mode = s.mode := by
  induction es generalizing s with
  | nil => rfl
  | cons e es ih => simp [radioSteps, ih]

@[simp] theorem radioSteps_configured (es : List RadioEvent) (s : State) : (radioSteps es s).configured = s.configured := by
  induction es generalizing s with
  | nil => rfl
  | cons e es ih => simp [radioSteps, ih]

@[simp] theorem radioSteps_phase (es : List RadioEvent) (s : State) : (radioSteps es s).phase = s.phase := by
  induction es generalizing s with
  | nil => rfl
  | cons e es ih => simp [radioSteps, ih]

@[simp] theorem radioSteps_csN (es : List RadioEvent) (s : State) : (radioSteps es s).csN = s.csN := by
  induction es generalizing s with
  | nil => rfl
  | cons e es ih => simp [radioSteps, ih]

@[simp] theorem radioSteps_resetN (es : List RadioEvent) (s : State) : (radioSteps es s).resetN = s.resetN := by
  induction es generalizing s with
  | nil => rfl
  | cons e es ih => simp [radioSteps, ih]

@[simp] theorem radioSteps_busLog (es : List RadioEvent) (s : State) : (radioSteps es s).busLog = s.busLog := by
  induction es generalizing s with
  | nil => rfl
  | cons e es ih => simp [radioSteps, ih]

@[simp] theorem radioSteps_inbox (es : List RadioEvent) (s : State) : (radioSteps es s).inbox = s.inbox := by
  induction es generalizing s with
  | nil => rfl
  | cons e es ih => simp [radioSteps, ih]

@[simp] theorem radioSteps_env (es : List RadioEvent) (s : State) : (radioSteps es s).env = s.env := by
  induction es generalizing s with
  | nil => rfl
  | cons e es ih => simp [radioSteps, ih]

@[simp] theorem radioSteps_free (es : List RadioEvent) (s : State) : (radioSteps es s).free = s.free := by
  induction es generalizing s with
  | nil => rfl
  | cons e es ih => simp [radioSteps, ih]

/-! ### The chip's side -/

@[simp] theorem radioStep_chip_mode (e : RadioEvent) (s : State) :
    (radioStep e s).chip.mode = s.chip.mode := by
  simp only [radioStep]
  split <;> [(cases e <;> rfl); rfl]

@[simp] theorem radioStep_chip_opHigh (e : RadioEvent) (s : State) :
    (radioStep e s).chip.opHigh = s.chip.opHigh := by
  simp only [radioStep]
  split <;> [(cases e <;> rfl); rfl]

@[simp] theorem radioStep_chip_frfMsb (e : RadioEvent) (s : State) :
    (radioStep e s).chip.frfMsb = s.chip.frfMsb := by
  simp only [radioStep]
  split <;> [(cases e <;> rfl); rfl]

@[simp] theorem radioStep_chip_frfMid (e : RadioEvent) (s : State) :
    (radioStep e s).chip.frfMid = s.chip.frfMid := by
  simp only [radioStep]
  split <;> [(cases e <;> rfl); rfl]

@[simp] theorem radioStep_chip_frfLsb (e : RadioEvent) (s : State) :
    (radioStep e s).chip.frfLsb = s.chip.frfLsb := by
  simp only [radioStep]
  split <;> [(cases e <;> rfl); rfl]

@[simp] theorem radioStep_chip_paConfig (e : RadioEvent) (s : State) :
    (radioStep e s).chip.paConfig = s.chip.paConfig := by
  simp only [radioStep]
  split <;> [(cases e <;> rfl); rfl]

@[simp] theorem radioStep_chip_lna (e : RadioEvent) (s : State) :
    (radioStep e s).chip.lna = s.chip.lna := by
  simp only [radioStep]
  split <;> [(cases e <;> rfl); rfl]

@[simp] theorem radioStep_chip_fifoAddrPtr (e : RadioEvent) (s : State) :
    (radioStep e s).chip.fifoAddrPtr = s.chip.fifoAddrPtr := by
  simp only [radioStep]
  split <;> [(cases e <;> rfl); rfl]

@[simp] theorem radioStep_chip_fifoTxBase (e : RadioEvent) (s : State) :
    (radioStep e s).chip.fifoTxBase = s.chip.fifoTxBase := by
  simp only [radioStep]
  split <;> [(cases e <;> rfl); rfl]

@[simp] theorem radioStep_chip_fifoRxBase (e : RadioEvent) (s : State) :
    (radioStep e s).chip.fifoRxBase = s.chip.fifoRxBase := by
  simp only [radioStep]
  split <;> [(cases e <;> rfl); rfl]

@[simp] theorem radioStep_chip_modemConfig1 (e : RadioEvent) (s : State) :
    (radioStep e s).chip.modemConfig1 = s.chip.modemConfig1 := by
  simp only [radioStep]
  split <;> [(cases e <;> rfl); rfl]

@[simp] theorem radioStep_chip_modemConfig2 (e : RadioEvent) (s : State) :
    (radioStep e s).chip.modemConfig2 = s.chip.modemConfig2 := by
  simp only [radioStep]
  split <;> [(cases e <;> rfl); rfl]

@[simp] theorem radioStep_chip_symbTimeout (e : RadioEvent) (s : State) :
    (radioStep e s).chip.symbTimeout = s.chip.symbTimeout := by
  simp only [radioStep]
  split <;> [(cases e <;> rfl); rfl]

@[simp] theorem radioStep_chip_preambleMsb (e : RadioEvent) (s : State) :
    (radioStep e s).chip.preambleMsb = s.chip.preambleMsb := by
  simp only [radioStep]
  split <;> [(cases e <;> rfl); rfl]

@[simp] theorem radioStep_chip_preambleLsb (e : RadioEvent) (s : State) :
    (radioStep e s).chip.preambleLsb = s.chip.preambleLsb := by
  simp only [radioStep]
  split <;> [(cases e <;> rfl); rfl]

@[simp] theorem radioStep_chip_payloadLength (e : RadioEvent) (s : State) :
    (radioStep e s).chip.payloadLength = s.chip.payloadLength := by
  simp only [radioStep]
  split <;> [(cases e <;> rfl); rfl]

@[simp] theorem radioStep_chip_dioMapping (e : RadioEvent) (s : State) :
    (radioStep e s).chip.dioMapping = s.chip.dioMapping := by
  simp only [radioStep]
  split <;> [(cases e <;> rfl); rfl]

@[simp] theorem radioSteps_chip_mode (es : List RadioEvent) (s : State) :
    (radioSteps es s).chip.mode = s.chip.mode := by
  induction es generalizing s with
  | nil => rfl
  | cons e es ih => simp [radioSteps, ih]

@[simp] theorem radioSteps_chip_opHigh (es : List RadioEvent) (s : State) :
    (radioSteps es s).chip.opHigh = s.chip.opHigh := by
  induction es generalizing s with
  | nil => rfl
  | cons e es ih => simp [radioSteps, ih]

@[simp] theorem radioSteps_chip_frfMsb (es : List RadioEvent) (s : State) :
    (radioSteps es s).chip.frfMsb = s.chip.frfMsb := by
  induction es generalizing s with
  | nil => rfl
  | cons e es ih => simp [radioSteps, ih]

@[simp] theorem radioSteps_chip_frfMid (es : List RadioEvent) (s : State) :
    (radioSteps es s).chip.frfMid = s.chip.frfMid := by
  induction es generalizing s with
  | nil => rfl
  | cons e es ih => simp [radioSteps, ih]

@[simp] theorem radioSteps_chip_frfLsb (es : List RadioEvent) (s : State) :
    (radioSteps es s).chip.frfLsb = s.chip.frfLsb := by
  induction es generalizing s with
  | nil => rfl
  | cons e es ih => simp [radioSteps, ih]

@[simp] theorem radioSteps_chip_paConfig (es : List RadioEvent) (s : State) :
    (radioSteps es s).chip.paConfig = s.chip.paConfig := by
  induction es generalizing s with
  | nil => rfl
  | cons e es ih => simp [radioSteps, ih]

@[simp] theorem radioSteps_chip_lna (es : List RadioEvent) (s : State) :
    (radioSteps es s).chip.lna = s.chip.lna := by
  induction es generalizing s with
  | nil => rfl
  | cons e es ih => simp [radioSteps, ih]

@[simp] theorem radioSteps_chip_fifoAddrPtr (es : List RadioEvent) (s : State) :
    (radioSteps es s).chip.fifoAddrPtr = s.chip.fifoAddrPtr := by
  induction es generalizing s with
  | nil => rfl
  | cons e es ih => simp [radioSteps, ih]

@[simp] theorem radioSteps_chip_fifoTxBase (es : List RadioEvent) (s : State) :
    (radioSteps es s).chip.fifoTxBase = s.chip.fifoTxBase := by
  induction es generalizing s with
  | nil => rfl
  | cons e es ih => simp [radioSteps, ih]

@[simp] theorem radioSteps_chip_fifoRxBase (es : List RadioEvent) (s : State) :
    (radioSteps es s).chip.fifoRxBase = s.chip.fifoRxBase := by
  induction es generalizing s with
  | nil => rfl
  | cons e es ih => simp [radioSteps, ih]

@[simp] theorem radioSteps_chip_modemConfig1 (es : List RadioEvent) (s : State) :
    (radioSteps es s).chip.modemConfig1 = s.chip.modemConfig1 := by
  induction es generalizing s with
  | nil => rfl
  | cons e es ih => simp [radioSteps, ih]

@[simp] theorem radioSteps_chip_modemConfig2 (es : List RadioEvent) (s : State) :
    (radioSteps es s).chip.modemConfig2 = s.chip.modemConfig2 := by
  induction es generalizing s with
  | nil => rfl
  | cons e es ih => simp [radioSteps, ih]

@[simp] theorem radioSteps_chip_symbTimeout (es : List RadioEvent) (s : State) :
    (radioSteps es s).chip.symbTimeout = s.chip.symbTimeout := by
  induction es generalizing s with
  | nil => rfl
  | cons e es ih => simp [radioSteps, ih]

@[simp] theorem radioSteps_chip_preambleMsb (es : List RadioEvent) (s : State) :
    (radioSteps es s).chip.preambleMsb = s.chip.preambleMsb := by
  induction es generalizing s with
  | nil => rfl
  | cons e es ih => simp [radioSteps, ih]

@[simp] theorem radioSteps_chip_preambleLsb (es : List RadioEvent) (s : State) :
    (radioSteps es s).chip.preambleLsb = s.chip.preambleLsb := by
  induction es generalizing s with
  | nil => rfl
  | cons e es ih => simp [radioSteps, ih]

@[simp] theorem radioSteps_chip_payloadLength (es : List RadioEvent) (s : State) :
    (radioSteps es s).chip.payloadLength = s.chip.payloadLength := by
  induction es generalizing s with
  | nil => rfl
  | cons e es ih => simp [radioSteps, ih]

@[simp] theorem radioSteps_chip_dioMapping (es : List RadioEvent) (s : State) :
    (radioSteps es s).chip.dioMapping = s.chip.dioMapping := by
  induction es generalizing s with
  | nil => rfl
  | cons e es ih => simp [radioSteps, ih]

/-! ### The state a micro-step starts from -/

@[simp] theorem State.afterRadio_cfg (s : State) : s.afterRadio.cfg = s.cfg := by simp [State.afterRadio]
@[simp] theorem State.afterRadio_radio (s : State) : s.afterRadio.radio = s.radio := by simp [State.afterRadio]
@[simp] theorem State.afterRadio_txBuf (s : State) : s.afterRadio.txBuf = s.txBuf := by simp [State.afterRadio]
@[simp] theorem State.afterRadio_status (s : State) : s.afterRadio.status = s.status := by simp [State.afterRadio]
@[simp] theorem State.afterRadio_rdata (s : State) : s.afterRadio.rdata = s.rdata := by simp [State.afterRadio]
@[simp] theorem State.afterRadio_frf (s : State) : s.afterRadio.frf = s.frf := by simp [State.afterRadio]
@[simp] theorem State.afterRadio_packet (s : State) : s.afterRadio.packet = s.packet := by simp [State.afterRadio]
@[simp] theorem State.afterRadio_mode (s : State) : s.afterRadio.mode = s.mode := by simp [State.afterRadio]
@[simp] theorem State.afterRadio_configured (s : State) : s.afterRadio.configured = s.configured := by simp [State.afterRadio]
@[simp] theorem State.afterRadio_phase (s : State) : s.afterRadio.phase = s.phase := by simp [State.afterRadio]
@[simp] theorem State.afterRadio_csN (s : State) : s.afterRadio.csN = s.csN := by simp [State.afterRadio]
@[simp] theorem State.afterRadio_resetN (s : State) : s.afterRadio.resetN = s.resetN := by simp [State.afterRadio]
@[simp] theorem State.afterRadio_busLog (s : State) : s.afterRadio.busLog = s.busLog := by simp [State.afterRadio]
@[simp] theorem State.afterRadio_inbox (s : State) : s.afterRadio.inbox = s.inbox := by simp [State.afterRadio]
@[simp] theorem State.afterRadio_env (s : State) : s.afterRadio.env = s.env.tail := by simp [State.afterRadio]
@[simp] theorem State.afterRadio_free (s : State) : s.afterRadio.free = s.free := by simp [State.afterRadio]

@[simp] theorem State.afterRadio_chip_mode (s : State) : s.afterRadio.chip.mode = s.chip.mode := by
  simp [State.afterRadio]

@[simp] theorem State.afterRadio_chip_opHigh (s : State) : s.afterRadio.chip.opHigh = s.chip.opHigh := by
  simp [State.afterRadio]

@[simp] theorem State.afterRadio_chip_frfMsb (s : State) : s.afterRadio.chip.frfMsb = s.chip.frfMsb := by
  simp [State.afterRadio]

@[simp] theorem State.afterRadio_chip_frfMid (s : State) : s.afterRadio.chip.frfMid = s.chip.frfMid := by
  simp [State.afterRadio]

@[simp] theorem State.afterRadio_chip_frfLsb (s : State) : s.afterRadio.chip.frfLsb = s.chip.frfLsb := by
  simp [State.afterRadio]

@[simp] theorem State.afterRadio_chip_paConfig (s : State) : s.afterRadio.chip.paConfig = s.chip.paConfig := by
  simp [State.afterRadio]

@[simp] theorem State.afterRadio_chip_lna (s : State) : s.afterRadio.chip.lna = s.chip.lna := by
  simp [State.afterRadio]

@[simp] theorem State.afterRadio_chip_fifoAddrPtr (s : State) : s.afterRadio.chip.fifoAddrPtr = s.chip.fifoAddrPtr := by
  simp [State.afterRadio]

@[simp] theorem State.afterRadio_chip_fifoTxBase (s : State) : s.afterRadio.chip.fifoTxBase = s.chip.fifoTxBase := by
  simp [State.afterRadio]

@[simp] theorem State.afterRadio_chip_fifoRxBase (s : State) : s.afterRadio.chip.fifoRxBase = s.chip.fifoRxBase := by
  simp [State.afterRadio]

@[simp] theorem State.afterRadio_chip_modemConfig1 (s : State) : s.afterRadio.chip.modemConfig1 = s.chip.modemConfig1 := by
  simp [State.afterRadio]

@[simp] theorem State.afterRadio_chip_modemConfig2 (s : State) : s.afterRadio.chip.modemConfig2 = s.chip.modemConfig2 := by
  simp [State.afterRadio]

@[simp] theorem State.afterRadio_chip_symbTimeout (s : State) : s.afterRadio.chip.symbTimeout = s.chip.symbTimeout := by
  simp [State.afterRadio]

@[simp] theorem State.afterRadio_chip_preambleMsb (s : State) : s.afterRadio.chip.preambleMsb = s.chip.preambleMsb := by
  simp [State.afterRadio]

@[simp] theorem State.afterRadio_chip_preambleLsb (s : State) : s.afterRadio.chip.preambleLsb = s.chip.preambleLsb := by
  simp [State.afterRadio]

@[simp] theorem State.afterRadio_chip_payloadLength (s : State) : s.afterRadio.chip.payloadLength = s.chip.payloadLength := by
  simp [State.afterRadio]

@[simp] theorem State.afterRadio_chip_dioMapping (s : State) : s.afterRadio.chip.dioMapping = s.chip.dioMapping := by
  simp [State.afterRadio]

@[simp] theorem radioStep_chip_lora (e : RadioEvent) (s : State) (c : Cfg) :
    (radioStep e s).chip.lora c = s.chip.lora c := by simp [Chip.lora]

@[simp] theorem State.afterRadio_chip_lora (s : State) (c : Cfg) : s.afterRadio.chip.lora c = s.chip.lora c := by
  simp [Chip.lora]

@[simp] theorem State.afterRadio_busy (s : State) : s.afterRadio.busy = s.busy := by simp [State.busy]

/-! ### The FIFO -/

theorem radioStep_fifo_wf {s : State} (e : RadioEvent) (h : s.chip.fifo.wf 256 = true) :
    (radioStep e s).chip.fifo.wf 256 = true := by
  simp only [radioStep]
  split
  · cases e with
    | txDone => exact h
    | rxPacket data rssi snr bad => exact Mem.wf_storeRun _ _ h
    | irqOther m => exact h
  · exact h

theorem radioSteps_fifo_wf {s : State} (es : List RadioEvent) (h : s.chip.fifo.wf 256 = true) :
    (radioSteps es s).chip.fifo.wf 256 = true := by
  induction es generalizing s with
  | nil => exact h
  | cons e es ih => exact ih (radioStep_fifo_wf e h)

/-! ### With no Radio step before it, a micro-step starts from the state itself -/

theorem State.afterRadio_quiet {s : State} (h : s.nextDraw.events = []) :
    s.afterRadio = { s with env := s.env.tail } := by
  simp [State.afterRadio, h, radioSteps]

/-! ### What the Radio's steps depend on, and the history they only add to -/

/-- The Radio's steps see the chip, the configuration record, RESET_N, whether the Sequencer stands in the reset pulse,
and the transmit history, and nothing else. -/
theorem radioStep_congr (e : RadioEvent) {s s' : State} (hc : s'.chip = s.chip) (hg : s'.cfg = s.cfg)
    (hr : s'.resetN = s.resetN) (hp : s'.phase.inReset = s.phase.inReset) (hl : s'.txLog = s.txLog) :
    (radioStep e s').chip = (radioStep e s).chip ∧ (radioStep e s').txLog = (radioStep e s).txLog := by
  have he : radioEnabled e s' = radioEnabled e s := by simp only [radioEnabled, hc, hg, hr, hp]
  simp only [radioStep, he]
  split
  · cases e <;> simp [radioTxDone, radioRxPacket, radioIrqOther, hc, hg, hl]
  · exact ⟨hc, hl⟩

theorem radioSteps_congr (es : List RadioEvent) {s s' : State} (hc : s'.chip = s.chip) (hg : s'.cfg = s.cfg)
    (hr : s'.resetN = s.resetN) (hp : s'.phase.inReset = s.phase.inReset) (hl : s'.txLog = s.txLog) :
    (radioSteps es s').chip = (radioSteps es s).chip ∧ (radioSteps es s').txLog = (radioSteps es s).txLog := by
  induction es generalizing s s' with
  | nil => exact ⟨hc, hl⟩
  | cons e es ih =>
    obtain ⟨h1, h2⟩ := radioStep_congr e hc hg hr hp hl
    exact ih h1 (by simp [hg]) (by simp [hr]) (by simp [hp]) h2

/-- Inside the reset pulse, and with RESET_N asserted or no chip attached, no event happens (42_mode.md R132). -/
theorem radioSteps_disabled (es : List RadioEvent) {s : State}
    (h : s.phase.inReset = true ∨ s.resetN = false ∨ s.cfg.chipPresent = false) : radioSteps es s = s := by
  induction es with
  | nil => rfl
  | cons e es ih =>
    have he : radioEnabled e s = false := by rcases h with h | h | h <;> simp [radioEnabled, h]
    simpa [radioSteps, radioStep, he] using ih

/-- The chip and the transmit history at a micro-step, after the Radio's steps before it. -/
theorem State.afterRadio_chip (s : State) : s.afterRadio.chip = (radioSteps s.nextDraw.events s).chip :=
  (radioSteps_congr (s := s) (s' := { s with env := s.env.tail }) _ rfl rfl rfl rfl rfl).1

theorem State.afterRadio_txLog (s : State) : s.afterRadio.txLog = (radioSteps s.nextDraw.events s).txLog :=
  (radioSteps_congr (s := s) (s' := { s with env := s.env.tail }) _ rfl rfl rfl rfl rfl).2

theorem radioStep_txLog_prefix (e : RadioEvent) (s : State) : s.txLog <+: (radioStep e s).txLog := by
  simp only [radioStep]
  split
  · cases e <;> simp [radioTxDone, radioRxPacket, radioIrqOther]
  · exact List.prefix_rfl

theorem radioSteps_txLog_prefix (es : List RadioEvent) (s : State) : s.txLog <+: (radioSteps es s).txLog := by
  induction es generalizing s with
  | nil => exact List.prefix_rfl
  | cons e es ih => exact (radioStep_txLog_prefix e s).trans (ih _)

end Sys2Proof.Machine
end

