-- ==== Sys2Proof/Laws/Sequencer.lean ====
section
/-! SUPPORT. The Sequencer: every micro-step brings a command nearer to its end, a run to Idle is its first micro-step
followed by the run of the rest, and a property that every micro-step keeps holds when the command ends. -/

namespace Sys2Proof.Machine

/-! ### Every command ends (30_encoding.md R104) -/

theorem memWrite_done_phase {d : Draw} {a : RegAddr} {v w : Byte} {s t : State} (h : memWrite d a v s = .done w t) :
    t.phase = s.phase := (transact_frameOnly (busFrame_done h).2).1.phase

/-- A frame followed by a jump: the next state stands at the jump's target, or the command has ended. -/
theorem andThen_bound {f : FrameResult} {k : Byte → State → Outcome} {t : State} {n : Nat} (hn : 0 < n)
    (hk : ∀ v s, k v s = .next t → t.phase.bound < n) (h : f.andThen k = .next t) : t.phase.bound < n := by
  cases f with
  | done v s => exact hk v s h
  | failed s => cases h; simpa [Phase.bound] using hn
  | refused r => cases h

theorem afterWrites_bound (ws : List (Reg × Byte)) : (afterWrites ws).bound ≤ 5 + ws.length := by
  cases ws <;> simp [afterWrites, Phase.bound]

theorem payloadFrom_bound (n : Byte) (i : Nat) : (payloadFrom n i).bound ≤ 11 + (n.toNat - i) := by
  simp only [payloadFrom]
  split <;> simp only [Phase.bound] <;> omega

theorem payloadFrom_bound_lt {n : Byte} {i : Nat} (h : ¬ i < n.toNat) : (payloadFrom n i).bound < 11 := by
  simp [payloadFrom, h, Phase.bound]

theorem readoutFrom_bound (n : Byte) (i : Nat) : (readoutFrom n i).bound ≤ 5 + (n.toNat - i) := by
  simp only [readoutFrom]
  split <;> simp only [Phase.bound] <;> omega

theorem configWrites_length (c : Cfg) (rc : RadioConfig) (n : BitVec 24) (code : BitVec 4) :
    (configWrites c rc n code).length = 12 := rfl

/-- What a valid RadioConfig gives (42_mode.md R131, R133). -/
theorem configPlan_some {c : Cfg} {rc : RadioConfig} {n : BitVec 24} {ws : List (Reg × Byte)}
    (h : configPlan c rc = some (n, ws)) :
    synthesize? rc.freq.toNat c.xtalHz c.resBits = some n ∧
      ∃ code, c.bwCode? rc.bw.toNat = some code ∧ inRanges c rc = true ∧ ws = configWrites c rc n code := by
  simp only [configPlan] at h
  split at h
  · next n' code hn hc =>
    split at h
    · next hr =>
      cases h
      exact ⟨hn, code, hc, hr, rfl⟩
    · cases h
  · cases h

/-- Every micro-step of a busy Sequencer brings the command nearer to its end. -/
theorem perform_bound {d : Draw} {s t : State} (hb : s.phase ≠ .idle) (h : perform d s = .next t) :
    t.phase.bound < s.phase.bound := by
  cases hp : s.phase <;> simp only [perform, hp] at h
  case idle => exact absurd hp hb
  case rdregFrame a =>
    simp only [rdregFrame] at h
    split at h <;> first | (cases h; simp [Phase.bound]) | cases h
  case cfgValidate =>
    simp only [cfgValidate] at h
    split at h
    · cases h; simp [Phase.bound]
    · next n ws hc =>
      obtain ⟨-, code, -, -, rfl⟩ := configPlan_some hc
      cases h; simp [Phase.bound, configWrites_length]
  case cfgSleepSettle ws =>
    cases h
    exact lt_of_le_of_lt (afterWrites_bound ws) (by simp only [Phase.bound]; omega)
  case cfgWrites ws =>
    cases ws with
    | nil => cases h; simp [Phase.bound]
    | cons w rest =>
      simp only [cfgWrite] at h
      split at h
      · cases h; simp [Phase.bound]
      · refine andThen_bound (by simp [Phase.bound]) (fun v s' hk => ?_) h
        cases hk
        exact lt_of_le_of_lt (afterWrites_bound rest) (by simp only [Phase.bound, List.length_cons]; omega)
  case sendPointer n =>
    refine andThen_bound (by simp [Phase.bound]) (fun v s' hk => ?_) h
    cases hk
    exact lt_of_le_of_lt (payloadFrom_bound n 0) (by simp only [Phase.bound]; omega)
  case sendPayload n i =>
    refine andThen_bound (by simp [Phase.bound]) (fun v s' hk => ?_) h
    cases hk
    by_cases hi : i + 1 < n.toNat
    · exact lt_of_le_of_lt (payloadFrom_bound n (i + 1)) (by simp only [Phase.bound]; omega)
    · exact lt_of_lt_of_le (payloadFrom_bound_lt hi) (by simp only [Phase.bound]; omega)
  case pollReadCount =>
    refine andThen_bound (by simp [Phase.bound]) (fun v s' hk => ?_) h
    cases hk
    have := v.isLt
    exact lt_of_le_of_lt (readoutFrom_bound v 0) (by simp only [Phase.bound]; omega)
  case pollReadout n i =>
    refine andThen_bound (by simp [Phase.bound]) (fun v s' hk => ?_) h
    cases hk
    by_cases hi : i + 1 < n.toNat
    · exact lt_of_le_of_lt (readoutFrom_bound n (i + 1)) (by simp only [Phase.bound]; omega)
    · simp only [readoutFrom, hi, if_false, State.goto_phase, Phase.bound]; omega
  case wrregGuard a v =>
    simp only [wrregGuard] at h
    split at h
    · cases h; simp [Phase.bound]
    · split at h <;> (cases h; simp [Phase.bound])
  case synthEval =>
    simp only [synthEval] at h
    split at h <;> (cases h; simp [Phase.bound])
  case sendWait =>
    simp only [sendWait] at h
    split at h <;> (cases h; simp [Phase.bound])
  case pollWait t =>
    simp only [pollWait] at h
    split at h
    · cases h; simp [Phase.bound]
    · cases h; split <;> simp [Phase.bound]
  case pollTest v =>
    cases h
    simp only [crcVerdict]
    split
    · simp [Phase.bound]
    · split <;> simp [Phase.bound]
  case pollMap t =>
    refine andThen_bound (by simp [Phase.bound]) (fun v s' hk => ?_) h
    cases hk
    simp only [State.goto_phase]
    split <;> simp [Phase.bound]
  case cfgIdentify =>
    refine andThen_bound (by simp [Phase.bound]) (fun v s' hk => ?_) h
    split at hk <;> (cases hk; simp [Phase.bound])
  all_goals
    first
    | (cases h; simp [Phase.bound])
    | (refine andThen_bound (by simp [Phase.bound]) (fun v s' hk => ?_) h
       cases hk; simp [Phase.bound])

theorem microStep_bound {s t : State} (hb : s.phase ≠ .idle) (h : microStep s = .next t) :
    t.phase.bound < s.phase.bound := by
  simp only [microStep] at h
  split at h
  · have := perform_bound (by simpa using hb) h
    simpa using this
  · cases h

theorem bound_eq_zero {p : Phase} (h : p.bound = 0) : p = .idle := by
  cases p <;> simp [Phase.bound] at h; rfl

/-- With enough fuel the run does not depend on it. -/
theorem runFor_enough {k j : Nat} {s : State} (hk : s.phase.bound ≤ k) (hj : s.phase.bound ≤ j) :
    runFor k s = runFor j s := by
  induction k generalizing s j with
  | zero =>
    have hi : s.phase = .idle := bound_eq_zero (by omega)
    cases j <;> simp [runFor, State.busy, hi]
  | succ k ih =>
    cases j with
    | zero =>
      have hi : s.phase = .idle := bound_eq_zero (by omega)
      simp [runFor, State.busy, hi]
    | succ j =>
      simp only [runFor]
      split
      · next hb =>
        cases hm : microStep s with
        | next t =>
          have := microStep_bound ((State.busy_iff s).mp hb) hm
          exact ih (by omega) (by omega)
        | fault r => rfl
        | refused r => rfl
      · rfl

/-- At Idle there is nothing left to run. -/
theorem runToIdle_idle {s : State} (h : s.phase = .idle) : runToIdle s = .next s := by
  simp [runToIdle, h, Phase.bound, runFor]

/-- A run to Idle is its first micro-step and the run of the rest. -/
theorem runToIdle_step {s : State} (h : s.phase ≠ .idle) :
    runToIdle s =
      match microStep s with
      | .next t => runToIdle t
      | .fault r => .fault r
      | .refused r => .refused r := by
  have hpos : s.phase.bound ≠ 0 := fun h0 => h (bound_eq_zero h0)
  obtain ⟨k, hk⟩ : ∃ k, s.phase.bound = k + 1 := ⟨s.phase.bound - 1, by omega⟩
  simp only [runToIdle, hk, runFor, (State.busy_iff s).mpr h, if_true]
  cases hm : microStep s with
  | next t =>
    have := microStep_bound h hm
    exact runFor_enough (by omega) le_rfl
  | fault r => rfl
  | refused r => rfl

theorem runToIdle_next {s t : State} (h : s.phase ≠ .idle) (hm : microStep s = .next t) :
    runToIdle s = runToIdle t := by
  rw [runToIdle_step h, hm]

/-- A property that every micro-step keeps, and under which every micro-step has a next state, makes the command end,
and holds at its end. -/
theorem runToIdle_total {I : State → Prop}
    (hI : ∀ s, I s → s.phase ≠ .idle → ∃ t, microStep s = .next t ∧ I t) {s : State} (hs : I s) :
    ∃ t, runToIdle s = .next t ∧ t.phase = .idle ∧ I t := by
  induction hn : s.phase.bound using Nat.strong_induction_on generalizing s with
  | _ n ih =>
    by_cases hb : s.phase = .idle
    · exact ⟨s, runToIdle_idle hb, hb, hs⟩
    · obtain ⟨t, hm, ht⟩ := hI s hs hb
      have hlt := microStep_bound hb hm
      obtain ⟨u, hu⟩ := ih t.phase.bound (by omega) ht rfl
      exact ⟨u, by rw [runToIdle_next hb hm]; exact hu.1, hu.2⟩

/-- A property that every completed micro-step keeps holds when the command has ended. -/
theorem runToIdle_keeps {I : State → Prop}
    (hI : ∀ s t, I s → s.phase ≠ .idle → microStep s = .next t → I t) {s t : State} (hs : I s)
    (h : runToIdle s = .next t) : t.phase = .idle ∧ I t := by
  induction hn : s.phase.bound using Nat.strong_induction_on generalizing s with
  | _ n ih =>
    by_cases hb : s.phase = .idle
    · rw [runToIdle_idle hb] at h
      cases h
      exact ⟨hb, hs⟩
    · rw [runToIdle_step hb] at h
      cases hm : microStep s with
      | next u =>
        rw [hm] at h
        have hlt := microStep_bound hb hm
        exact ih u.phase.bound (by omega) (hI s u hs hb hm) h rfl
      | fault r => rw [hm] at h; cases h
      | refused r => rw [hm] at h; cases h

/-- A run that is refused was refused by a micro-step in a state the property holds of. -/
theorem runToIdle_refused {I : State → Prop} {Q : Refusal → Prop}
    (hI : ∀ s t, I s → s.phase ≠ .idle → microStep s = .next t → I t)
    (hQ : ∀ s r, I s → s.phase ≠ .idle → microStep s = .refused r → Q r) {s : State} (hs : I s) {r : Refusal}
    (h : runToIdle s = .refused r) : Q r := by
  induction hn : s.phase.bound using Nat.strong_induction_on generalizing s with
  | _ n ih =>
    by_cases hb : s.phase = .idle
    · rw [runToIdle_idle hb] at h
      cases h
    · rw [runToIdle_step hb] at h
      cases hm : microStep s with
      | next u =>
        rw [hm] at h
        have hlt := microStep_bound hb hm
        exact ih u.phase.bound (by omega) (hI s u hs hb hm) h rfl
      | fault r => rw [hm] at h; cases h
      | refused r' => rw [hm] at h; cases h; exact hQ s _ hs hb hm

/-! ### The draws -/

/-- The draw a micro-step takes is one of the script's, or the quiet one. -/
theorem State.nextDraw_mem (s : State) : s.nextDraw ∈ s.env ∨ s.nextDraw = Draw.quiet := by
  cases h : s.env with
  | nil => exact .inr (by simp [State.nextDraw, h])
  | cons d ds => exact .inl (by simp [State.nextDraw, h])

theorem State.hostQuiet.nextDraw {s : State} (h : s.hostQuiet) : s.nextDraw.hostWrites = [] := by
  rcases s.nextDraw_mem with hm | hq
  · exact h _ hm
  · simp [hq, Draw.quiet]

theorem State.busSound.nextDraw {s : State} (h : s.busSound) : s.nextDraw.fate = .completes := by
  rcases s.nextDraw_mem with hm | hq
  · exact h _ hm
  · simp [hq, Draw.quiet]

theorem State.airQuiet.nextDraw {s : State} (h : s.airQuiet) : s.nextDraw.events = [] := by
  rcases s.nextDraw_mem with hm | hq
  · exact h _ hm
  · simp [hq, Draw.quiet]

/-- A premise about every draw of the script holds of what is left of it. -/
theorem State.hostQuiet.tail {s t : State} (h : s.hostQuiet) (ht : t.env = s.env.tail) : t.hostQuiet := by
  intro d hd
  rw [ht] at hd
  exact h d (List.mem_of_mem_tail hd)

theorem State.busSound.tail {s t : State} (h : s.busSound) (ht : t.env = s.env.tail) : t.busSound := by
  intro d hd
  rw [ht] at hd
  exact h d (List.mem_of_mem_tail hd)

theorem State.airQuiet.tail {s t : State} (h : s.airQuiet) (ht : t.env = s.env.tail) : t.airQuiet := by
  intro d hd
  rw [ht] at hd
  exact h d (List.mem_of_mem_tail hd)

/-- With no Host write in the way a micro-step is what its position says, after the Radio's steps. -/
theorem microStep_eq {s : State} (h : s.nextDraw.hostWrites = []) :
    microStep s = perform s.nextDraw s.afterRadio := by
  simp [microStep, h]

/-- A micro-step with a next state had no Host write in the way. -/
theorem microStep_next {s t : State} (h : microStep s = .next t) :
    s.nextDraw.hostWrites = [] ∧ perform s.nextDraw s.afterRadio = .next t := by
  simp only [microStep] at h
  split at h
  · next hq => exact ⟨hq, h⟩
  · cases h

/-! ### What no micro-step changes -/

/-- The parts of the machine no micro-step changes, and the history it only adds to. -/
structure MicroKeeps (s t : State) : Prop where
  cfg : t.cfg = s.cfg
  radio : t.radio = s.radio
  txBuf : t.txBuf = s.txBuf
  inbox : t.inbox = s.inbox
  env : t.env = s.env
  txLog : t.txLog = s.txLog
  busLog : s.busLog <+: t.busLog

theorem FrameOnly.micro {s t : State} (h : FrameOnly s t) (hb : s.busLog <+: t.busLog) : MicroKeeps s t :=
  ⟨h.cfg, h.radio, h.txBuf, h.inbox, h.env, h.txLog, hb⟩

/-- A frame followed by something that keeps these parts keeps them. -/
theorem busFrame_micro {d : Draw} {ab db : Byte} {s t : State} {k : Byte → State → Outcome}
    (hk : ∀ v u t, k v u = .next t → MicroKeeps u t) (h : (busFrame d ab db s).andThen k = .next t) :
    MicroKeeps s t := by
  rcases busFrame_andThen h with ⟨v, u, -, -, hf, -, hb, hn⟩ | ⟨u, -, -, hf, hb, rfl⟩
  · have h1 := hf.micro (by rw [hb]; exact List.prefix_append _ _)
    have h2 := hk v u t hn
    exact ⟨h2.cfg.trans h1.cfg, h2.radio.trans h1.radio, h2.txBuf.trans h1.txBuf, h2.inbox.trans h1.inbox,
      h2.env.trans h1.env, h2.txLog.trans h1.txLog, h1.busLog.trans h2.busLog⟩
  · have h1 := hf.micro (by rw [hb])
    exact ⟨h1.cfg, h1.radio, h1.txBuf, h1.inbox, h1.env, h1.txLog, h1.busLog⟩

theorem perform_keeps {d : Draw} {s t : State} (h : perform d s = .next t) : MicroKeeps s t := by
  cases hp : s.phase <;> simp only [perform, hp] at h
  case rdregFrame a =>
    simp only [rdregFrame] at h
    cases hf : memRead d a s with
    | done v u =>
      rw [hf] at h; cases h
      obtain ⟨h1, h2, h3⟩ := transact_frameOnly (busFrame_done hf).2
      have h0 := h1.micro (by rw [h3]; exact List.prefix_append _ _)
      exact ⟨h0.cfg, h0.radio, h0.txBuf, h0.inbox, h0.env, h0.txLog, h0.busLog⟩
    | failed u =>
      rw [hf] at h; cases h
      rcases busFrame_failed hf with rfl | ⟨v, hv⟩
      · exact ⟨rfl, rfl, rfl, rfl, rfl, rfl, List.prefix_rfl⟩
      · obtain ⟨h1, h2, -⟩ := exchange_frameOnly hv
        have h0 := h1.micro (by rw [h2])
        exact ⟨h0.cfg, h0.radio, h0.txBuf, h0.inbox, h0.env, h0.txLog, h0.busLog⟩
    | refused r => rw [hf] at h; cases h
  case wrregGuard a v =>
    simp only [wrregGuard] at h
    split at h
    · cases h; exact ⟨rfl, rfl, rfl, rfl, rfl, rfl, List.prefix_rfl⟩
    · split at h <;> (cases h; exact ⟨rfl, rfl, rfl, rfl, rfl, rfl, List.prefix_rfl⟩)
  case synthEval =>
    simp only [synthEval] at h
    split at h <;> (cases h; exact ⟨rfl, rfl, rfl, rfl, rfl, rfl, List.prefix_rfl⟩)
  case cfgValidate =>
    simp only [cfgValidate] at h
    split at h <;> (cases h; exact ⟨rfl, rfl, rfl, rfl, rfl, rfl, List.prefix_rfl⟩)
  case cfgWrites ws =>
    simp only [cfgWrite] at h
    split at h
    · cases h; exact ⟨rfl, rfl, rfl, rfl, rfl, rfl, List.prefix_rfl⟩
    · split at h
      · cases h; exact ⟨rfl, rfl, rfl, rfl, rfl, rfl, List.prefix_rfl⟩
      · exact busFrame_micro (fun v u t hk => by cases hk; exact ⟨rfl, rfl, rfl, rfl, rfl, rfl, List.prefix_rfl⟩) h
  case cfgIdentify =>
    refine busFrame_micro (fun v u t hk => ?_) h
    split at hk <;> (cases hk; exact ⟨rfl, rfl, rfl, rfl, rfl, rfl, List.prefix_rfl⟩)
  case sendWait =>
    simp only [sendWait] at h
    split at h <;> (cases h; exact ⟨rfl, rfl, rfl, rfl, rfl, rfl, List.prefix_rfl⟩)
  case pollWait ms =>
    simp only [pollWait] at h
    split at h <;> (cases h; exact ⟨rfl, rfl, rfl, rfl, rfl, rfl, List.prefix_rfl⟩)
  all_goals
    first
    | (cases h; exact ⟨rfl, rfl, rfl, rfl, rfl, rfl, List.prefix_rfl⟩)
    | exact busFrame_micro (fun v u t hk => by cases hk; exact ⟨rfl, rfl, rfl, rfl, rfl, rfl, List.prefix_rfl⟩) h

end Sys2Proof.Machine
end

