-- ==== Sys2Proof/Laws/Invariant.lean ====
section
/-! SUPPORT. What a bus frame can do to the chip's mode and memories, and that a micro-step keeps the invariant. -/

namespace Sys2Proof.Machine

/-! ### A frame and the chip -/

theorem Chip.store_mode (r : Reg) (v : Byte) (c : Chip) : (c.store r v).mode = c.mode ∧ (c.store r v).opHigh = c.opHigh := by
  cases r <;> exact ⟨rfl, rfl⟩

theorem Chip.store_fifo_wf (r : Reg) (v : Byte) (c : Chip) (h : c.fifo.wf Config.fifoSize = true) :
    (c.store r v).fifo.wf Config.fifoSize = true := by
  cases r <;> first | exact h | exact Mem.wf_write v c.fifoAddrPtr.isLt h

/-- A write frame to another register than the mode register leaves the mode and the long-range bit alone. -/
theorem answerWrite_other {a : RegAddr} {v : Byte} {s u : State} (ha : a ≠ s.cfg.map.addr .opMode)
    (h : answerWrite a v s = .ok u) :
    u.chip.mode = s.chip.mode ∧ u.chip.opHigh = s.chip.opHigh ∧
      (s.chip.fifo.wf Config.fifoSize = true → u.chip.fifo.wf Config.fifoSize = true) := by
  simp only [answerWrite] at h
  split at h
  · split at h
    · cases h
    · next r hl =>
      have hr : r ≠ .opMode := by
        rintro rfl
        exact ha (RegMap.addr_of_lookup hl).symm
      split at h
      · next c hc =>
        cases h
        simp only [Chip.write, if_neg hr] at hc
        split at hc
        · cases hc
        · cases hc
          exact ⟨(Chip.store_mode r v _).1, (Chip.store_mode r v _).2, Chip.store_fifo_wf r v _⟩
      · cases h
  · cases h; exact ⟨rfl, rfl, id⟩

/-- A write frame of a mode byte puts an attached chip into the mode, with its long-range bit set. -/
theorem answerWrite_mode {m : Mode} {s u : State} (hwf : s.cfg.wf = true)
    (h : answerWrite (s.cfg.map.addr .opMode) (modeByte s.cfg m) s = .ok u) :
    (s.cfg.chipPresent = true → u.chip.mode = m ∧ u.chip.lora s.cfg = true) ∧
      (s.chip.fifo.wf Config.fifoSize = true → u.chip.fifo.wf Config.fifoSize = true) := by
  simp only [answerWrite, RegMap.lookup_addr (Cfg.wf_map hwf), Chip.write_opMode, Chip.writeOpMode, modeByte_code hwf,
    ModeCodes.mode?_code (Cfg.wf_codes hwf)] at h
  split at h
  · split at h
    · next c hc =>
      cases h
      split at hc
      · cases hc
      · cases hc
        refine ⟨fun _ => ⟨rfl, Chip.lora_enterMode hwf _ _ _⟩, fun hf => ?_⟩
        simp only [Chip.enterMode]
        split
        · rfl
        · exact hf
    · cases h
  · next hp =>
    cases h
    exact ⟨fun hp' => absurd hp' hp, id⟩

/-- A read frame leaves the mode, the long-range bit and every FIFO byte alone. -/
theorem answerRead_chip (a : RegAddr) (s : State) :
    (answerRead a s).2.chip.mode = s.chip.mode ∧ (answerRead a s).2.chip.opHigh = s.chip.opHigh ∧
      (answerRead a s).2.chip.fifo = s.chip.fifo := by
  simp only [answerRead]
  split
  · split
    · exact ⟨rfl, rfl, rfl⟩
    · next r hr =>
      simp only [Chip.afterRead]
      split <;> exact ⟨rfl, rfl, rfl⟩
  · split <;> exact ⟨rfl, rfl, rfl⟩

/-- The agreement of record and chip depends on the configuration, the record and the two parts of the mode register
only. -/
theorem State.modesAgree.congr {s u : State} (h : s.modesAgree) (hc : u.cfg = s.cfg) (hm : u.mode = s.mode)
    (h1 : u.chip.mode = s.chip.mode) (h2 : u.chip.opHigh = s.chip.opHigh) : u.modesAgree := by
  intro hp
  rw [hc] at hp
  obtain ⟨ha, hb⟩ := h hp
  exact ⟨h1.trans (ha.trans hm.symm), by rw [hc, ← hb, Chip.lora, Chip.lora, h2]⟩

/-! ### The invariant through a micro-step -/

/-- A state that differs in parts the invariant does not speak of, at a position whose clause holds. -/
theorem State.Inv.of_frame {s t : State} (h : s.Inv) (hc : t.cfg = s.cfg) (hi : t.inbox = s.inbox)
    (hf : t.chip.fifo.wf Config.fifoSize = true) (ht : t.txBuf = s.txBuf)
    (hr : t.packet.rxBuf.wf Config.maxPayload = true) (hcs : t.csN = true) (hp : t.phaseInv) : t.Inv :=
  ⟨by rw [hc]; exact h.cfg_wf, by intro w; rw [hi]; exact h.master w, hf, by rw [ht]; exact h.txBuf_wf, hr, hcs, hp⟩

/-- A fatal error keeps the invariant. -/
theorem State.Inv.raiseFatal {s u : State} (h : s.Inv) (code : ResultCode) (hc : u.cfg = s.cfg)
    (hi : u.inbox = s.inbox) (ht : u.txBuf = s.txBuf) (hr : u.resetN = true)
    (hf : u.chip.fifo.wf Config.fifoSize = true) : (u.raiseFatal code).Inv :=
  h.of_frame hc hi hf ht rfl rfl ⟨hr, fun hcon => by cases hcon⟩

/-- A write frame to a register other than the mode register, and what follows it. -/
theorem memWrite_inv {d : Draw} {a : RegAddr} {v : Byte} {s t : State} {k : Byte → State → Outcome} (h : s.Inv)
    (hr : s.resetN = true) (ha : a ≠ s.cfg.map.addr .opMode)
    (hk : ∀ u, FrameOnly s u → u.csN = true → u.chip.fifo.wf Config.fifoSize = true →
      u.chip.mode = s.chip.mode → u.chip.opHigh = s.chip.opHigh → k v u = .next t → t.Inv)
    (hn : (memWrite d a v s).andThen k = .next t) : t.Inv := by
  rcases memWrite_andThen hn with ⟨u, -, ht, hf, hcs, -, hn'⟩ | ⟨u, -, hu, hf, -, rfl⟩
  · obtain ⟨w, hw, hc, -⟩ := transact_write_chip ht
    obtain ⟨h1, h2, h3⟩ := answerWrite_other ha hw
    exact hk u hf hcs (by rw [hc]; exact h3 h.fifo_wf) (by rw [hc]; exact h1) (by rw [hc]; exact h2) hn'
  · refine h.raiseFatal _ hf.cfg hf.inbox hf.txBuf (by rw [hf.resetN]; exact hr) ?_
    rcases hu with rfl | hu
    · exact h.fifo_wf
    · exact (answerWrite_other ha hu).2.2 h.fifo_wf

/-- A read frame, and what follows it. -/
theorem memRead_inv {d : Draw} {a : RegAddr} {s t : State} {k : Byte → State → Outcome} (h : s.Inv)
    (hr : s.resetN = true)
    (hk : ∀ v u, FrameOnly s u → u.csN = true → u.chip.fifo.wf Config.fifoSize = true →
      u.chip.mode = s.chip.mode → u.chip.opHigh = s.chip.opHigh → k v u = .next t → t.Inv)
    (hn : (memRead d a s).andThen k = .next t) : t.Inv := by
  obtain ⟨h1, h2, h3⟩ := answerRead_chip a s
  rcases memRead_andThen hn with ⟨v, u, -, ht, hf, hcs, -, hn'⟩ | ⟨u, -, hu, hf, -, rfl⟩
  · obtain ⟨-, hc, -⟩ := transact_read_chip ht
    exact hk v u hf hcs (by rw [hc, h3]; exact h.fifo_wf) (by rw [hc]; exact h1) (by rw [hc]; exact h2) hn'
  · refine h.raiseFatal _ hf.cfg hf.inbox hf.txBuf (by rw [hf.resetN]; exact hr) ?_
    rcases hu with rfl | rfl
    · exact h.fifo_wf
    · rw [h3]; exact h.fifo_wf

/-- The mode frame of `SetMode`: record and chip agree after it (42_mode.md R136). -/
theorem setModeFrame_inv {d : Draw} {m : Mode} {ph : Phase} {s t : State} (h : s.Inv) (hr : s.resetN = true)
    (hk : ∀ u : State, u.resetN = true → u.configured = s.configured → u.mode = m → u.modesAgree →
      u.phase = ph → u.phaseInv)
    (hn : setModeFrame d m ph s = .next t) : t.Inv := by
  rcases memWrite_andThen hn with ⟨u, -, ht, hf, hcs, -, hn'⟩ | ⟨u, -, hu, hf, -, rfl⟩
  · obtain ⟨w, hw, hc, -⟩ := transact_write_chip ht
    obtain ⟨h1, h2⟩ := answerWrite_mode h.cfg_wf hw
    cases hn'
    refine h.of_frame hf.cfg hf.inbox (by rw [State.goto_chip, hc]; exact h2 h.fifo_wf) hf.txBuf
      (by rw [State.goto_packet, hf.packet]; exact h.rxBuf_wf) hcs
      (hk _ (hf.resetN.trans hr) hf.configured rfl (fun hp => ?_) rfl)
    have hcfg : u.cfg = s.cfg := hf.cfg
    have hp' : s.cfg.chipPresent = true := by rw [← hcfg]; exact hp
    obtain ⟨h3, h4⟩ := h1 hp'
    exact ⟨by rw [State.goto_chip, hc]; exact h3, by rw [State.goto_chip, hc, State.goto_cfg]; rw [hcfg]; exact h4⟩
  · refine h.raiseFatal _ hf.cfg hf.inbox hf.txBuf (by rw [hf.resetN]; exact hr) ?_
    rcases hu with rfl | hu
    · exact h.fifo_wf
    · exact (answerWrite_mode h.cfg_wf hu).2 h.fifo_wf

theorem addr_ne_opMode {s : State} (hwf : s.cfg.wf = true) {r : Reg} (hr : r ≠ .opMode) :
    s.cfg.map.addr r ≠ s.cfg.map.addr .opMode :=
  fun he => hr (RegMap.addr_inj (Cfg.wf_map hwf) he)

/-- A write frame of SETMODE, SEND or POLL, and the jump after it. -/
theorem sessionWrite_inv {d : Draw} {r : Reg} {v : Byte} {s t : State} {f : State → Phase} (hr : r ≠ .opMode)
    (h : s.Inv) (hs : s.resetN = true ∧ s.configured = true ∧ s.modesAgree)
    (hk : ∀ u : State, u.resetN = true → u.configured = true → u.modesAgree → (u.goto (f u)).phaseInv)
    (hn : (memWrite d (s.cfg.map.addr r) v s).andThen (fun _ u => .next (u.goto (f u))) = .next t) : t.Inv := by
  refine memWrite_inv h hs.1 (addr_ne_opMode h.cfg_wf hr) (fun u hf hcs hfifo hm ho hn' => ?_) hn
  cases hn'
  exact h.of_frame hf.cfg hf.inbox hfifo hf.txBuf (by rw [State.goto_packet, hf.packet]; exact h.rxBuf_wf) hcs
    (hk u (hf.resetN.trans hs.1) (hf.configured.trans hs.2.1) (hs.2.2.congr hf.cfg hf.mode hm ho))

/-- A read frame of SEND or POLL, and the jump after it. -/
theorem sessionRead_inv {d : Draw} {a : RegAddr} {s t : State} {f : Byte → State → Phase}
    (h : s.Inv) (hs : s.resetN = true ∧ s.configured = true ∧ s.modesAgree)
    (hk : ∀ (v : Byte) (u : State), u.resetN = true → u.configured = true → u.modesAgree → (u.goto (f v u)).phaseInv)
    (hn : (memRead d a s).andThen (fun v u => .next (u.goto (f v u))) = .next t) : t.Inv := by
  refine memRead_inv h hs.1 (fun v u hf hcs hfifo hm ho hn' => ?_) hn
  cases hn'
  exact h.of_frame hf.cfg hf.inbox hfifo hf.txBuf (by rw [State.goto_packet, hf.packet]; exact h.rxBuf_wf) hcs
    (hk v u (hf.resetN.trans hs.1) (hf.configured.trans hs.2.1) (hs.2.2.congr hf.cfg hf.mode hm ho))

/-- Every configuration write CONFIGURE has planned is to a configuration register (42_mode.md R133). -/
theorem configWrites_isCfg (c : Cfg) (rc : RadioConfig) (n : BitVec 24) (code : BitVec 4) :
    ∀ w ∈ configWrites c rc n code, w.1.isCfg = true := by
  simp [configWrites, Reg.isCfg]

/-- At its position, the micro-step keeps the invariant. -/
theorem perform_inv {d : Draw} {s t : State} (h : s.Inv) (hn : perform d s = .next t) : t.Inv := by
  have hi := h.phaseInv
  have hck := h.rxBuf_wf
  cases hp : s.phase <;> simp only [perform, hp] at hn <;> simp only [State.phaseInv, hp] at hi
  case idle => cases hn; exact h
  case rdregFrame a =>
    simp only [rdregFrame] at hn
    have hk : (memRead d a s).andThen (fun v u => .next (u.goto (.rdregEnd v))) = .next t ∨
        ∃ u, memRead d a s = .failed u ∧ t =
          ({ u with rdata := Config.freeByte u.free, free := u.free + 1 } : State).raiseFatal .busError := by
      cases hf : memRead d a s with
      | done v u => rw [hf] at hn; exact .inl hn
      | failed u => rw [hf] at hn; cases hn; exact .inr ⟨u, rfl, rfl⟩
      | refused r => rw [hf] at hn; cases hn
    rcases hk with hk | ⟨u, hu, rfl⟩
    · refine memRead_inv h hi.1 (fun v u hf hcs hfifo hm ho hn' => ?_) hk
      cases hn'
      exact h.of_frame hf.cfg hf.inbox hfifo hf.txBuf (by rw [State.goto_packet, hf.packet]; exact hck) hcs
        ⟨hf.resetN.trans hi.1, fun hc => (hi.2 (hf.configured.symm.trans hc)).congr hf.cfg hf.mode hm ho⟩
    · obtain ⟨-, -, h3⟩ := answerRead_chip a s
      rcases busFrame_failed hu with rfl | ⟨v, hv⟩
      · exact h.raiseFatal _ rfl rfl rfl hi.1 h.fifo_wf
      · have hf := (exchange_frameOnly hv).1
        rw [exchange_read] at hv
        refine h.raiseFatal _ hf.cfg hf.inbox hf.txBuf (hf.resetN.trans hi.1) ?_
        have : u = (answerRead a s).2 := by rw [Except.ok.inj hv]
        rw [this]
        exact h3 ▸ h.fifo_wf
  case rdregEnd v => cases hn; exact h.of_frame rfl rfl h.fifo_wf rfl hck h.csN hi
  case wrregGuard a v =>
    simp only [wrregGuard] at hn
    split at hn
    · cases hn; exact h.of_frame rfl rfl h.fifo_wf rfl hck h.csN hi
    · next ha =>
      split at hn
      · cases hn; exact h.of_frame rfl rfl h.fifo_wf rfl hck h.csN hi
      · next hg =>
        cases hn
        refine h.of_frame rfl rfl h.fifo_wf rfl hck h.csN ⟨hi.1, hi.2, ha, fun hc => ?_⟩
        by_contra hcon
        exact hg ⟨hc, hcon⟩
  case wrregFrame a v =>
    refine memWrite_inv h hi.1 hi.2.2.1 (fun u hf hcs hfifo hm ho hn' => ?_) hn
    cases hn'
    exact h.of_frame hf.cfg hf.inbox hfifo hf.txBuf (by rw [State.goto_packet, hf.packet]; exact hck) hcs
      ⟨hf.resetN.trans hi.1, fun hc => (hi.2.1 (hf.configured.symm.trans hc)).congr hf.cfg hf.mode hm ho⟩
  case wrregEnd => cases hn; exact h.of_frame rfl rfl h.fifo_wf rfl hck h.csN hi
  case synthEval =>
    simp only [synthEval] at hn
    split at hn <;> (cases hn; exact h.of_frame rfl rfl h.fifo_wf rfl hck h.csN hi)
  case synthEnd n => cases hn; exact h.of_frame rfl rfl h.fifo_wf rfl hck h.csN hi
  case cfgValidate =>
    simp only [cfgValidate] at hn
    split at hn
    · cases hn; exact h.raiseFatal _ rfl rfl rfl hi.1 h.fifo_wf
    · next n ws hc =>
      obtain ⟨-, code, -, -, rfl⟩ := configPlan_some hc
      cases hn
      exact h.of_frame rfl rfl h.fifo_wf rfl hck h.csN ⟨hi.1, rfl, configWrites_isCfg _ _ _ _⟩
  case cfgResetLow ws =>
    cases hn
    refine h.of_frame rfl rfl ?_ rfl hck h.csN ⟨rfl, hi.2.1, rfl, fun hc => ?_, hi.2.2⟩
    · simp only [State.goto_chip]
      split
      · rfl
      · exact h.fifo_wf
    · have hc' : s.cfg.chipPresent = true := hc
      simp [hc', Chip.hardReset]
  case cfgDelayLow ws => cases hn; exact h.of_frame rfl rfl h.fifo_wf rfl hck h.csN hi
  case cfgResetHigh ws => cases hn; exact h.of_frame rfl rfl h.fifo_wf rfl hck h.csN ⟨rfl, hi.2⟩
  case cfgDelayHigh ws => cases hn; exact h.of_frame rfl rfl h.fifo_wf rfl hck h.csN hi
  case cfgSleep ws =>
    refine setModeFrame_inv h hi.1 (fun u h1 h2 h3 h4 h5 => ?_) hn
    simp only [State.phaseInv, h5]
    exact ⟨h1, h2.trans hi.2.1, h3, h4, hi.2.2.2.2⟩
  case cfgSleepSettle ws =>
    cases hn
    refine h.of_frame rfl rfl h.fifo_wf rfl hck h.csN ?_
    cases ws with
    | nil => exact ⟨hi.1, hi.2.1, hi.2.2.1, hi.2.2.2.1⟩
    | cons w ws => exact hi
  case cfgWrites ws =>
    cases ws with
    | nil => cases hn; exact h.of_frame rfl rfl h.fifo_wf rfl hck h.csN ⟨hi.1, hi.2.1, hi.2.2.1, hi.2.2.2.1⟩
    | cons w rest =>
      simp only [cfgWrite] at hn
      split at hn
      · cases hn; exact h.raiseFatal _ rfl rfl rfl hi.1 h.fifo_wf
      · have hw : w.1 ≠ .opMode := by
          intro he
          have := hi.2.2.2.2 w (by simp)
          rw [he] at this
          cases this
        refine memWrite_inv h hi.1 (addr_ne_opMode h.cfg_wf hw) (fun u hf hcs hfifo hm ho hn' => ?_) hn
        cases hn'
        refine h.of_frame hf.cfg hf.inbox hfifo hf.txBuf (by rw [State.goto_packet, hf.packet]; exact hck) hcs ?_
        have hb : u.resetN = true ∧ u.configured = false ∧ u.mode = .sleep ∧ u.modesAgree :=
          ⟨hf.resetN.trans hi.1, hf.configured.trans hi.2.1, hf.mode.trans hi.2.2.1,
            hi.2.2.2.1.congr hf.cfg hf.mode hm ho⟩
        cases rest with
        | nil => exact hb
        | cons w' rest => exact ⟨hb.1, hb.2.1, hb.2.2.1, hb.2.2.2, fun x hx => hi.2.2.2.2 x (by simp at hx ⊢; tauto)⟩
  case cfgStandby =>
    refine setModeFrame_inv h hi.1 (fun u h1 h2 h3 h4 h5 => ?_) hn
    simp only [State.phaseInv, h5]
    exact ⟨h1, h2.trans hi.2.1, h3, h4⟩
  case cfgStandbySettle => cases hn; exact h.of_frame rfl rfl h.fifo_wf rfl hck h.csN hi
  case cfgIdentify =>
    refine memRead_inv h hi.1 (fun v u hf hcs hfifo hm ho hn' => ?_) hn
    split at hn'
    · cases hn'
      exact h.of_frame hf.cfg hf.inbox hfifo hf.txBuf (by rw [State.goto_packet, hf.packet]; exact hck) hcs
        ⟨hf.resetN.trans hi.1, hf.configured.trans hi.2.1, hf.mode.trans hi.2.2.1,
          hi.2.2.2.congr hf.cfg hf.mode hm ho⟩
    · cases hn'
      exact h.raiseFatal _ hf.cfg hf.inbox hf.txBuf (hf.resetN.trans hi.1) hfifo
  case cfgEnd => cases hn; exact h.of_frame rfl rfl h.fifo_wf rfl hck h.csN ⟨hi.1, fun _ => hi.2.2.2⟩
  case setmodeFrame m | sendStandby n | sendTx | sendRestore res | pollArm ms | pollRearm res =>
    refine setModeFrame_inv h hi.1 (fun u h1 h2 h3 h4 h5 => ?_) hn
    simp only [State.phaseInv, h5]
    exact ⟨h1, h2.trans hi.2.1, h4⟩
  case setmodeSettle | sendStandbySettle n | sendTxSettle | sendRestoreSettle res | pollArmSettle ms
    | pollRearmSettle res =>
    cases hn; exact h.of_frame rfl rfl h.fifo_wf rfl hck h.csN hi
  case setmodeEnd | sendEnd res | pollEnd res =>
    cases hn; exact h.of_frame rfl rfl h.fifo_wf rfl hck h.csN ⟨hi.1, fun _ => hi.2.2⟩
  case sendPointer n =>
    refine sessionWrite_inv (by decide) h hi (fun u h1 h2 h3 => ?_) hn
    simp only [payloadFrom]
    split
    · next hlt => exact ⟨h1, h2, h3, hlt⟩
    · exact ⟨h1, h2, h3⟩
  case sendPayload n i =>
    refine sessionWrite_inv (by decide) h ⟨hi.1, hi.2.1, hi.2.2.1⟩ (fun u h1 h2 h3 => ?_) hn
    simp only [payloadFrom]
    split
    · next hlt => exact ⟨h1, h2, h3, hlt⟩
    · exact ⟨h1, h2, h3⟩
  case sendLength n | sendMap | sendAckIrq v | pollAckIrq v | pollPointer a =>
    refine sessionWrite_inv (by decide) h hi (fun u h1 h2 h3 => ?_) hn
    exact ⟨h1, h2, h3⟩
  case sendWait =>
    simp only [sendWait] at hn
    split at hn <;> (cases hn; exact h.of_frame rfl rfl h.fifo_wf rfl hck h.csN hi)
  case sendReadIrq | pollReadIrq | pollReadCurrent | pollReadRssi n | pollReadSnr n r =>
    refine sessionRead_inv h hi (fun v u h1 h2 h3 => ?_) hn
    exact ⟨h1, h2, h3⟩
  case pollMap ms =>
    refine sessionWrite_inv (by decide) h hi (fun u h1 h2 h3 => ?_) hn
    split <;> exact ⟨h1, h2, h3⟩
  case pollWait ms =>
    simp only [pollWait] at hn
    split at hn
    · cases hn; exact h.of_frame rfl rfl h.fifo_wf rfl hck h.csN hi
    · cases hn
      refine h.of_frame rfl rfl h.fifo_wf rfl hck h.csN ?_
      split <;> exact hi
  case pollTest v =>
    cases hn
    refine h.of_frame rfl rfl h.fifo_wf rfl hck h.csN ?_
    simp only [crcVerdict]
    split
    · exact hi
    · split <;> exact hi
  case pollReadCount =>
    refine sessionRead_inv h hi (fun v u h1 h2 h3 => ?_) hn
    simp only [readoutFrom]
    split
    · next hlt => exact ⟨h1, h2, h3, hlt⟩
    · exact ⟨h1, h2, h3⟩
  case pollReadout n i =>
    refine memRead_inv h hi.1 (fun v u hf hcs hfifo hm ho hn' => ?_) hn
    cases hn'
    have hlt : i < Config.maxPayload := by
      have h1 := n.isLt
      have h2 := hi.2.2.2
      simp only [Config.maxPayload]; omega
    refine h.of_frame hf.cfg hf.inbox hfifo hf.txBuf
      (Mem.wf_write v hlt (by rw [hf.packet]; exact hck)) hcs ?_
    have hb : u.resetN = true ∧ u.configured = true ∧ u.modesAgree :=
      ⟨hf.resetN.trans hi.1, hf.configured.trans hi.2.1, hi.2.2.1.congr hf.cfg hf.mode hm ho⟩
    simp only [readoutFrom]
    split
    · next hlt' => exact ⟨hb.1, hb.2.1, hb.2.2, hlt'⟩
    · exact hb
  case pollPacket n r v => cases hn; exact h.of_frame rfl rfl h.fifo_wf rfl hck h.csN hi

/-- A Radio step keeps the invariant. -/
theorem radioStep_inv {s : State} (e : RadioEvent) (h : s.Inv) : (radioStep e s).Inv := by
  have hp := h.phaseInv
  refine h.of_frame (by simp) (by simp) (radioStep_fifo_wf e h.fifo_wf) (by simp) ?_ ?_ ?_
  · rw [radioStep_packet]; exact h.rxBuf_wf
  · rw [radioStep_csN]; exact h.csN
  · simpa only [State.phaseInv, State.modesAgree, State.chipSleeps, Chip.lora, radioStep_phase, radioStep_resetN,
      radioStep_configured, radioStep_cfg, radioStep_mode, radioStep_chip_mode, radioStep_chip_opHigh] using hp

theorem radioSteps_inv {s : State} (es : List RadioEvent) (h : s.Inv) : (radioSteps es s).Inv := by
  induction es generalizing s with
  | nil => exact h
  | cons e es ih => exact ih (radioStep_inv e h)

/-- The Radio's steps before a micro-step keep the invariant. -/
theorem afterRadio_inv {s : State} (h : s.Inv) : s.afterRadio.Inv :=
  radioSteps_inv _ (h.of_frame rfl rfl h.fifo_wf rfl h.rxBuf_wf h.csN h.phaseInv)

/-- A micro-step keeps the invariant. -/
theorem microStep_inv {s t : State} (h : s.Inv) (hn : microStep s = .next t) : t.Inv :=
  perform_inv (afterRadio_inv h) (microStep_next hn).2

end Sys2Proof.Machine
end

