-- ==== Sys2Proof/Laws/Commands.lean ====
section
/-! SUPPORT. The seven commands as one shape: accepted while idle, a command invalidates the Packet registers and runs
from its first micro-step to Idle, or is refused because the core is not configured (30_encoding.md R101, R103). -/

namespace Sys2Proof.Machine

/-- The first micro-step of a command. -/
def firstPhase : Instr → Phase
  | .rdreg a => .rdregFrame a
  | .wrreg a v => .wrregGuard a v
  | .synth => .synthEval
  | .configure => .cfgValidate
  | .setmode m => .setmodeFrame m
  | .send n => .sendStandby n
  | .poll t => .pollMap t
  | .busWrite _ _ | .busRead _ _ | .busWriteFifo _ | .busReadFifo _ | .busWriteOpMode _ | .busWriteFifoAddrPtr _
  | .busWriteIrqFlags _ | .busWriteDioMapping _ | .busReadVersion _ => .idle

/-- The commands that need CONFIGURED = 1 (30_encoding.md R103). -/
def needsConfigured : Instr → Bool
  | .setmode _ | .send _ | .poll _ => true
  | .rdreg _ | .wrreg _ _ | .synth | .configure | .busWrite _ _ | .busRead _ _ | .busWriteFifo _ | .busReadFifo _
  | .busWriteOpMode _ | .busWriteFifoAddrPtr _ | .busWriteIrqFlags _ | .busWriteDioMapping _ | .busReadVersion _ => false

/-- The state in which a command's first micro-step runs. -/
def State.started (i : Instr) (s : State) : State := s.invalidatePacket.goto (firstPhase i)

theorem State.not_busy {s : State} (h : s.phase = .idle) : s.busy = false := by simp [State.busy, h]

/-- A command with no guard, or with its guard passed, runs. -/
theorem exec_runs {i : Instr} {s : State} (hi : isCommand i = true) (hid : s.phase = .idle)
    (hc : needsConfigured i = true → s.configured = true) : exec i s = runToIdle (s.started i) := by
  have hb := State.not_busy hid
  cases i <;> first | (simp [isCommand] at hi; done) | skip
  case setmode m | send n | poll t =>
    have hc' := hc rfl
    simp [exec, execSetmode, execSend, execPoll, acceptConfigured, hb, hc', State.started, firstPhase]
  all_goals
    simp [exec, execRdreg, execWrreg, execSynth, execConfigure, accept, hb, State.started, firstPhase]

/-- A command that needs CONFIGURED = 1 is refused without it (30_encoding.md R103). -/
theorem exec_unconfigured {i : Instr} {s : State} (hi : needsConfigured i = true) (hid : s.phase = .idle)
    (hc : s.configured = false) : exec i s = .next (s.invalidatePacket.refuse .badCommand) := by
  have hb := State.not_busy hid
  cases i <;> first | (simp [needsConfigured] at hi; done) | skip
  all_goals simp [exec, execSetmode, execSend, execPoll, acceptConfigured, hb, hc]

/-- While BUSY a command has no effect (30_encoding.md R100). -/
theorem exec_busy {i : Instr} {s : State} (hi : isCommand i = true) (hb : s.busy = true) : exec i s = .next s := by
  cases i <;> first | (simp [isCommand] at hi; done) | skip
  all_goals
    simp [exec, execRdreg, execWrreg, execSynth, execConfigure, execSetmode, execSend, execPoll, accept,
      acceptConfigured, hb]

/-- Everything a command can do: nothing while BUSY, the refusal of R103, or the run from its first micro-step. -/
theorem exec_command {i : Instr} (s : State) (hi : isCommand i = true) :
    (s.busy = true ∧ exec i s = .next s) ∨
    (s.phase = .idle ∧ s.configured = false ∧ needsConfigured i = true ∧
      exec i s = .next (s.invalidatePacket.refuse .badCommand)) ∨
    (s.phase = .idle ∧ (needsConfigured i = true → s.configured = true) ∧ exec i s = runToIdle (s.started i)) := by
  by_cases hb : s.busy = true
  · exact .inl ⟨hb, exec_busy hi hb⟩
  · have hid : s.phase = .idle := by simpa [State.busy] using hb
    by_cases hc : s.configured = true
    · exact .inr (.inr ⟨hid, fun _ => hc, exec_runs hi hid fun _ => hc⟩)
    · have hc' : s.configured = false := by simpa using hc
      by_cases hn : needsConfigured i = true
      · exact .inr (.inl ⟨hid, hc', hn, exec_unconfigured hn hid hc'⟩)
      · exact .inr (.inr ⟨hid, fun h => absurd h hn, exec_runs hi hid fun h => absurd h hn⟩)

/-- What a legal command word decodes to is a command. -/
theorem decodeCommand_isCommand {w : BitVec 24} {i : Instr} (h : decodeCommand w = .ok i) : isCommand i = true := by
  simp only [decodeCommand] at h
  repeat' split at h
  all_goals first | (cases h; done) | (cases h; simp [isCommand])

/-! ### The state a command starts from -/

@[simp] theorem State.started_phase (i : Instr) (s : State) : (s.started i).phase = firstPhase i := rfl
@[simp] theorem State.started_cfg (i : Instr) (s : State) : (s.started i).cfg = s.cfg := rfl
@[simp] theorem State.started_radio (i : Instr) (s : State) : (s.started i).radio = s.radio := rfl
@[simp] theorem State.started_txBuf (i : Instr) (s : State) : (s.started i).txBuf = s.txBuf := rfl
@[simp] theorem State.started_status (i : Instr) (s : State) : (s.started i).status = s.status := rfl
@[simp] theorem State.started_rdata (i : Instr) (s : State) : (s.started i).rdata = s.rdata := rfl
@[simp] theorem State.started_frf (i : Instr) (s : State) : (s.started i).frf = s.frf := rfl
@[simp] theorem State.started_valid (i : Instr) (s : State) : (s.started i).packet.valid = false := rfl
@[simp] theorem State.started_mode (i : Instr) (s : State) : (s.started i).mode = s.mode := rfl
@[simp] theorem State.started_configured (i : Instr) (s : State) : (s.started i).configured = s.configured := rfl
@[simp] theorem State.started_chip (i : Instr) (s : State) : (s.started i).chip = s.chip := rfl
@[simp] theorem State.started_csN (i : Instr) (s : State) : (s.started i).csN = s.csN := rfl
@[simp] theorem State.started_resetN (i : Instr) (s : State) : (s.started i).resetN = s.resetN := rfl
@[simp] theorem State.started_busLog (i : Instr) (s : State) : (s.started i).busLog = s.busLog := rfl
@[simp] theorem State.started_txLog (i : Instr) (s : State) : (s.started i).txLog = s.txLog := rfl
@[simp] theorem State.started_inbox (i : Instr) (s : State) : (s.started i).inbox = s.inbox := rfl
@[simp] theorem State.started_env (i : Instr) (s : State) : (s.started i).env = s.env := rfl
@[simp] theorem State.started_nextDraw (i : Instr) (s : State) : (s.started i).nextDraw = s.nextDraw := rfl

/-- No command starts inside the reset pulse. -/
@[simp] theorem firstPhase_inReset (i : Instr) : (firstPhase i).inReset = false := by cases i <;> rfl

/-- The chip and the transmit history at an idle core's first micro-step of a command, after the Radio's steps before
it. -/
theorem State.started_afterRadio_chip (i : Instr) {s : State} (h : s.phase = .idle) :
    (s.started i).afterRadio.chip = (radioSteps s.nextDraw.events s).chip := by
  rw [State.afterRadio_chip]
  exact (radioSteps_congr (s := s) (s' := s.started i) _ rfl rfl rfl (by rw [h, State.started_phase, firstPhase_inReset]; rfl) rfl).1

theorem State.started_afterRadio_txLog (i : Instr) {s : State} (h : s.phase = .idle) :
    (s.started i).afterRadio.txLog = (radioSteps s.nextDraw.events s).txLog := by
  rw [State.afterRadio_txLog]
  exact (radioSteps_congr (s := s) (s' := s.started i) _ rfl rfl rfl (by rw [h, State.started_phase, firstPhase_inReset]; rfl) rfl).2

/-! ### What every run keeps -/

/-- The parts no command changes, and the histories it only adds to. -/
theorem runToIdle_micro {s t : State} (h : runToIdle s = .next t) :
    KeepsOperands s t ∧ s.busLog <+: t.busLog ∧ s.txLog <+: t.txLog ∧ t.phase = .idle := by
  have hk := runToIdle_keeps
    (I := fun u => KeepsOperands s u ∧ s.busLog <+: u.busLog ∧ s.txLog <+: u.txLog)
    (fun u v hu _ hm => by
      have h1 := perform_keeps (microStep_next hm).2
      refine ⟨⟨?_, ?_, ?_, ?_⟩, hu.2.1.trans (by simpa using h1.busLog), hu.2.2.trans ?_⟩
      · rw [h1.cfg, State.afterRadio_cfg, hu.1.cfg]
      · rw [h1.radio, State.afterRadio_radio, hu.1.radio]
      · rw [h1.txBuf, State.afterRadio_txBuf, hu.1.txBuf]
      · rw [h1.inbox, State.afterRadio_inbox, hu.1.inbox]
      · rw [h1.txLog, State.afterRadio_txLog]; exact radioSteps_txLog_prefix _ _)
    ⟨⟨rfl, rfl, rfl, rfl⟩, List.prefix_rfl, List.prefix_rfl⟩ h
  exact ⟨hk.2.1, hk.2.2.1, hk.2.2.2, hk.1⟩

/-- A command whose guard has passed starts in a state that meets the invariant. -/
theorem started_inv {i : Instr} {s : State} (hi : isCommand i = true) (h : s.Inv) (hid : s.phase = .idle)
    (hc : needsConfigured i = true → s.configured = true) : (s.started i).Inv := by
  have hp := h.phaseInv
  simp only [State.phaseInv, hid] at hp
  refine h.of_frame rfl rfl h.fifo_wf rfl rfl h.csN ?_
  cases i <;> first | (simp [isCommand] at hi; done) | skip
  case setmode m | send n | poll t => exact ⟨hp.1, hc rfl, hp.2 (hc rfl)⟩
  all_goals exact hp

end Sys2Proof.Machine
end

