-- ==== Sys2Proof/Laws/Encoding.lean ====
section
/-! SUPPORT. The fields of the two word formats: a word is its fields, the fields of an assembled word are what it was
assembled from, and a mask test is a test of the fields. -/

namespace Sys2Proof

/-! ### The command word -/

@[simp] theorem fieldOp_commandWord (op : BitVec 4) (ka kb : Byte) : fieldOp (commandWord op ka kb) = op := by
  apply BitVec.eq_of_getLsbD_eq; intro i hi
  simp only [fieldOp, commandWord, BitVec.getLsbD_extractLsb', BitVec.getLsbD_append]
  have h1 : ¬ (20 + i < 8) := by omega
  have h2 : ¬ (20 + i - 8 < 8) := by omega
  have h3 : ¬ (20 + i - 8 - 8 < 4) := by omega
  have h4 : 20 + i - 8 - 8 - 4 = i := by omega
  simp [h1, h2, h3, h4, hi]

@[simp] theorem fieldZ_commandWord (op : BitVec 4) (ka kb : Byte) : fieldZ (commandWord op ka kb) = 0#4 := by
  apply BitVec.eq_of_getLsbD_eq; intro i hi
  simp only [fieldZ, commandWord, BitVec.getLsbD_extractLsb', BitVec.getLsbD_append]
  have h1 : ¬ (16 + i < 8) := by omega
  have h2 : ¬ (16 + i - 8 < 8) := by omega
  have h3 : 16 + i - 8 - 8 < 4 := by omega
  simp [h1, h2, h3, hi]

@[simp] theorem fieldKA_commandWord (op : BitVec 4) (ka kb : Byte) : fieldKA (commandWord op ka kb) = ka := by
  apply BitVec.eq_of_getLsbD_eq; intro i hi
  simp only [fieldKA, commandWord, BitVec.getLsbD_extractLsb', BitVec.getLsbD_append]
  have h1 : ¬ (8 + i < 8) := by omega
  have h2 : 8 + i - 8 = i := by omega
  simp [h1, h2, hi]

@[simp] theorem fieldKB_commandWord (op : BitVec 4) (ka kb : Byte) : fieldKB (commandWord op ka kb) = kb := by
  apply BitVec.eq_of_getLsbD_eq; intro i hi
  simp only [fieldKB, commandWord, BitVec.getLsbD_extractLsb', BitVec.getLsbD_append]
  simp [hi]

/-- Four fields side by side. -/
def wordOfFields (op z : BitVec 4) (ka kb : Byte) : BitVec 24 := ((op ++ z) ++ ka) ++ kb

/-- A word is its four fields (30_encoding.md R92). -/
theorem wordOfFields_fields (w : BitVec 24) : wordOfFields (fieldOp w) (fieldZ w) (fieldKA w) (fieldKB w) = w := by
  apply BitVec.eq_of_getLsbD_eq; intro i hi
  simp only [wordOfFields, fieldOp, fieldZ, fieldKA, fieldKB, BitVec.getLsbD_append, BitVec.getLsbD_extractLsb']
  by_cases h1 : i < 8
  · simp [h1]
  · by_cases h2 : i - 8 < 8
    · have : 8 + (i - 8) = i := by omega
      simp [h1, h2, this]
    · by_cases h3 : i - 8 - 8 < 4
      · have : 16 + (i - 8 - 8) = i := by omega
        simp [h1, h2, h3, this]
      · have e : 20 + (i - 8 - 8 - 4) = i := by omega
        have e2 : i - 8 - 8 - 4 < 4 := by omega
        simp [h1, h2, h3, e, e2]

/-- A word with Z = 0 is assembled from its other fields. -/
theorem commandWord_fields (w : BitVec 24) (h : fieldZ w = 0#4) :
    commandWord (fieldOp w) (fieldKA w) (fieldKB w) = w := by
  have := wordOfFields_fields w
  rw [h] at this
  exact this

/-- Two concatenations are equal exactly when their parts are. -/
theorem append_inj {n m : Nat} {a c : BitVec n} {b d : BitVec m} : a ++ b = c ++ d ↔ a = c ∧ b = d := by
  constructor
  · intro h
    have h' := congrArg BitVec.toNat h
    simp only [BitVec.toNat_append] at h'
    rw [← Nat.shiftLeft_add_eq_or_of_lt b.isLt, ← Nat.shiftLeft_add_eq_or_of_lt d.isLt, Nat.shiftLeft_eq,
      Nat.shiftLeft_eq] at h'
    have hb := b.isLt
    have hd := d.isLt
    have h1 : b.toNat = d.toNat := by
      have := congrArg (· % 2 ^ m) h'
      simpa [Nat.add_mod, Nat.mod_eq_of_lt hb, Nat.mod_eq_of_lt hd] using this
    have h2 : a.toNat = c.toNat := by
      have : a.toNat * 2 ^ m = c.toNat * 2 ^ m := by omega
      exact Nat.eq_of_mul_eq_mul_right (by positivity) this
    exact ⟨BitVec.eq_of_toNat_eq h2, BitVec.eq_of_toNat_eq h1⟩
  · rintro ⟨rfl, rfl⟩; rfl

/-- A mask test of a command word is a mask test of its fields (30_encoding.md R95). -/
theorem and_wordOfFields (w : BitVec 24) (mo mz : BitVec 4) (ma mb : Byte) (po pz : BitVec 4) (pa pb : Byte) :
    w &&& wordOfFields mo mz ma mb = wordOfFields po pz pa pb ↔
      fieldOp w &&& mo = po ∧ fieldZ w &&& mz = pz ∧ fieldKA w &&& ma = pa ∧ fieldKB w &&& mb = pb := by
  have h : w &&& wordOfFields mo mz ma mb =
      wordOfFields (fieldOp w &&& mo) (fieldZ w &&& mz) (fieldKA w &&& ma) (fieldKB w &&& mb) := by
    conv_lhs => rw [← wordOfFields_fields w]
    exact BitVec.and_append.trans (congrArg (· ++ _) (BitVec.and_append.trans (congrArg (· ++ _) BitVec.and_append)))
  rw [h]
  exact append_inj.trans
    ((and_congr (append_inj.trans (and_congr append_inj Iff.rfl)) Iff.rfl).trans (by simp only [and_assoc]))

/-! ### The bus frame -/

@[simp] theorem frameIsWrite_frameWord (w : BitVec 1) (a : RegAddr) (d : Byte) :
    frameIsWrite (frameWord w a d) = (w == 1#1) := by
  have : (frameWord w a d).extractLsb' 15 1 = w := by
    apply BitVec.eq_of_getLsbD_eq; intro i hi
    simp only [frameWord, BitVec.getLsbD_extractLsb', BitVec.getLsbD_append]
    have h1 : ¬ (15 + i < 8) := by omega
    have h2 : ¬ (15 + i - 8 < 7) := by omega
    have h3 : 15 + i - 8 - 7 = i := by omega
    simp [h1, h2, h3, hi]
  simp [frameIsWrite, this]

@[simp] theorem frameAddr_frameWord (w : BitVec 1) (a : RegAddr) (d : Byte) : frameAddr (frameWord w a d) = a := by
  apply BitVec.eq_of_getLsbD_eq; intro i hi
  simp only [frameAddr, frameWord, BitVec.getLsbD_extractLsb', BitVec.getLsbD_append]
  have h1 : ¬ (8 + i < 8) := by omega
  have h2 : 8 + i - 8 = i := by omega
  simp [h1, h2, hi]

@[simp] theorem frameData_frameWord (w : BitVec 1) (a : RegAddr) (d : Byte) : frameData (frameWord w a d) = d := by
  apply BitVec.eq_of_getLsbD_eq; intro i hi
  simp only [frameData, frameWord, BitVec.getLsbD_extractLsb', BitVec.getLsbD_append]
  simp [hi]

/-- A frame is its three fields (30_encoding.md R91). -/
theorem frameWord_fields (w : BitVec 16) : frameWord (w.extractLsb' 15 1) (frameAddr w) (frameData w) = w := by
  apply BitVec.eq_of_getLsbD_eq; intro i hi
  simp only [frameWord, frameAddr, frameData, BitVec.getLsbD_append, BitVec.getLsbD_extractLsb']
  by_cases h1 : i < 8
  · simp [h1]
  · by_cases h2 : i - 8 < 7
    · have : 8 + (i - 8) = i := by omega
      simp [h1, h2, this]
    · have e : 15 + (i - 8 - 7) = i := by omega
      have e2 : i - 8 - 7 < 1 := by omega
      simp [h1, h2, e, e2]

/-- A mask test of a frame is a mask test of its fields. -/
theorem and_frameWord (w : BitVec 16) (mw : BitVec 1) (ma : RegAddr) (md : Byte) (pw : BitVec 1) (pa : RegAddr)
    (pd : Byte) :
    w &&& frameWord mw ma md = frameWord pw pa pd ↔
      w.extractLsb' 15 1 &&& mw = pw ∧ frameAddr w &&& ma = pa ∧ frameData w &&& md = pd := by
  have h : w &&& frameWord mw ma md =
      frameWord (w.extractLsb' 15 1 &&& mw) (frameAddr w &&& ma) (frameData w &&& md) := by
    conv_lhs => rw [← frameWord_fields w]
    exact BitVec.and_append.trans (congrArg (· ++ _) BitVec.and_append)
  rw [h]
  exact append_inj.trans ((and_congr append_inj Iff.rfl).trans (by simp only [and_assoc]))

/-! ### The target code -/

@[simp] theorem Mode.ofTarget_target (m : Mode) : Mode.ofTarget m.target = m := by cases m <;> decide

@[simp] theorem Mode.target_ofTarget (t : BitVec 2) : (Mode.ofTarget t).target = t := by revert t; decide

end Sys2Proof
end

