-- ==== Sys2Proof/Laws/PerInstr.lean ====
section
/-! SUPPORT. What is said of every instruction as syntax, one lemma per constructor: the word an instruction encodes to
lies in the opcode-table row of its mnemonic, under the row's mask (30_encoding.md R95; the frames at the default
register map). -/

namespace Sys2Proof.Laws

/-- The word of an encoded instruction lies in a row of the given rows that has the given mnemonic. -/
def InRow (mnemonic : String) : Encoded → Prop
  | .command w => ∃ row ∈ commandRows, row.mnemonic = mnemonic ∧ w.toNat &&& row.mask = row.pattern
  | .frame w => ∃ row ∈ frameRows, row.mnemonic = mnemonic ∧ w.toNat &&& row.mask = row.pattern

/-- A mask test on numbers is the mask test on the word. -/
theorem toNat_and_eq {n : Nat} {w m p : BitVec n} (h : w &&& m = p) : w.toNat &&& m.toNat = p.toNat := by
  rw [← h, BitVec.toNat_and]

theorem byte_and (k : Byte) : k &&& 0xFF#8 = k := by revert k; decide

theorem operand7_and (a : RegAddr) : (0#1 ++ a) &&& 0x80#8 = 0#8 := by revert a; decide

theorem target_and (t : BitVec 2) : (0#6 ++ t) &&& 0xFC#8 = 0#8 := by revert t; decide

theorem addr_and (a : RegAddr) : a &&& 0x7F#7 = a := by revert a; decide

/-- The command word of a row whose fields pass the row's field masks. -/
theorem commandWord_inRow (op : BitVec 4) (ka kb ma mb pa pb : Byte) (ha : ka &&& ma = pa) (hb : kb &&& mb = pb) :
    (commandWord op ka kb).toNat &&& (wordOfFields 0xF#4 0xF#4 ma mb).toNat = (wordOfFields op 0#4 pa pb).toNat := by
  refine toNat_and_eq ((and_wordOfFields _ _ _ _ _ _ _ _ _).mpr ⟨?_, ?_, ?_, ?_⟩)
  · rw [fieldOp_commandWord]; revert op; decide
  · rw [fieldZ_commandWord]; rfl
  · rw [fieldKA_commandWord, ha]
  · rw [fieldKB_commandWord, hb]

/-- The frame of a row that fixes the write bit and, with the mask `ma`, the address. -/
theorem frameWord_inRow (w : BitVec 1) (a ma pa : RegAddr) (d : Byte) (ha : a &&& ma = pa) :
    (frameWord w a d).toNat &&& (frameWord 1#1 ma 0#8).toNat = (frameWord w pa 0#8).toNat := by
  refine toNat_and_eq ((and_frameWord _ _ _ _ _ _ _).mpr ⟨?_, ?_, ?_⟩)
  · have h : (frameWord w a d).extractLsb' 15 1 = w := by
      have h1 := frameWord_fields (frameWord w a d)
      rw [frameAddr_frameWord, frameData_frameWord] at h1
      exact (append_inj.mp (append_inj.mp h1).1).1
    rw [h]; clear h; revert w; decide
  · rw [frameAddr_frameWord, ha]
  · simp

end Sys2Proof.Laws

namespace Sys2Proof.Laws.RowMatch

/-- The instruction's word lies in its own row. -/
def Statement (i : Instr) : Prop := InRow i.mnemonic (encode RegMap.reference i)

theorem rdreg (a : RegAddr) : Statement (.rdreg a) :=
  ⟨⟨"RDREG", 24, 0x100000, 0xFF80FF⟩, by simp [commandRows], rfl,
    commandWord_inRow 1#4 (0#1 ++ a) 0#8 0x80#8 0xFF#8 0#8 0#8 (operand7_and a) rfl⟩

theorem wrreg (a : RegAddr) (v : Byte) : Statement (.wrreg a v) :=
  ⟨⟨"WRREG", 24, 0x200000, 0xFF8000⟩, by simp [commandRows], rfl,
    commandWord_inRow 2#4 (0#1 ++ a) v 0x80#8 0#8 0#8 0#8 (operand7_and a) (by simp)⟩

theorem synth : Statement .synth :=
  ⟨⟨"SYNTH", 24, 0x300000, 0xFFFFFF⟩, by simp [commandRows], rfl,
    commandWord_inRow 3#4 0#8 0#8 0xFF#8 0xFF#8 0#8 0#8 rfl rfl⟩

theorem configure : Statement .configure :=
  ⟨⟨"CONFIGURE", 24, 0x400000, 0xFFFFFF⟩, by simp [commandRows], rfl,
    commandWord_inRow 4#4 0#8 0#8 0xFF#8 0xFF#8 0#8 0#8 rfl rfl⟩

theorem setmode (m : Mode) : Statement (.setmode m) :=
  ⟨⟨"SETMODE", 24, 0x500000, 0xFFFFFC⟩, by simp [commandRows], rfl,
    commandWord_inRow 5#4 0#8 (0#6 ++ m.target) 0xFF#8 0xFC#8 0#8 0#8 rfl (target_and _)⟩

theorem send (n : Byte) : Statement (.send n) :=
  ⟨⟨"SEND", 24, 0x600000, 0xFFFF00⟩, by simp [commandRows], rfl,
    commandWord_inRow 6#4 0#8 n 0xFF#8 0#8 0#8 0#8 rfl (by simp)⟩

theorem poll (t : BitVec 16) : Statement (.poll t) :=
  ⟨⟨"POLL", 24, 0x700000, 0xFF0000⟩, by simp [commandRows], rfl,
    commandWord_inRow 7#4 (t.extractLsb' 8 8) (t.extractLsb' 0 8) 0#8 0#8 0#8 0#8 (by simp) (by simp)⟩

theorem busWrite (a : RegAddr) (d : Byte) : Statement (.busWrite a d) :=
  ⟨⟨"BUS.WRITE", 16, 0x8000, 0x8000⟩, by simp [frameRows], rfl, frameWord_inRow 1#1 a 0#7 0#7 d (by simp)⟩

theorem busRead (a : RegAddr) (d : Byte) : Statement (.busRead a d) :=
  ⟨⟨"BUS.READ", 16, 0x0000, 0x8000⟩, by simp [frameRows], rfl, frameWord_inRow 0#1 a 0#7 0#7 d (by simp)⟩

theorem busWriteFifo (d : Byte) : Statement (.busWriteFifo d) :=
  ⟨⟨"BUS.WRITE.A_FIFO", 16, 0x8000, 0xFF00⟩, by simp [frameRows], rfl,
    frameWord_inRow 1#1 0x00#7 0x7F#7 0x00#7 d (addr_and _)⟩

theorem busReadFifo (d : Byte) : Statement (.busReadFifo d) :=
  ⟨⟨"BUS.READ.A_FIFO", 16, 0x0000, 0xFF00⟩, by simp [frameRows], rfl,
    frameWord_inRow 0#1 0x00#7 0x7F#7 0x00#7 d (addr_and _)⟩

theorem busWriteOpMode (d : Byte) : Statement (.busWriteOpMode d) :=
  ⟨⟨"BUS.WRITE.A_OPMODE", 16, 0x8100, 0xFF00⟩, by simp [frameRows], rfl,
    frameWord_inRow 1#1 0x01#7 0x7F#7 0x01#7 d (addr_and _)⟩

theorem busWriteFifoAddrPtr (d : Byte) : Statement (.busWriteFifoAddrPtr d) :=
  ⟨⟨"BUS.WRITE.A_FIFO_ADDR_PTR", 16, 0x8D00, 0xFF00⟩, by simp [frameRows], rfl,
    frameWord_inRow 1#1 0x0D#7 0x7F#7 0x0D#7 d (addr_and _)⟩

theorem busWriteIrqFlags (d : Byte) : Statement (.busWriteIrqFlags d) :=
  ⟨⟨"BUS.WRITE.A_IRQ_FLAGS", 16, 0x9200, 0xFF00⟩, by simp [frameRows], rfl,
    frameWord_inRow 1#1 0x12#7 0x7F#7 0x12#7 d (addr_and _)⟩

theorem busWriteDioMapping (d : Byte) : Statement (.busWriteDioMapping d) :=
  ⟨⟨"BUS.WRITE.A_DIO_MAPPING", 16, 0xC000, 0xFF00⟩, by simp [frameRows], rfl,
    frameWord_inRow 1#1 0x40#7 0x7F#7 0x40#7 d (addr_and _)⟩

theorem busReadVersion (d : Byte) : Statement (.busReadVersion d) :=
  ⟨⟨"BUS.READ.A_VERSION", 16, 0x4200, 0xFF00⟩, by simp [frameRows], rfl,
    frameWord_inRow 0#1 0x42#7 0x7F#7 0x42#7 d (addr_and _)⟩

end Sys2Proof.Laws.RowMatch
end

