-- ==== Sys2Proof/Tests/Slice0.lean ====
section
/-! SUPPORT. The model's own tests. Every expected result is from spec/95_test_vectors.md (its vector is named in the
docstring), from a rule's own example, or is written out from the spec's encoding. Then, for every obligation with
hypotheses, a concrete state and operands that meet them. -/

namespace Sys2Proof.Tests

open Sys2Proof Sys2Proof.Machine

/-! ## Small states and helpers -/

/-- A quiet draw with Radio steps before its micro-step. -/
def withEvents (es : List RadioEvent) : Draw := { Draw.quiet with events := es }

/-- A draw whose frame fails, not seen by the chip. -/
def failing : Draw := { Draw.quiet with fate := .failsUnseen }

/-- A draw whose frame fails after the chip has taken it. -/
def failingTaken : Draw := { Draw.quiet with fate := .failsTaken }

/-- The RadioConfig of program P1. -/
def config433 : RadioConfig :=
  { freq := 433000000#32, sf := 7#4, bw := 125000#32, cr := 5#4, crcEn := true, preamble := 8#16, txPower := 17#8 }

/-- After power-on, with the RadioConfig of P1 written. -/
def fresh : State := { State.reset with radio := config433 }

/-- A configured core in a mode, its chip in long-range mode. -/
def ready (m : Mode) : State :=
  { fresh with mode := m, configured := true, chip := { Chip.powerOn with mode := m, opHigh := 0b10000#5 } }

/-- "HELLO" in TXBUF. -/
def hello : Mem := { cells := [(0, 0x48#8), (1, 0x45#8), (2, 0x4C#8), (3, 0x4C#8), (4, 0x4F#8)], epoch := 1 }

/-- Configured in Standby, with "HELLO" to send. -/
def sender : State := { ready .standby with txBuf := hello }

/-- Listening, with a packet of `n` bytes waiting whose last byte lies at FIFO index 1 (the readout wraps). -/
def listener (flags n : Byte) : State :=
  { ready .rxContinuous with
    chip :=
      { Chip.powerOn with
        mode := .rxContinuous, opHigh := 0b10000#5, irqFlags := flags, fifoRxCurrent := 0xFE#8, rxNbBytes := n
        pktRssi := 0x6F#8, pktSnr := 0x24#8, rxwp := 2#8
        fifo := { cells := [(0, 0xA3#8), (1, 0xA4#8), (254, 0xA1#8), (255, 0xA2#8)], epoch := 0 } } }

/-- No chip attached: the version register reads 0x00 (program P7). -/
def absent : State := { fresh with cfg := { Cfg.reference with chipPresent := false, chipVersion := 0#8 } }

/-- Whether an outcome is a next state of which a check holds. -/
def reads (o : Outcome) (f : State → Bool) : Bool :=
  match o with
  | .next t => f t
  | _ => false

/-- A check of a next state shows that there is one. -/
theorem next_of_reads {o : Outcome} {f : State → Bool} (h : reads o f = true) : ∃ t, o = .next t ∧ f t = true := by
  cases o with
  | next t => exact ⟨t, rfl, h⟩
  | fault r => cases h
  | refused r => cases h

/-! ## Decoding: every constructor's word, written out from the spec's encoding (vectors V-DEC, V-BUS) -/

/-- V-DEC; OP, Z, KA, KB of 30_encoding.md R92, bit by bit. -/
theorem test_decode_rdreg :
    decodeCommand 0b0001_0000_01000010_00000000#24 = .ok (.rdreg 0x42#7) ∧
    decodeCommand 0x107F00#24 = .ok (.rdreg 0x7F#7) ∧ decodeCommand 0x100000#24 = .ok (.rdreg 0x00#7) ∧
    decodeCommand 0x108000#24 = .error .operandBits ∧ decodeCommand 0x104201#24 = .error .operandBits := by decide

theorem test_decode_wrreg :
    decodeCommand 0b0010_0000_00010010_11111111#24 = .ok (.wrreg 0x12#7 0xFF#8) ∧
    decodeCommand 0x200C20#24 = .ok (.wrreg 0x0C#7 0x20#8) ∧ decodeCommand 0x208C20#24 = .error .operandBits := by decide

theorem test_decode_synth :
    decodeCommand 0b0011_0000_00000000_00000000#24 = .ok .synth ∧
    decodeCommand 0x300001#24 = .error .operandBits := by decide

theorem test_decode_configure :
    decodeCommand 0b0100_0000_00000000_00000000#24 = .ok .configure ∧
    decodeCommand 0x400100#24 = .error .operandBits := by decide

theorem test_decode_setmode :
    decodeCommand 0b0101_0000_00000000_00000000#24 = .ok (.setmode .sleep) ∧
    decodeCommand 0x500001#24 = .ok (.setmode .standby) ∧ decodeCommand 0x500002#24 = .ok (.setmode .tx) ∧
    decodeCommand 0x500003#24 = .ok (.setmode .rxContinuous) ∧ decodeCommand 0x500004#24 = .error .operandBits := by
  decide

theorem test_decode_send :
    decodeCommand 0b0110_0000_00000000_00000101#24 = .ok (.send 5#8) ∧ decodeCommand 0x600000#24 = .ok (.send 0#8) ∧
    decodeCommand 0x6000FF#24 = .ok (.send 255#8) ∧ decodeCommand 0x600105#24 = .error .operandBits := by decide

theorem test_decode_poll :
    decodeCommand 0b0111_0000_00000011_11101000#24 = .ok (.poll 1000#16) ∧
    decodeCommand 0x700000#24 = .ok (.poll 0#16) ∧ decodeCommand 0x70FFFF#24 = .ok (.poll 65535#16) := by decide

/-- V-DEC: the reserved operation codes and a non-zero Z. -/
theorem test_decode_illegal :
    decodeCommand 0x000000#24 = .error .reservedOp ∧ decodeCommand 0x800000#24 = .error .reservedOp ∧
    decodeCommand 0xF00000#24 = .error .reservedOp ∧ decodeCommand 0x610005#24 = .error .zNotZero := by decide

/-- V-BUS; W, A, D of 30_encoding.md R91, bit by bit. -/
theorem test_decode_frames :
    decodeFrame RegMap.reference 0b1_0000110_01101100#16 = .busWrite 0x06#7 0x6C#8 ∧
    decodeFrame RegMap.reference 0b1_1111111_11111111#16 = .busWrite 0x7F#7 0xFF#8 ∧
    decodeFrame RegMap.reference 0b0_0010010_00000000#16 = .busRead 0x12#7 0x00#8 ∧
    decodeFrame RegMap.reference 0x7F00#16 = .busRead 0x7F#7 0x00#8 ∧
    decodeFrame RegMap.reference 0b1_0000000_01001000#16 = .busWriteFifo 0x48#8 ∧
    decodeFrame RegMap.reference 0b0_0000000_00000000#16 = .busReadFifo 0x00#8 ∧
    decodeFrame RegMap.reference 0b1_0000001_10000000#16 = .busWriteOpMode 0x80#8 ∧
    decodeFrame RegMap.reference 0b1_0001101_00000000#16 = .busWriteFifoAddrPtr 0x00#8 ∧
    decodeFrame RegMap.reference 0b1_0010010_00001000#16 = .busWriteIrqFlags 0x08#8 ∧
    decodeFrame RegMap.reference 0b1_1000000_01000000#16 = .busWriteDioMapping 0x40#8 ∧
    decodeFrame RegMap.reference 0b0_1000010_00000000#16 = .busReadVersion 0x00#8 := by decide

/-- The words as spec/opcode_table.json numbers their bits. -/
theorem test_decodeTableWord :
    decodeTableWord 24 0x600005 = some (.send 5#8) ∧ decodeTableWord 16 0x8048 = some (.busWriteFifo 0x48#8) ∧
    decodeTableWord 24 0x800000 = none ∧ decodeTableWord 8 0 = none := by decide

/-! ## Well-formedness: an ill-formed term for each check, which the check refuses -/

/-- A frame to a register with a row of its own is not the generic row. -/
theorem test_wf_refuses :
    Instr.wf RegMap.reference (.busWrite 0x00#7 0#8) = false ∧ Instr.wf RegMap.reference (.busWrite 0x01#7 0#8) = false ∧
    Instr.wf RegMap.reference (.busWrite 0x0D#7 0#8) = false ∧ Instr.wf RegMap.reference (.busWrite 0x12#7 0#8) = false ∧
    Instr.wf RegMap.reference (.busWrite 0x40#7 0#8) = false ∧ Instr.wf RegMap.reference (.busRead 0x00#7 0#8) = false ∧
    Instr.wf RegMap.reference (.busRead 0x42#7 0#8) = false := by decide

theorem test_wf_accepts :
    Instr.wf RegMap.reference (.busWrite 0x7F#7 0#8) = true ∧ Instr.wf RegMap.reference (.busWrite 0x42#7 0#8) = true ∧
    Instr.wf RegMap.reference (.busRead 0x12#7 0#8) = true ∧ Instr.wf RegMap.reference (.rdreg 0x7F#7) = true := by decide

/-- A register map with two registers at one address, or with the frequency registers out of order, is refused
(10_state.md R33); so is a configuration with two equal mode codes, with two equal flag bits, or with the long-range bit
inside the mode field. -/
theorem test_cfg_wf :
    Cfg.reference.wf = true ∧ RegMap.wf { RegMap.reference with lna := 0x01#7 } = false ∧
    RegMap.wf { RegMap.reference with frfMid := 0x50#7 } = false ∧
    Cfg.wf { Cfg.reference with modeCodes := { sleep := 0#3, standby := 0#3, tx := 3#3, rxContinuous := 5#3 } } = false ∧
    Cfg.wf { Cfg.reference with irqBits := { txDone := 3, payloadCrcError := 3, rxDone := 6 } } = false ∧
    Cfg.wf { Cfg.reference with loraBit := 2 } = false ∧ Cfg.wf { Cfg.reference with mapTxDone := 0#8 } = false ∧
    Cfg.wf { Cfg.reference with chipPresent := false } = false := by decide

/-! ## Bytes and numbers -/

/-- The mode bytes of the default configuration (head of 95_test_vectors.md). -/
theorem test_mode_bytes :
    modeByte Cfg.reference .sleep = 0x80#8 ∧ modeByte Cfg.reference .standby = 0x81#8 ∧
    modeByte Cfg.reference .tx = 0x83#8 ∧ modeByte Cfg.reference .rxContinuous = 0x85#8 := by decide

/-- V-CFG, the assembled bytes. -/
theorem test_assembled_bytes :
    modemConfig1Byte 7#4 5#4 = 0x72#8 ∧ modemConfig1Byte 9#4 8#4 = 0x98#8 ∧ modemConfig1Byte 0#4 5#4 = 0x02#8 ∧
    modemConfig1Byte 8#4 6#4 = 0x84#8 ∧ modemConfig2Byte 7#4 true = 0x74#8 ∧ modemConfig2Byte 12#4 false = 0xC0#8 ∧
    paEncode Cfg.reference 2#8 = 0x80#8 ∧ paEncode Cfg.reference 17#8 = 0x8F#8 ∧ preambleHigh 300#16 = 0x01#8 ∧
    preambleLow 300#16 = 0x2C#8 := by decide

/-- V-RSSI, V-SNR. -/
theorem test_conversions :
    (rssiDbmOf 0#8).toInt = -157 ∧ (rssiDbmOf 157#8).toInt = 0 ∧ (rssiDbmOf 200#8).toInt = 43 ∧
    (rssiDbmOf 255#8).toInt = 98 ∧ (snrQOf 20#8).toInt = 20 ∧ (snrQOf 0xEC#8).toInt = -20 ∧
    (snrQOf 128#8).toInt = -128 := by decide

/-- V-SYNTH and its tie rule. -/
theorem test_synthesize :
    synthesize? 433000000 32000000 19 = some 0x6C4000#24 ∧ synthesize? 31 32000000 19 = some 1#24 ∧
    synthesize? 30 32000000 19 = some 0#24 ∧ synthesize? 433175000 32000000 19 = some 0x6C4B33#24 ∧
    synthesize? 1023999970 32000000 19 = none ∧ synthesize? 1 1048576 19 = some 1#24 ∧
    synthesize? 3 1048576 19 = some 2#24 ∧ synthesize? 1 0 19 = none := by decide +kernel

/-- V-W1C. -/
theorem test_write_one_to_clear :
    irqClear 0x48#8 0x48#8 = 0#8 ∧ irqClear 0x48#8 0x08#8 = 0x40#8 ∧ irqClear 0x48#8 0#8 = 0x48#8 ∧
    irqClear 0x08#8 0x40#8 = 0x08#8 := by decide

/-- V-DIO. -/
theorem test_dio :
    dioLevel Draw.quiet (listener 0x40#8 0#8) = true ∧ dioLevel Draw.quiet (listener 0x08#8 0#8) = false ∧
    dioLevel Draw.quiet (listener 0x20#8 0#8) = false ∧
    dioLevel Draw.quiet { listener 0x08#8 0#8 with chip := { Chip.powerOn with dioMapping := 0x40#8, irqFlags := 0x08#8 } }
      = true := by decide

/-- The numbers of the result codes (60_exceptions.md R200). -/
theorem test_result_codes :
    [ResultCode.ok, .busError, .configError, .disconnected, .txTimeout, .rxTimeout, .crcError, .badCommand].map
      ResultCode.code = [0#3, 1#3, 2#3, 3#3, 4#3, 5#3, 6#3, 7#3] := by decide

/-! ## One step of each instruction -/

/-- V-REG-5, its second half: the pointer wraps from 255 to 0. -/
theorem test_rdreg_fifo_wraps :
    reads (exec (.rdreg 0x00#7) { listener 0#8 0#8 with chip := { (listener 0#8 0#8).chip with fifoAddrPtr := 0xFF#8 } })
      (fun t => t.rdata == 0xA2#8 && t.chip.fifoAddrPtr == 0#8 && t.busLog == [⟨false, 0x00#7, 0xA2#8⟩] &&
        t.status == .ok) = true := by decide +kernel

/-- V-REG-14: a failed frame. -/
theorem test_rdreg_bus_failure :
    reads (exec (.rdreg 0x42#7) { ready .standby with env := [failing] })
      (fun t => t.status == .busError && !t.configured && t.busLog == []) = true := by decide +kernel

/-- V-REG-6. -/
theorem test_wrreg_clears_one_flag :
    reads (exec (.wrreg 0x12#7 0x08#8) (listener 0x48#8 0#8))
      (fun t => t.chip.irqFlags == 0x40#8 && t.busLog == [⟨true, 0x12#7, 0x08#8⟩] && t.status == .ok) = true := by
  decide +kernel

/-- V-REG-8. -/
theorem test_wrreg_configuration_outside_sleep :
    reads (exec (.wrreg 0x0C#7 0x20#8) (ready .standby))
      (fun t => t.status == .configError && t.busLog == [] && t.configured && t.chip.lna == 0#8) = true := by
  decide +kernel

/-- V-SYNTH, the source's frequency. -/
theorem test_synth :
    reads (exec .synth fresh) (fun t => t.frf == 0x6C4000#24 && t.status == .ok && t.busLog == []) = true := by
  decide +kernel

/-- V-SYNTH, the first frequency with no value. -/
theorem test_synth_no_value :
    reads (exec .synth { fresh with radio := { config433 with freq := 1023999970#32 }, frf := 5#24 })
      (fun t => t.frf == 5#24 && t.status == .configError) = true := by decide +kernel

/-- Program P1: the fifteen records and the end state. -/
theorem test_configure :
    reads (exec .configure fresh)
      (fun t =>
        t.busLog ==
          [⟨true, 0x01#7, 0x80#8⟩, ⟨true, 0x06#7, 0x6C#8⟩, ⟨true, 0x07#7, 0x40#8⟩, ⟨true, 0x08#7, 0x00#8⟩,
           ⟨true, 0x09#7, 0x8F#8⟩, ⟨true, 0x0C#7, 0x23#8⟩, ⟨true, 0x1D#7, 0x72#8⟩, ⟨true, 0x1E#7, 0x74#8⟩,
           ⟨true, 0x1F#7, 0x64#8⟩, ⟨true, 0x20#7, 0x00#8⟩, ⟨true, 0x21#7, 0x08#8⟩, ⟨true, 0x0E#7, 0x00#8⟩,
           ⟨true, 0x0F#7, 0x00#8⟩, ⟨true, 0x01#7, 0x81#8⟩, ⟨false, 0x42#7, 0x12#8⟩] &&
        t.status == .ok && t.configured && t.mode == .standby && t.chip.mode == .standby && t.frf == 0x6C4000#24 &&
        t.chip.irqFlags == 0#8 && t.resetN) = true := by decide +kernel

/-- V-CFG-20: the frame of micro-step 9, the eleventh draw of the command, fails. -/
theorem test_configure_bus_failure :
    reads (exec .configure { fresh with env := List.replicate 10 Draw.quiet ++ [failing] })
      (fun t => t.status == .busError && t.busLog.length == 4 && t.mode == .sleep && !t.configured &&
        t.frf == 0x6C4000#24) = true := by decide +kernel

/-- V-MODE-6: re-issuing RxContinuous resets the write pointer. -/
theorem test_setmode_rxcont :
    reads (exec (.setmode .rxContinuous) (listener 0#8 0#8))
      (fun t => t.chip.rxwp == 0#8 && t.busLog == [⟨true, 0x01#7, 0x85#8⟩] && t.mode == .rxContinuous) = true := by
  decide +kernel

/-- V-MODE-8: the record is not updated by a failed frame. -/
theorem test_setmode_bus_failure :
    reads (exec (.setmode .standby) { ready .sleep with env := [failing] })
      (fun t => t.status == .busError && t.mode == .sleep && !t.configured && t.busLog == []) = true := by decide +kernel

/-- Program P2: "HELLO" with the completion during the settle delay of S6. -/
theorem test_send :
    reads (exec (.send 5#8) { sender with env := List.replicate 11 Draw.quiet ++ [withEvents [.txDone]] })
      (fun t =>
        t.busLog ==
          [⟨true, 0x01#7, 0x81#8⟩, ⟨true, 0x0D#7, 0x00#8⟩, ⟨true, 0x00#7, 0x48#8⟩, ⟨true, 0x00#7, 0x45#8⟩,
           ⟨true, 0x00#7, 0x4C#8⟩, ⟨true, 0x00#7, 0x4C#8⟩, ⟨true, 0x00#7, 0x4F#8⟩, ⟨true, 0x22#7, 0x05#8⟩,
           ⟨true, 0x40#7, 0x40#8⟩, ⟨true, 0x01#7, 0x83#8⟩, ⟨false, 0x12#7, 0x08#8⟩, ⟨true, 0x12#7, 0x08#8⟩,
           ⟨true, 0x01#7, 0x81#8⟩] &&
        t.status == .ok && t.mode == .standby && t.txLog == [[0x48#8, 0x45#8, 0x4C#8, 0x4C#8, 0x4F#8]] &&
        t.chip.irqFlags == 0#8 && t.chip.fifoAddrPtr == 5#8) = true := by decide +kernel

/-- V-SEND-7: the stale TxDone flag. -/
theorem test_send_stale_flag :
    reads (exec (.send 5#8) { sender with chip := { sender.chip with irqFlags := 0x08#8 } })
      (fun t => t.status == .ok && t.txLog == []) = true := by decide +kernel

/-- V-POLL-6: the readout wraps. -/
theorem test_poll :
    reads (exec (.poll 2000#16) (listener 0x40#8 4#8))
      (fun t => t.status == .ok && t.packet.valid && t.packet.rxLen == 4#8 && t.packet.rssiDbm.toInt == -46 &&
        t.packet.snrQ.toInt == 36 && t.chip.fifoAddrPtr == 2#8 && t.chip.irqFlags == 0#8 &&
        t.packet.rxBuf.cells == [(0, 0xA1#8), (1, 0xA2#8), (2, 0xA3#8), (3, 0xA4#8)] && t.busLog.length == 12) = true := by
  decide +kernel

/-- Program P6: the bad packet. -/
theorem test_poll_crc_error :
    reads (exec (.poll 500#16) (listener 0x60#8 2#8))
      (fun t => t.status == .crcError && !t.packet.valid && t.chip.rxwp == 0#8 && t.configured &&
        t.busLog == [⟨true, 0x40#7, 0x00#8⟩, ⟨false, 0x12#7, 0x60#8⟩, ⟨true, 0x12#7, 0x60#8⟩, ⟨true, 0x01#7, 0x85#8⟩])
      = true := by decide +kernel

/-- V-REG-15, at the bus: a write of a read-only register changes nothing; V-BUS: a write of a frequency byte in
Sleep. -/
theorem test_busWrite :
    reads (exec (.busWrite 0x42#7 0x55#8) fresh) (fun t => t.chip.value t.cfg .version == 0x12#8) = true ∧
    reads (exec (.busWrite 0x06#7 0x6C#8) fresh) (fun t => t.chip.frfMsb == 0x6C#8) = true := by decide +kernel

/-- V-REG-3, at the bus. -/
theorem test_busRead :
    reads (exec (.busRead 0x12#7 0x00#8) (listener 0x48#8 0#8))
      (fun t => t.busLog == [⟨false, 0x12#7, 0x48#8⟩] && t.chip.irqFlags == 0x48#8) = true := by decide +kernel

/-- V-BUS: a write of the FIFO register. -/
theorem test_busWriteFifo :
    reads (exec (.busWriteFifo 0x48#8) fresh)
      (fun t => t.chip.fifo.cells == [(0, 0x48#8)] && t.chip.fifoAddrPtr == 1#8) = true := by decide +kernel

/-- V-BUS: a read of the FIFO register. -/
theorem test_busReadFifo :
    reads (exec (.busReadFifo 0x00#8) (listener 0#8 0#8))
      (fun t => t.busLog == [⟨false, 0x00#7, 0xA3#8⟩] && t.chip.fifoAddrPtr == 1#8) = true := by decide +kernel

/-- 10_state.md R34: entering Sleep discards the FIFO; a reserved code has no meaning. -/
theorem test_busWriteOpMode :
    reads (exec (.busWriteOpMode 0x80#8) (listener 0#8 0#8))
      (fun t => t.chip.mode == .sleep && t.chip.fifo.cells == []) = true ∧
    (match exec (.busWriteOpMode 0x82#8) (ready .standby) with | .refused r => r == .reservedModeCode | _ => false) =
      true := by decide +kernel

/-- 10_state.md R40. -/
theorem test_busWriteFifoAddrPtr :
    reads (exec (.busWriteFifoAddrPtr 0xFE#8) fresh) (fun t => t.chip.fifoAddrPtr == 0xFE#8) = true := by decide +kernel

/-- V-W1C, at the bus. -/
theorem test_busWriteIrqFlags :
    reads (exec (.busWriteIrqFlags 0x08#8) (listener 0x48#8 0#8)) (fun t => t.chip.irqFlags == 0x40#8) = true := by
  decide +kernel

/-- V-REG-13, at the bus: the line falls with the mapping. -/
theorem test_busWriteDioMapping :
    reads (exec (.busWriteDioMapping 0x40#8) (listener 0x40#8 0#8)) (fun t => !dioLevel Draw.quiet t) = true := by
  decide +kernel

/-- V-REG-2, at the bus, with no chip attached. -/
theorem test_busReadVersion :
    reads (exec (.busReadVersion 0x00#8) absent) (fun t => t.busLog == [⟨false, 0x42#7, 0x00#8⟩]) = true := by
  decide +kernel

/-- 42_mode.md R132: after the release of RESET_N no flag is raised until the first frame; 45_chip_events.md R188: after
it one is. -/
theorem test_radio_in_reset :
    (radioStep (.irqOther 0x01#8) { fresh with phase := .cfgSleep [] }).chip.irqFlags = 0x00#8 ∧
    (radioStep (.irqOther 0x01#8) { fresh with phase := .cfgSleepSettle [] }).chip.irqFlags = 0x01#8 := by decide

/-- 10_state.md R21: TXBUF ends at index 254. -/
theorem test_txbuf_bound :
    reads (step { fresh with inbox := [.hostWrite (.txBuf 254#8 1#8)] }) (fun t => t.txBuf.cells == [(254, 1#8)]) = true ∧
    (match step { fresh with inbox := [.hostWrite (.txBuf 255#8 1#8)] } with
      | .fault r => r == .noSuchTxBufIndex
      | _ => false) = true := by decide +kernel

/-! ## Witnesses: for every obligation with hypotheses, a concrete state and operands that meet them, one per clause -/

theorem reference_wf : Cfg.reference.wf = true := by decide

theorem ready_ready (m : Mode) : (ready m).Ready :=
  ⟨reference_wf, rfl, rfl, rfl, rfl, fun _ => ⟨rfl, by simp [Chip.lora, ready]; decide⟩⟩

theorem ready_inv (m : Mode) : (ready m).Inv :=
  ⟨reference_wf, by intro w; simp [ready, fresh, State.reset], rfl, rfl, rfl, rfl, rfl, fun _ => (ready_ready m).agree⟩

theorem fresh_inv : fresh.Inv :=
  ⟨reference_wf, by intro w; simp [fresh, State.reset], rfl, rfl, rfl, rfl, rfl, fun h => by cases h⟩

theorem sender_ready : sender.Ready :=
  ⟨reference_wf, rfl, rfl, rfl, rfl, fun _ => ⟨rfl, by decide⟩⟩

theorem listener_ready (flags n : Byte) : (listener flags n).Ready :=
  ⟨reference_wf, rfl, rfl, rfl, rfl, fun _ => ⟨rfl, by simp [Chip.lora, listener]; decide⟩⟩

theorem quiet_env {s : State} (h : s.env = []) : s.hostQuiet ∧ s.busSound ∧ s.airQuiet := by
  simp [State.hostQuiet, State.busSound, State.airQuiet, h]

theorem config433_valid (c : Cfg) (h : c = Cfg.reference ∨ c = absent.cfg) : ValidConfig c config433 0x6C4000#24 7#4 := by
  rcases h with rfl | rfl <;> exact ⟨by decide, by decide, by decide, by decide, by decide, by decide, by decide⟩

/-- A completed instruction and what a check finds in its next state. -/
theorem ends {i : Instr} {s : State} (f : State → Bool) (h : reads (exec i s) f = true) :
    ∃ t, exec i s = .next t ∧ f t = true := next_of_reads h

theorem witness_DecodeOfEncode :
    RegMap.reference.wf = true ∧ Instr.wf RegMap.reference (.busWrite 0x7F#7 0xFF#8) = true ∧
    Instr.wf RegMap.reference (.busRead 0x41#7 0xFF#8) = true ∧ Instr.wf RegMap.reference (.rdreg 0x7F#7) = true := by
  decide

theorem witness_EncodeOfDecode :
    RegMap.reference.wf = true ∧ decode RegMap.reference (.command 0x70FFFF#24) = .ok (.poll 65535#16) ∧
    decode RegMap.reference (.frame 0xC040#16) = .ok (.busWriteDioMapping 0x40#8) := by decide

theorem witness_WordsMatchTheirRows :
    (∃ row ∈ commandRows, (0x107F00 : Nat) &&& row.mask = row.pattern) ∧
    (∃ row ∈ frameRows, row.mask = 0xFF00) := by decide

theorem witness_StepRunsTheDecodedInstruction :
    (∃ s : State, s.phase = .idle ∧ s.inbox = [.command 0x600005#24] ∧ decodeCommand 0x600005#24 = .ok (.send 5#8)) ∧
    (∃ s : State, s.phase = .idle ∧ s.inbox = [.frame 0x8048#16]) :=
  ⟨⟨{ fresh with inbox := [.command 0x600005#24] }, rfl, rfl, by decide⟩,
    ⟨{ fresh with inbox := [.frame 0x8048#16] }, rfl, rfl⟩⟩

theorem witness_PlacedWordRunsNext :
    fresh.cfg.map = RegMap.reference ∧ decodeTableWord 24 0x70FFFF = some (.poll 65535#16) ∧
    decodeTableWord 16 0x4200 = some (.busReadVersion 0#8) := by decide

/-- Clauses 2 to 4: a busy state whose step answers, a busy state, an idle state with a word presented. -/
theorem witness_BusyHoldsThePresentedWord :
    (∃ s t : State, s.busy = true ∧ step s = .next t ∧ s.inbox = [.command 0x600005#24]) ∧
    (∃ s t : State, ∃ w rest, s.busy = false ∧ s.inbox = .command w :: rest ∧ step s = .next t) := by
  refine ⟨⟨{ fresh with phase := .setmodeEnd, inbox := [.command 0x600005#24] }, _, rfl, rfl, rfl⟩, ?_⟩
  obtain ⟨t, ht, -⟩ := next_of_reads (f := fun _ => true)
    (o := step { fresh with inbox := [.command 0x300000#24] }) (by decide +kernel)
  exact ⟨{ fresh with inbox := [.command 0x300000#24] }, t, 0x300000#24, [], rfl, rfl, ht⟩

theorem witness_IllegalWordIsReported :
    ∃ s : State, s.phase = .idle ∧ s.inbox = [.command 0x610005#24] ∧
      ∀ row ∈ commandRows, (0x610005#24).toNat &&& row.mask ≠ row.pattern :=
  ⟨{ fresh with inbox := [.command 0x610005#24] }, rfl, rfl, by decide⟩

theorem witness_UnconfiguredCommandsAreRefused : fresh.phase = .idle ∧ fresh.configured = false := ⟨rfl, rfl⟩

theorem witness_EveryCommandEndsWithItsOwnCode :
    (ready .standby).Inv ∧ (ready .standby).phase = .idle ∧ (ready .standby).hostQuiet ∧
    isCommand (.wrreg 0x42#7 0xFF#8) = true ∧ (ready .standby).cfg.map.lookup 0x42#7 ≠ none :=
  ⟨ready_inv _, rfl, (quiet_env rfl).1, rfl, by decide⟩

/-- A command of each shape that answers: RDREG, WRREG, SYNTH while not configured, SETMODE, POLL. -/
theorem witness_CommandsKeepWhatTheyDoNotName :
    (∃ t, exec (.rdreg 0x42#7) fresh = .next t ∧ isCommand (.rdreg 0x42#7) = true) ∧
    (∃ t, exec (.wrreg 0x12#7 0xFF#8) fresh = .next t ∧ isCommand (.wrreg 0x12#7 0xFF#8) = true) ∧
    (∃ t, exec .synth fresh = .next t ∧ isCommand .synth = true ∧ fresh.configured = false ∧ fresh.phase = .idle) ∧
    (∃ t, exec (.setmode .tx) (ready .tx) = .next t ∧ isCommand (.setmode .tx) = true) ∧
    (∃ t, exec (.poll 0#16) (ready .sleep) = .next t ∧ isCommand (.poll 0#16) = true) := by
  refine ⟨?_, ?_, ?_, ?_, ?_⟩
  · obtain ⟨t, h, -⟩ := ends (i := .rdreg 0x42#7) (s := fresh) (fun _ => true) (by decide +kernel)
    exact ⟨t, h, rfl⟩
  · obtain ⟨t, h, -⟩ := ends (i := .wrreg 0x12#7 0xFF#8) (s := fresh) (fun _ => true) (by decide +kernel)
    exact ⟨t, h, rfl⟩
  · obtain ⟨t, h, -⟩ := ends (i := .synth) (s := fresh) (fun _ => true) (by decide +kernel)
    exact ⟨t, h, rfl, rfl, rfl⟩
  · obtain ⟨t, h, -⟩ := ends (i := .setmode .tx) (s := ready .tx) (fun _ => true) (by decide +kernel)
    exact ⟨t, h, rfl⟩
  · obtain ⟨t, h, -⟩ := ends (i := .poll 0#16) (s := ready .sleep) (fun _ => true) (by decide +kernel)
    exact ⟨t, h, rfl⟩

theorem witness_OnlyValidationAndSynthReadTheRadioConfig :
    (∃ s : State, s.phase = .sendMap ∧ s.phase ≠ .synthEval ∧ s.phase ≠ .cfgValidate) ∧
    Instr.send 5#8 ≠ .synth ∧ Instr.send 5#8 ≠ .configure :=
  ⟨⟨{ fresh with phase := .sendMap }, rfl, by decide, by decide⟩, by decide, by decide⟩

/-- A chip attached, and none attached (at the version register and elsewhere). -/
theorem witness_RdregReturnsTheRegister :
    (Cfg.reference.wf = true ∧ (listener 0x40#8 3#8).cfg.chipPresent = true ∧ (listener 0x40#8 3#8).phase = .idle ∧
      (listener 0x40#8 3#8).hostQuiet ∧ (listener 0x40#8 3#8).busSound ∧ (listener 0x40#8 3#8).airQuiet) ∧
    absent.cfg.chipPresent = false ∧ absent.phase = .idle ∧ absent.hostQuiet ∧ absent.busSound ∧
    absent.cfg.map.lookup 0x42#7 = some .version ∧ absent.cfg.map.lookup 0x12#7 = some .irqFlags :=
  ⟨⟨reference_wf, rfl, rfl, quiet_env rfl⟩, rfl, rfl, (quiet_env rfl).1, (quiet_env rfl).2.1, by decide, by decide⟩

theorem witness_RdregOutsideTheMapCompletes :
    fresh.cfg.map.lookup 0x7F#7 = none ∧ fresh.phase = .idle ∧ fresh.hostQuiet ∧ fresh.busSound ∧ fresh.airQuiet :=
  ⟨by decide, rfl, quiet_env rfl⟩

/-- A configuration register in Sleep, and with no such premise the FIFO, the flags, a read-only register; and with no
chip attached a plain register, an address outside the map, and (configured in Sleep) a configuration register. -/
theorem witness_WrregWritesTheRegister :
    ((ready .sleep).cfg.wf = true ∧ (ready .sleep).cfg.chipPresent = true ∧ (ready .sleep).phase = .idle ∧
      (ready .sleep).configured = true ∧ (ready .sleep).mode = .sleep ∧ (ready .sleep).chip.mode = .sleep ∧
      Reg.lna.isCfg = true ∧ Reg.fifo.isCfg = false ∧ Reg.irqFlags.isCfg = false ∧ Reg.version.isCfg = false ∧
      Reg.version.isReadOnly = true ∧ (ready .sleep).hostQuiet ∧ (ready .sleep).busSound ∧ (ready .sleep).airQuiet) ∧
    (∀ a ∈ [0x12#7, 0x7F#7], absent.cfg.chipPresent = false ∧ absent.phase = .idle ∧ a ≠ absent.cfg.map.addr .opMode ∧
      ∀ r : Reg, r.isCfg = true → absent.cfg.map.lookup a ≠ some r) ∧
    (absent.hostQuiet ∧ absent.busSound) ∧
    ∃ s : State, s.cfg.chipPresent = false ∧ s.phase = .idle ∧ s.hostQuiet ∧ s.busSound ∧ s.configured = true ∧
      s.mode = .sleep ∧ s.cfg.map.lookup 0x0C#7 = some .lna :=
  ⟨⟨reference_wf, rfl, rfl, rfl, rfl, rfl, rfl, rfl, rfl, rfl, rfl, quiet_env rfl⟩,
    fun a ha => ⟨rfl, rfl, by
      simp only [List.mem_cons, List.not_mem_nil, or_false] at ha
      rcases ha with rfl | rfl <;> exact ⟨by decide, fun r hr => by
        cases r <;> first | (cases hr; done) | decide⟩⟩,
    ⟨(quiet_env rfl).1, (quiet_env rfl).2.1⟩,
    ⟨{ absent with configured := true }, rfl, rfl, (quiet_env rfl).1, (quiet_env rfl).2.1, rfl, rfl, by decide⟩⟩

/-- A configuration register while not configured, and while configured outside Sleep. -/
theorem witness_WrregGuardsRefuse :
    fresh.cfg.wf = true ∧ fresh.phase = .idle ∧ fresh.hostQuiet ∧ Reg.lna.isCfg = true ∧
    ¬ (fresh.configured = true ∧ fresh.mode = .sleep) ∧ (ready .standby).hostQuiet ∧
    ¬ ((ready .standby).configured = true ∧ (ready .standby).mode = .sleep) :=
  ⟨reference_wf, rfl, (quiet_env rfl).1, rfl, by decide, (quiet_env rfl).1, by decide⟩

/-- The highest frequency with a coefficient, the lowest without one, and a crystal of 0. -/
theorem witness_SynthWritesTheCoefficient :
    fresh.phase = .idle ∧ fresh.hostQuiet ∧ fresh.airQuiet ∧
    (2 * 1023999969 * 2 ^ 19 + 32000000) / (2 * 32000000) = (0xFFFFFF#24).toNat ∧
    2 ^ 24 ≤ (2 * 1023999970 * 2 ^ 19 + 32000000) / (2 * 32000000) ∧
    ({ fresh with cfg := { Cfg.reference with xtalHz := 0 } } : State).cfg.xtalHz = 0 :=
  ⟨rfl, (quiet_env rfl).1, (quiet_env rfl).2.2, by decide, by decide, rfl⟩

/-- The tie of V-SYNTH: `1 * 2^19 / 2^20` is a half. -/
theorem witness_SynthesizerDomainAndTies : 0 < 1048576 ∧ 2 * 1 * 2 ^ 19 = (2 * 0 + 1) * 1048576 := by decide

/-- V-SYNTH: 31 Hz gives 1, whose carrier 61.03515625 Hz rounds to 61 Hz. -/
theorem witness_SynthesizerRoundTrip :
    0 < 32000000 ∧ 31 ≤ 61 ∧ 2 ^ 19 < 32000000 ∧ frfNat 31 32000000 19 = 1 ∧
    |((61 : Nat) : Rat) - (frfNat 31 32000000 19 : Rat) * ((32000000 : Nat) : Rat) / 2 ^ 19| ≤ 1 / 2 := by
  have h : frfNat 31 32000000 19 = 1 := by decide
  rw [h]
  norm_num [abs_le]

theorem witness_FrequencyBytesAreBigEndian : RegMap.reference.wf = true := by decide

theorem witness_ModemConfigBytesHoldTheirFields :
    5 ≤ (5#4).toNat ∧ (5#4).toNat ≤ 8 ∧ 5 ≤ (8#4).toNat ∧ (8#4).toNat ≤ 8 := by decide

theorem witness_ConfigureCompletes :
    fresh.cfg.wf = true ∧ fresh.cfg.chipPresent = true ∧ fresh.phase = .idle ∧ fresh.hostQuiet ∧ fresh.busSound ∧
    ValidConfig fresh.cfg fresh.radio 0x6C4000#24 7#4 ∧ fresh.cfg.chipVersion = fresh.cfg.versionExpected :=
  ⟨reference_wf, rfl, rfl, (quiet_env rfl).1, (quiet_env rfl).2.1, config433_valid _ (.inl rfl), rfl⟩

/-- The RadioConfig of power-on: no spreading factor of 0 is valid. -/
theorem witness_InvalidRadioConfigIsRejected :
    State.reset.phase = .idle ∧ State.reset.hostQuiet ∧
    ∀ n code, ¬ ValidConfig State.reset.cfg State.reset.radio n code :=
  ⟨rfl, (quiet_env rfl).1, fun _ _ h => absurd h.sf.1 (by decide)⟩

/-- No chip attached, and a chip with another version byte. -/
theorem witness_WrongVersionIsDisconnected :
    (absent.cfg.wf = true ∧ absent.phase = .idle ∧ absent.hostQuiet ∧ absent.busSound ∧
      ValidConfig absent.cfg absent.radio 0x6C4000#24 7#4 ∧ absent.cfg.chipPresent = false) ∧
    Cfg.wf { Cfg.reference with chipVersion := 0xFF#8 } = true ∧ (0xFF#8 : Byte) ≠ Cfg.reference.versionExpected :=
  ⟨⟨by decide, rfl, (quiet_env rfl).1, (quiet_env rfl).2.1, config433_valid _ (.inr rfl), rfl⟩, by decide, by decide⟩

theorem witness_ResetPulseResetsTheChip :
    (∃ s : State, s.phase = .cfgResetLow [] ∧ s.nextDraw.hostWrites = [] ∧ s.cfg.chipPresent = true) ∧
    (∃ s : State, s.phase = .cfgResetLow [] ∧ s.nextDraw.hostWrites = [] ∧ s.cfg.chipPresent = false) ∧
    ∀ ph ∈ [Phase.cfgDelayLow [], .cfgResetHigh [], .cfgDelayHigh [], .cfgSleep []],
      ∃ s : State, s.phase = ph ∧ s.nextDraw.hostWrites = [] ∧ s.nextDraw.events = [.irqOther 0x01#8] :=
  ⟨⟨{ fresh with phase := .cfgResetLow [] }, rfl, rfl, rfl⟩, ⟨{ absent with phase := .cfgResetLow [] }, rfl, rfl, rfl⟩,
    fun ph _ => ⟨{ fresh with phase := ph, env := [withEvents [.irqOther 0x01#8]] }, rfl, rfl, rfl⟩⟩

theorem witness_SetModeMovesBothCopies :
    ((ready .tx).cfg.wf = true ∧ (ready .tx).modesAgree ∧ Draw.quiet.fate = .completes) ∧
    (∃ t, failing.fate ≠ .completes ∧ setModeFrame failing .tx .sendTxSettle (ready .standby) = .next t) :=
  ⟨⟨reference_wf, (ready_ready .tx).agree, rfl⟩, ⟨_, by decide, rfl⟩⟩

theorem witness_SetmodeCompletes :
    (ready .rxContinuous).Ready ∧ (ready .rxContinuous).hostQuiet ∧ (ready .rxContinuous).busSound ∧
    (ready .rxContinuous).cfg.chipPresent = true ∧ (ready .rxContinuous).airQuiet :=
  ⟨ready_ready _, (quiet_env rfl).1, (quiet_env rfl).2.1, rfl, (quiet_env rfl).2.2⟩

theorem witness_SendEndsInStandby :
    sender.Ready ∧ sender.hostQuiet ∧ sender.busSound ∧ sender.cfg.chipPresent = true ∧ sender.airQuiet :=
  ⟨sender_ready, (quiet_env rfl).1, (quiet_env rfl).2.1, rfl, (quiet_env rfl).2.2⟩

/-- A completed SEND of the longest payload, with no event (the timeout case), and of "HELLO". -/
theorem witness_SendSendsItsFramesInOrder :
    sender.Ready ∧ sender.hostQuiet ∧ sender.busSound ∧ (∃ t, exec (.send 0#8) sender = .next t) ∧
    ∃ t, exec (.send 5#8) sender = .next t := by
  obtain ⟨t, h, -⟩ := ends (i := .send 5#8) (s := sender) (fun _ => true) (by decide +kernel)
  obtain ⟨u, hu, -⟩ := ends (i := .send 0#8) (s := sender) (fun _ => true) (by decide +kernel)
  exact ⟨sender_ready, (quiet_env rfl).1, (quiet_env rfl).2.1, ⟨u, hu⟩, ⟨t, h⟩⟩

/-- "HELLO" with its completion event during the settle delay of S6 (program P2). -/
def transmitting : State := { sender with env := List.replicate 11 Draw.quiet ++ [withEvents [.txDone]] }

theorem transmitting_quiet : transmitting.hostQuiet ∧ transmitting.busSound := by
  constructor <;> intro d hd <;> simp only [transmitting, List.mem_append, List.mem_replicate, List.mem_singleton] at hd <;>
    rcases hd with ⟨-, rfl⟩ | rfl <;> rfl

/-- From Standby, and from Tx with TxDone still 0. -/
theorem witness_SuccessfulSendPutsThePayloadOnAir :
    (∃ t, transmitting.Ready ∧ transmitting.hostQuiet ∧ transmitting.busSound ∧ transmitting.cfg.chipPresent = true ∧
      (radioSteps transmitting.nextDraw.events transmitting).chip.irqFlags.getLsbD 3 = false ∧
      transmitting.chip.fifoTxBase = transmitting.cfg.txBase ∧ exec (.send 5#8) transmitting = .next t ∧
      t.status = .ok) ∧
    ∃ s t : State, s.Ready ∧ s.hostQuiet ∧ s.busSound ∧ s.cfg.chipPresent = true ∧ s.chip.mode = .tx ∧
      (radioSteps s.nextDraw.events s).chip.irqFlags.getLsbD 3 = false ∧ s.chip.fifoTxBase = s.cfg.txBase ∧
      exec (.send 5#8) s = .next t ∧ t.status = .ok := by
  obtain ⟨t, h, hs⟩ := ends (i := .send 5#8) (s := transmitting) (fun t => t.status == .ok) (by decide +kernel)
  obtain ⟨u, hu, hus⟩ := ends (i := .send 5#8) (s := { ready .tx with env := transmitting.env })
    (fun t => t.status == .ok) (by decide +kernel)
  exact ⟨⟨t, ⟨reference_wf, rfl, rfl, rfl, rfl, sender_ready.agree⟩, transmitting_quiet.1, transmitting_quiet.2, rfl,
      by decide, rfl, h, by simpa using hs⟩,
    ⟨{ ready .tx with env := transmitting.env }, u, ⟨reference_wf, rfl, rfl, rfl, rfl, (ready_ready .tx).agree⟩, transmitting_quiet.1, transmitting_quiet.2, rfl,
      rfl, by decide, rfl, hu, by simpa using hus⟩⟩

theorem witness_PollEndsInRxContinuous :
    (ready .tx).Ready ∧ (ready .tx).hostQuiet ∧ (ready .tx).busSound ∧ (ready .tx).cfg.chipPresent = true ∧
    (ready .tx).airQuiet :=
  ⟨ready_ready _, (quiet_env rfl).1, (quiet_env rfl).2.1, rfl, (quiet_env rfl).2.2⟩

theorem witness_CrcValidatorDecides :
    ∃ s : State, s.phase = .pollTest 0xFF#8 ∧ s.nextDraw.hostWrites = [] :=
  ⟨{ fresh with phase := .pollTest 0xFF#8 }, rfl, rfl⟩

theorem witness_PollHandsOverTheWaitingPacket :
    (listener 0x40#8 255#8).Ready ∧ (listener 0x40#8 255#8).hostQuiet ∧ (listener 0x40#8 255#8).busSound ∧
    (listener 0x40#8 255#8).airQuiet ∧ (listener 0x40#8 255#8).cfg.chipPresent = true ∧
    (listener 0x40#8 255#8).cfg.waitStrict = true ∧ (listener 0x40#8 255#8).mode = .rxContinuous ∧
    (listener 0x40#8 255#8).chip.irqFlags.getLsbD 6 = true ∧ (listener 0x40#8 255#8).chip.irqFlags.getLsbD 5 = false :=
  ⟨listener_ready _ _, (quiet_env rfl).1, (quiet_env rfl).2.1, (quiet_env rfl).2.2, rfl, rfl, rfl, rfl, rfl⟩

theorem witness_PollDiscardsABadPacket :
    (listener 0x60#8 2#8).Ready ∧ (listener 0x60#8 2#8).hostQuiet ∧ (listener 0x60#8 2#8).busSound ∧
    (listener 0x60#8 2#8).airQuiet ∧ (listener 0x60#8 2#8).cfg.chipPresent = true ∧
    (listener 0x60#8 2#8).cfg.waitStrict = true ∧ (listener 0x60#8 2#8).mode = .rxContinuous ∧
    (listener 0x60#8 2#8).chip.irqFlags.getLsbD 6 = true ∧ (listener 0x60#8 2#8).chip.irqFlags.getLsbD 5 = true :=
  ⟨listener_ready _ _, (quiet_env rfl).1, (quiet_env rfl).2.1, (quiet_env rfl).2.2, rfl, rfl, rfl, rfl, rfl⟩

/-- The record RxContinuous, the same with RX_REARM_ON_TIMEOUT false (nothing is sent but the mapping, and the receive
pointer, which is not at the RX base, is kept), and another record; all with RxDone clear. -/
theorem witness_PollWithoutAPacketTimesOut :
    ((listener 0x20#8 0#8).Ready ∧ (listener 0x20#8 0#8).hostQuiet ∧ (listener 0x20#8 0#8).busSound ∧
      (listener 0x20#8 0#8).airQuiet ∧ (listener 0x20#8 0#8).cfg.chipPresent = true ∧
      (listener 0x20#8 0#8).chip.irqFlags.getLsbD 6 = false) ∧
    (∃ s : State, s.Ready ∧ s.hostQuiet ∧ s.busSound ∧ s.airQuiet ∧ s.cfg.chipPresent = true ∧
      s.chip.irqFlags.getLsbD s.cfg.irqBits.rxDone = false ∧ s.mode = .rxContinuous ∧
      s.cfg.rxRearmOnTimeout = false ∧ s.chip.rxwp ≠ s.chip.fifoRxBase) ∧
    ((ready .sleep).Ready ∧ (ready .sleep).hostQuiet ∧ (ready .sleep).busSound ∧ (ready .sleep).airQuiet ∧
      (ready .sleep).cfg.chipPresent = true ∧ (ready .sleep).chip.irqFlags.getLsbD 6 = false) :=
  ⟨⟨listener_ready _ _, (quiet_env rfl).1, (quiet_env rfl).2.1, (quiet_env rfl).2.2, rfl, rfl⟩,
    ⟨{ listener 0x20#8 0#8 with cfg := { Cfg.reference with rxRearmOnTimeout := false } },
      ⟨by decide, rfl, rfl, rfl, rfl, (listener_ready 0x20#8 0#8).agree⟩, (quiet_env rfl).1, (quiet_env rfl).2.1,
      (quiet_env rfl).2.2, rfl, rfl, rfl, rfl, by decide⟩,
    ⟨ready_ready _, (quiet_env rfl).1, (quiet_env rfl).2.1, (quiet_env rfl).2.2, rfl, rfl⟩⟩

/-- A configuration register in Sleep, a read-only register, a plain one; and no chip attached. -/
theorem witness_BusWriteStoresTheByte :
    fresh.cfg.wf = true ∧ fresh.cfg.chipPresent = true ∧ hasWriteRow .frfLsb = false ∧ Reg.frfLsb.isCfg = true ∧
    fresh.chip.mode = .sleep ∧ hasWriteRow .version = false ∧ Reg.version.isReadOnly = true ∧
    hasWriteRow .payloadLength = false ∧ Reg.payloadLength.isCfg = false ∧ absent.cfg.chipPresent = false := by decide

theorem witness_BusReadReturnsTheByte :
    fresh.cfg.wf = true ∧ fresh.cfg.chipPresent = true ∧ hasReadRow .opMode = false ∧ hasReadRow .irqFlags = false ∧
    fresh.cfg.map.lookup 0x7F#7 = none ∧ absent.cfg.wf = true ∧ absent.cfg.chipPresent = false ∧
    absent.cfg.map.lookup 0x12#7 ≠ some .version := by decide

theorem witness_FifoAccessMovesThePointer :
    ∃ s : State, s.cfg.wf = true ∧ s.cfg.chipPresent = true ∧ s.chip.fifoAddrPtr = 255#8 :=
  ⟨{ fresh with chip := { Chip.powerOn with fifoAddrPtr := 255#8 } }, reference_wf, rfl, rfl⟩

/-- From Sleep with the long-range bit changed, and from Standby with it kept. -/
theorem witness_ModeWriteHasItsEffects :
    (fresh.cfg.wf = true ∧ fresh.cfg.chipPresent = true ∧
      (0x80#8).extractLsb' 0 3 = fresh.cfg.modeCodes.code .sleep ∧ fresh.chip.mode = .sleep) ∧
    ((0x85#8).extractLsb' 0 3 = Cfg.reference.modeCodes.code .rxContinuous ∧
      (0x85#8).getLsbD Cfg.reference.loraBit = (ready .standby).chip.lora Cfg.reference) := by decide

theorem witness_PointerFlagAndMappingWrites : fresh.cfg.wf = true ∧ fresh.cfg.chipPresent = true := by decide

theorem witness_VersionReadReturnsTheConstant : fresh.cfg.wf = true ∧ absent.cfg.wf = true := by decide

/-- The clauses: a configuration register, a reserved code, a change of the long-range bit, an unmapped address, at the
bus and by WRREG. -/
theorem witness_MeaninglessWriteFramesAreRefused :
    (ready .standby).cfg.wf = true ∧ (ready .standby).cfg.chipPresent = true ∧ Reg.lna.isCfg = true ∧
    (ready .standby).chip.mode ≠ .sleep ∧
    (∀ m, (0x87#8).extractLsb' 0 3 ≠ (ready .standby).cfg.modeCodes.code m) ∧
    (0x01#8).extractLsb' 0 3 = (ready .standby).cfg.modeCodes.code .standby ∧
    (0x01#8).getLsbD (ready .standby).cfg.loraBit ≠ (ready .standby).chip.lora (ready .standby).cfg ∧
    (ready .standby).cfg.map.lookup 0x7F#7 = none ∧ (ready .standby).phase = .idle ∧ (ready .standby).hostQuiet ∧
    (ready .standby).busSound :=
  ⟨reference_wf, rfl, rfl, by decide, by intro m; cases m <;> decide, by decide, by decide, by decide, rfl,
    (quiet_env rfl).1, (quiet_env rfl).2.1⟩

theorem witness_TxDoneEvent :
    (∃ s : State, s.cfg.chipPresent = true ∧ s.resetN = true ∧ s.phase.inReset = false ∧ s.chip.mode = .tx ∧
      s.chip.txPending = true) ∧
    (∃ s : State, s.cfg.chipPresent = true ∧ s.resetN = true ∧ s.phase.inReset = false ∧
      ¬ (s.chip.mode = .tx ∧ s.chip.txPending = true)) :=
  ⟨⟨{ fresh with chip := { Chip.powerOn with mode := .tx, txPending := true } }, rfl, rfl, rfl, rfl, rfl⟩,
    ⟨fresh, rfl, rfl, rfl, by decide⟩⟩

/-- The longest packet, stored from index 255 on; and a chip that is not listening. -/
theorem witness_RxPacketEvent :
    (∃ s : State, s.cfg.chipPresent = true ∧ s.resetN = true ∧ s.phase.inReset = false ∧
      (List.replicate 255 0xAA#8).length ≤ 255 ∧ s.chip.mode = .rxContinuous ∧ s.chip.rxwp = 255#8) ∧
    (∃ s : State, s.cfg.chipPresent = true ∧ s.resetN = true ∧ s.phase.inReset = false ∧ s.chip.mode ≠ .rxContinuous) :=
  ⟨⟨{ fresh with chip := { Chip.powerOn with mode := .rxContinuous, rxwp := 255#8 } }, rfl, rfl, rfl,
      by rw [List.length_replicate], rfl, rfl⟩,
    ⟨fresh, rfl, rfl, rfl, by decide⟩⟩

/-- A byte of unnamed flags, and one with a named flag. -/
theorem witness_OtherIrqEvent :
    fresh.cfg.chipPresent = true ∧ fresh.resetN = true ∧ fresh.phase.inReset = false ∧
    (0x97#8).getLsbD fresh.cfg.irqBits.txDone = false ∧
    (0x97#8).getLsbD fresh.cfg.irqBits.rxDone = false ∧ (0x97#8).getLsbD fresh.cfg.irqBits.payloadCrcError = false ∧
    (0x40#8).getLsbD fresh.cfg.irqBits.rxDone = true := by decide

/-- RESET_N asserted, the reset pulse after it, a micro-step that clears a flag, a write frame of another register. -/
theorem witness_RadioKeepsItsHandsOff :
    (∃ s : State, s.resetN = false) ∧ (∃ s : State, s.phase.inReset = true) ∧
    (∃ s t : State, s.cfg.wf = true ∧ microStep s = .next t ∧
      (radioSteps s.nextDraw.events s).chip.irqFlags.getLsbD 6 = true ∧ t.chip.irqFlags.getLsbD 6 = false) ∧
    Reg.fifo ≠ .irqFlags ∧ ∃ c', Chip.powerOn.write Cfg.reference 0 .fifo 1#8 = .ok c' :=
  ⟨⟨{ fresh with resetN := false }, rfl⟩, ⟨{ fresh with phase := .cfgSleep [] }, rfl⟩,
    ⟨{ listener 0x40#8 0#8 with phase := .pollAckIrq 0x40#8 }, _, reference_wf, rfl, by decide, by decide⟩,
    by decide, ⟨_, rfl⟩⟩

theorem witness_DioFollowsTheMappedFlag :
    fresh.cfg.chipPresent = true ∧ (0x00#8 : Byte).extractLsb' 6 2 = 0b00#2 ∧ (0x40#8 : Byte).extractLsb' 6 2 = 0b01#2 ∧
    (0x80#8 : Byte).extractLsb' 6 2 = 0b10#2 ∧ (0xC0#8 : Byte).extractLsb' 6 2 = 0b11#2 := by decide

/-- A Host write during a command; and an idle write of TXBUF's last byte. -/
theorem witness_HostWritesOnlyWhileIdle :
    (∃ s : State, s.busy = true ∧ s.nextDraw.hostWrites ≠ []) ∧ fresh.phase = .idle ∧ (254#8 : Byte) ≠ 255#8 :=
  ⟨⟨{ fresh with phase := .sendMap, env := [{ Draw.quiet with hostWrites := [.freq 0#32] }] }, rfl, by decide⟩, rfl,
    by decide⟩

/-- A failed frame the chip has not seen, and one it has taken (whose completed twin answers too). -/
theorem witness_FailedFrameEndsTheCommand :
    (∃ s t : State, s.Inv ∧ s.phase.sendsFrame = true ∧ s.nextDraw.fate = .failsUnseen ∧ microStep s = .next t) ∧
    (∃ s t u : State, s.Inv ∧ s.phase.sendsFrame = true ∧ s.nextDraw.fate = .failsTaken ∧ microStep s = .next t ∧
      microStep { s with env := { s.nextDraw with fate := .completes } :: s.env.tail } = .next u) := by
  have hi : ∀ e : List Draw, ({ ready .standby with phase := .setmodeFrame .tx, env := e } : State).Inv := fun e =>
    ⟨reference_wf, by intro w; simp [ready, fresh, State.reset], rfl, rfl, rfl, rfl, rfl, rfl,
      (ready_ready .standby).agree⟩
  exact ⟨⟨{ ready .standby with phase := .setmodeFrame .tx, env := [failing] }, _, hi _, rfl, rfl, rfl⟩,
    ⟨{ ready .standby with phase := .setmodeFrame .tx, env := [failingTaken] }, _, _, hi _, rfl, rfl, rfl, rfl⟩⟩

/-- The clauses: BusError, Disconnected, ConfigError of CONFIGURE, a CONFIGURE that ends with Ok, a timeout. -/
theorem witness_FatalErrorsLeaveTheCoreUnconfigured :
    (∃ t, exec (.setmode .tx) { ready .standby with env := [failing] } = .next t ∧ t.status = .busError) ∧
    (∃ t, exec .configure absent = .next t ∧ t.status = .disconnected) ∧
    (∃ t, exec .configure State.reset = .next t ∧ t.status = .configError) ∧
    (∃ t, exec .configure fresh = .next t ∧ t.status = .ok) ∧
    (∃ t, exec (.send 5#8) sender = .next t ∧ t.status = .txTimeout) ∧
    (∃ t, exec (.poll 0#16) (listener 0x60#8 2#8) = .next t ∧ t.status = .crcError) := by
  have key : ∀ (i : Instr) (s : State) (c : ResultCode), reads (exec i s) (fun t => t.status == c) = true →
      ∃ t, exec i s = .next t ∧ t.status = c := fun i s c h => by
    obtain ⟨t, ht, hc⟩ := ends _ h
    exact ⟨t, ht, by simpa using hc⟩
  exact ⟨key _ _ _ (by decide +kernel), key _ _ _ (by decide +kernel), key _ _ _ (by decide +kernel),
    key _ _ _ (by decide +kernel), key _ _ _ (by decide +kernel), key _ _ _ (by decide +kernel)⟩

theorem witness_StepKeepsTheInvariant :
    (∃ s t : State, s.Inv ∧ s.phase = .idle ∧ step s = .next t) ∧
    (∃ s t : State, s.Inv ∧ s.phase = .setmodeFrame .tx ∧ step s = .next t) :=
  ⟨⟨fresh, fresh, fresh_inv, rfl, rfl⟩,
    ⟨{ ready .standby with phase := .setmodeFrame .tx }, _,
      ⟨reference_wf, by intro w; simp [ready, fresh, State.reset], rfl, rfl, rfl, rfl, rfl, rfl,
        (ready_ready .standby).agree⟩, rfl, rfl⟩⟩

/-- A step that ends a command idle and configured, with a chip attached. -/
theorem witness_ModeRecordEqualsTheChipsMode :
    ∃ s t : State, s.Inv ∧ step s = .next t ∧ t.phase = .idle ∧ t.configured = true ∧ t.cfg.chipPresent = true :=
  ⟨{ ready .rxContinuous with phase := .pollEnd .ok }, _,
    ⟨reference_wf, by intro w; simp [ready, fresh, State.reset], rfl, rfl, rfl, rfl, rfl, rfl,
      (ready_ready .rxContinuous).agree⟩, rfl, rfl, rfl, rfl⟩

/-- Both allowed refusals and the one fault occur in states that meet the invariant. -/
theorem witness_GuardsMakeTheUndefinedUnreachable :
    (∃ s : State, s.Inv ∧ step s = .refused .hostWriteWhileBusy) ∧
    (∃ s : State, s.Inv ∧ step s = .refused .unmappedWrite) ∧
    (∃ s : State, s.Inv ∧ step s = .fault .noSuchTxBufIndex) :=
  ⟨⟨{ ready .standby with phase := .sendMap, env := [{ Draw.quiet with hostWrites := [.freq 0#32] }] },
      ⟨reference_wf, by intro w; simp [ready, fresh, State.reset], rfl, rfl, rfl, rfl, rfl, rfl,
        (ready_ready .standby).agree⟩, rfl⟩,
    ⟨{ fresh with phase := .wrregFrame 0x7F#7 0#8 },
      ⟨reference_wf, by intro w; simp [fresh, State.reset], rfl, rfl, rfl, rfl, rfl, (fun h => by cases h), by decide,
        fun h => absurd h (by decide)⟩, rfl⟩,
    ⟨{ fresh with inbox := [.hostWrite (.txBuf 255#8 0#8)] },
      ⟨reference_wf, by intro w; simp, rfl, rfl, rfl, rfl, rfl, fun h => by cases h⟩, rfl⟩⟩

/-- A mode frame, and the assertion of RESET_N from another mode. -/
theorem witness_ModeChangesOnlyByACommand :
    (∃ s t : State, s.Inv ∧ microStep s = .next t ∧ t.chip.mode ≠ s.chip.mode ∧ t.mode ≠ s.mode) ∧
    (∃ s t : State, s.Inv ∧ s.phase.assertsReset = true ∧ microStep s = .next t ∧ t.mode ≠ s.mode) :=
  ⟨⟨{ ready .standby with phase := .setmodeFrame .tx }, _,
      ⟨reference_wf, by intro w; simp [ready, fresh, State.reset], rfl, rfl, rfl, rfl, rfl, rfl,
        (ready_ready .standby).agree⟩, rfl, by decide, by decide⟩,
    ⟨{ fresh with mode := .tx, phase := .cfgResetLow [] }, _,
      ⟨reference_wf, by intro w; simp [fresh, State.reset], rfl, rfl, rfl, rfl, rfl, rfl, by simp⟩, rfl, rfl,
      by decide⟩⟩

theorem witness_HistoriesOnlyGrow :
    ∃ s t : State, step s = .next t ∧ t.busLog ≠ s.busLog :=
  ⟨{ ready .standby with phase := .setmodeFrame .tx }, _, rfl, by decide⟩

end Sys2Proof.Tests
end

section
/-! Proofs about the state (10_state.md): the RadioConfig registers have one reader in CONFIGURE and one in SYNTH (R23),
and the values the spec states of power-on (R55). -/

namespace Sys2Proof.Machine

/-! ### The state with another RadioConfig -/

/-- The state with the seven RadioConfig registers exchanged (10_state.md R22). -/
def State.withRadio (rc : RadioConfig) (s : State) : State := { s with radio := rc }

@[simp] theorem State.withRadio_cfg (rc : RadioConfig) (s : State) : (s.withRadio rc).cfg = s.cfg := rfl
@[simp] theorem State.withRadio_phase (rc : RadioConfig) (s : State) : (s.withRadio rc).phase = s.phase := rfl
@[simp] theorem State.withRadio_configured (rc : RadioConfig) (s : State) :
    (s.withRadio rc).configured = s.configured := rfl
@[simp] theorem State.withRadio_chip (rc : RadioConfig) (s : State) : (s.withRadio rc).chip = s.chip := rfl
@[simp] theorem State.withRadio_free (rc : RadioConfig) (s : State) : (s.withRadio rc).free = s.free := rfl
@[simp] theorem State.withRadio_nextDraw (rc : RadioConfig) (s : State) : (s.withRadio rc).nextDraw = s.nextDraw := rfl
@[simp] theorem State.withRadio_busy (rc : RadioConfig) (s : State) : (s.withRadio rc).busy = s.busy := rfl

/-- An outcome with its next state changed; a stop stays the same stop. -/
def mapNext (f : State → State) : Outcome → Outcome
  | .next t => .next (f t)
  | .fault e => .fault e
  | .refused r => .refused r

/-- A frame's result with the state after it changed. -/
def FrameResult.mapState (f : State → State) : FrameResult → FrameResult
  | .done v s => .done v (f s)
  | .failed s => .failed (f s)
  | .refused r => .refused r

/-! ### Frames and Radio steps do not see the RadioConfig -/

theorem answerWrite_withRadio (rc : RadioConfig) (a : RegAddr) (v : Byte) (s : State) :
    answerWrite a v (s.withRadio rc) = (answerWrite a v s).map (State.withRadio rc) := by
  by_cases hp : s.cfg.chipPresent = true
  · cases hl : s.cfg.map.lookup a with
    | none => simp [answerWrite, hp, hl, Except.map]
    | some r =>
      cases hw : s.chip.write s.cfg s.free r v <;> simp [answerWrite, hp, hl, hw, Except.map, State.withRadio]
  · simp [answerWrite, hp, Except.map]

theorem answerRead_withRadio (rc : RadioConfig) (a : RegAddr) (s : State) :
    answerRead a (s.withRadio rc) = ((answerRead a s).1, (answerRead a s).2.withRadio rc) := by
  by_cases hp : s.cfg.chipPresent = true
  · cases hl : s.cfg.map.lookup a <;> simp [answerRead, hp, hl, State.withRadio]
  · by_cases hl : s.cfg.map.lookup a = some .version <;> simp [answerRead, hp, hl, State.withRadio]

theorem exchange_withRadio (rc : RadioConfig) (ab db : Byte) (s : State) :
    exchange ab db (s.withRadio rc) = (exchange ab db s).map fun p => (p.1, p.2.withRadio rc) := by
  simp only [exchange, answerWrite_withRadio, answerRead_withRadio]
  split
  · cases answerWrite (ab.extractLsb' 0 7) db s <;> rfl
  · rfl

theorem transact_withRadio (rc : RadioConfig) (ab db : Byte) (s : State) :
    transact ab db (s.withRadio rc) = (transact ab db s).map fun p => (p.1, p.2.withRadio rc) := by
  have h : exchange ab db { s.withRadio rc with csN := false } = _ :=
    exchange_withRadio rc ab db { s with csN := false }
  simp only [transact, h]
  cases exchange ab db { s with csN := false } <;> rfl

theorem busFrame_withRadio (rc : RadioConfig) (d : Draw) (ab db : Byte) (s : State) :
    busFrame d ab db (s.withRadio rc) = (busFrame d ab db s).mapState (State.withRadio rc) := by
  simp only [busFrame, transact_withRadio, exchange_withRadio]
  cases d.fate with
  | completes => cases transact ab db s <;> rfl
  | failsUnseen => rfl
  | failsTaken => cases exchange ab db s <;> rfl

theorem frameOutcome_withRadio (rc : RadioConfig) (ab db : Byte) (s : State) :
    frameOutcome ab db (s.withRadio rc) = mapNext (State.withRadio rc) (frameOutcome ab db s) := by
  simp only [frameOutcome, transact_withRadio]
  cases transact ab db s <;> rfl

theorem radioStep_withRadio (rc : RadioConfig) (e : RadioEvent) (s : State) :
    radioStep e (s.withRadio rc) = (radioStep e s).withRadio rc := by
  have he : radioEnabled e (s.withRadio rc) = radioEnabled e s := rfl
  simp only [radioStep, he]
  split
  · cases e <;> rfl
  · rfl

theorem radioSteps_withRadio (rc : RadioConfig) (es : List RadioEvent) (s : State) :
    radioSteps es (s.withRadio rc) = (radioSteps es s).withRadio rc := by
  induction es generalizing s with
  | nil => rfl
  | cons e es ih => simp only [radioSteps, radioStep_withRadio, ih]

theorem State.afterRadio_withRadio (rc : RadioConfig) (s : State) :
    (s.withRadio rc).afterRadio = s.afterRadio.withRadio rc :=
  radioSteps_withRadio rc s.nextDraw.events { s with env := s.env.tail }

/-! ### Micro-steps -/

/-- The two positions whose micro-step reads the RadioConfig (41_synth.md R123; 42_mode.md R131). -/
def Phase.samplesRadio : Phase → Bool
  | .synthEval | .cfgValidate => true
  | _ => false

theorem Phase.samplesRadio_eq_false {p : Phase} (h1 : p ≠ .synthEval) (h2 : p ≠ .cfgValidate) :
    p.samplesRadio = false := by
  cases p
  case synthEval | cfgValidate => contradiction
  all_goals rfl

/-- Two outcomes are the same but for the RadioConfig of the next state, and the Sequencer does not stand at a position
that reads it. -/
inductive Lockstep (rc : RadioConfig) : Outcome → Outcome → Prop
  | next {t : State} (h : t.phase.samplesRadio = false) : Lockstep rc (.next t) (.next (t.withRadio rc))
  | fault (e : Fault) : Lockstep rc (.fault e) (.fault e)
  | refused (r : Refusal) : Lockstep rc (.refused r) (.refused r)

/-- In lockstep the second outcome is the first with the RadioConfig exchanged. -/
theorem Lockstep.eq_mapNext {rc : RadioConfig} {o o' : Outcome} (h : Lockstep rc o o') :
    o' = mapNext (State.withRadio rc) o := by
  cases h <;> rfl

theorem Lockstep.phase {rc : RadioConfig} {t : State} {o' : Outcome} (h : Lockstep rc (.next t) o') :
    t.phase.samplesRadio = false := by
  cases h; assumption

/-- A branch on a condition that does not see the RadioConfig. -/
theorem Lockstep.ite {rc : RadioConfig} {c : Prop} [Decidable c] {a a' b b' : Outcome} (ha : Lockstep rc a a')
    (hb : Lockstep rc b b') : Lockstep rc (if c then a else b) (if c then a' else b') := by
  split
  · exact ha
  · exact hb

/-- A frame, and a rest of the micro-step that stays in lockstep. -/
theorem busFrame_lockstep {rc : RadioConfig} {d : Draw} {ab db : Byte} {s : State} {k : Byte → State → Outcome}
    (hk : ∀ v u, Lockstep rc (k v u) (k v (u.withRadio rc))) :
    Lockstep rc ((busFrame d ab db s).andThen k) ((busFrame d ab db (s.withRadio rc)).andThen k) := by
  rw [busFrame_withRadio]
  cases busFrame d ab db s with
  | done v u => exact hk v u
  | failed u => exact .next rfl
  | refused r => exact .refused r

/-- A frame, and a jump to a position that does not read the RadioConfig. -/
theorem busFrame_goto_lockstep {rc : RadioConfig} {d : Draw} {ab db : Byte} {s : State} {f : Byte → State → Phase}
    (hf : ∀ v u, f v (u.withRadio rc) = f v u := by intros; rfl)
    (hp : ∀ v u, (f v u).samplesRadio = false := by intros; rfl) :
    Lockstep rc ((busFrame d ab db s).andThen fun v u => .next (u.goto (f v u)))
      ((busFrame d ab db (s.withRadio rc)).andThen fun v u => .next (u.goto (f v u))) :=
  busFrame_lockstep fun v u => by rw [hf]; exact .next (hp v u)

theorem setModeFrame_lockstep {rc : RadioConfig} {d : Draw} {m : Mode} {ph : Phase} {s : State}
    (hp : ph.samplesRadio = false) : Lockstep rc (setModeFrame d m ph s) (setModeFrame d m ph (s.withRadio rc)) :=
  busFrame_lockstep fun _ _ => .next hp

theorem rdregFrame_lockstep (rc : RadioConfig) (d : Draw) (a : RegAddr) (s : State) :
    Lockstep rc (rdregFrame d a s) (rdregFrame d a (s.withRadio rc)) := by
  simp only [rdregFrame, memRead, busFrame_withRadio, State.withRadio_cfg]
  cases busFrame d (readAddrByte a) s.cfg.dummy s with
  | done v u => exact .next rfl
  | failed u => exact .next rfl
  | refused r => exact .refused r

@[simp] theorem afterWrites_samplesRadio (ws : List (Reg × Byte)) : (afterWrites ws).samplesRadio = false := by
  cases ws <;> rfl

@[simp] theorem payloadFrom_samplesRadio (n : Byte) (i : Nat) : (payloadFrom n i).samplesRadio = false := by
  simp only [payloadFrom]; split <;> rfl

@[simp] theorem readoutFrom_samplesRadio (n : Byte) (i : Nat) : (readoutFrom n i).samplesRadio = false := by
  simp only [readoutFrom]; split <;> rfl

@[simp] theorem crcVerdict_samplesRadio (c : Cfg) (v : Byte) : (crcVerdict c v).samplesRadio = false := by
  simp only [crcVerdict]
  split
  · rfl
  · split <;> rfl

/-- Every micro-step but CONFIGURE's validation and SYNTH's evaluation does the same whatever the RadioConfig is, and
none leads to either of the two: a command stands there only by its acceptance. -/
theorem perform_lockstep (rc : RadioConfig) (d : Draw) {s : State} (h : s.phase.samplesRadio = false) :
    Lockstep rc (perform d s) (perform d (s.withRadio rc)) := by
  cases hp : s.phase <;> simp only [perform, State.withRadio_phase, hp]
  case synthEval | cfgValidate => rw [hp] at h; cases h
  case idle => exact .next h
  case rdregFrame a => exact rdregFrame_lockstep rc d a s
  case wrregGuard a v => exact .ite (.next rfl) (.ite (.next rfl) (.next rfl))
  case sendWait => exact .ite (.next rfl) (.next rfl)
  case pollWait t => exact .ite (.next rfl) (.next (by rw [State.goto_phase]; split <;> rfl))
  case pollTest v => exact .next (crcVerdict_samplesRadio _ v)
  case cfgSleepSettle ws => exact .next (afterWrites_samplesRadio ws)
  case cfgWrites ws =>
    cases ws with
    | nil => exact .next rfl
    | cons w rest =>
      exact .ite (.next rfl) (busFrame_goto_lockstep (hp := fun _ _ => afterWrites_samplesRadio rest))
  case cfgIdentify => exact busFrame_lockstep fun _ _ => .ite (.next rfl) (.next rfl)
  case cfgSleep | cfgStandby | setmodeFrame | sendStandby | sendTx | sendRestore | pollArm | pollRearm =>
    exact setModeFrame_lockstep rfl
  case sendPointer n => exact busFrame_goto_lockstep (hp := fun _ _ => payloadFrom_samplesRadio n 0)
  case sendPayload n i => exact busFrame_goto_lockstep (hp := fun _ _ => payloadFrom_samplesRadio n (i + 1))
  case pollMap t => exact busFrame_goto_lockstep (hp := fun _ _ => by split <;> rfl)
  case pollReadCount => exact busFrame_goto_lockstep (hp := fun v _ => readoutFrom_samplesRadio v 0)
  case pollReadout n i => exact busFrame_lockstep fun _ _ => .next (readoutFrom_samplesRadio n (i + 1))
  case wrregFrame | sendLength | sendMap | sendReadIrq | sendAckIrq | pollReadIrq | pollAckIrq | pollReadCurrent
    | pollPointer | pollReadRssi | pollReadSnr => exact busFrame_goto_lockstep
  all_goals exact .next rfl

theorem microStep_lockstep (rc : RadioConfig) {s : State} (h : s.phase.samplesRadio = false) :
    Lockstep rc (microStep s) (microStep (s.withRadio rc)) := by
  simp only [microStep, State.withRadio_nextDraw, State.afterRadio_withRadio]
  exact .ite (perform_lockstep rc _ (by rwa [State.afterRadio_phase])) (.refused _)

/-! ### Whole instructions -/

/-- By induction on the fuel: each micro-step is in lockstep and leaves the next one so. -/
theorem runFor_withRadio (rc : RadioConfig) (k : Nat) {s : State} (h : s.phase.samplesRadio = false) :
    runFor k (s.withRadio rc) = mapNext (State.withRadio rc) (runFor k s) := by
  induction k generalizing s with
  | zero => rfl
  | succ k ih =>
    have hm := microStep_lockstep rc h
    simp only [runFor, State.withRadio_busy, hm.eq_mapNext]
    split
    · cases ho : microStep s with
      | next t => exact ih (ho ▸ hm).phase
      | fault e => rfl
      | refused r => rfl
    · rfl

theorem firstPhase_samplesRadio {i : Instr} (h1 : i ≠ .synth) (h2 : i ≠ .configure) :
    (firstPhase i).samplesRadio = false := by
  cases i
  case synth | configure => contradiction
  all_goals rfl

/-- A command other than SYNTH and CONFIGURE does not see the RadioConfig on any of its three paths. -/
theorem exec_command_withRadio (rc : RadioConfig) {i : Instr} (s : State) (hi : isCommand i = true) (h1 : i ≠ .synth)
    (h2 : i ≠ .configure) : exec i (s.withRadio rc) = mapNext (State.withRadio rc) (exec i s) := by
  rcases exec_command s hi with ⟨hb, he⟩ | ⟨hid, hc, hn, he⟩ | ⟨hid, hc, he⟩
  · rw [he, exec_busy hi (s := s.withRadio rc) hb]; rfl
  · rw [he, exec_unconfigured hn (s := s.withRadio rc) hid hc]; rfl
  · rw [he, exec_runs hi (s := s.withRadio rc) hid hc]
    exact runFor_withRadio rc _ (s := s.started i) (firstPhase_samplesRadio h1 h2)

/-- The commands by their runs, the bus-frame rows by their one transaction. -/
theorem exec_withRadio (rc : RadioConfig) {i : Instr} (s : State) (h1 : i ≠ .synth) (h2 : i ≠ .configure) :
    exec i (s.withRadio rc) = mapNext (State.withRadio rc) (exec i s) := by
  cases hi : isCommand i with
  | true => exact exec_command_withRadio rc s hi h1 h2
  | false =>
    cases i
    case rdreg | wrreg | synth | configure | setmode | send | poll => cases hi
    all_goals exact frameOutcome_withRadio rc _ _ s

/-- Settles O13: a micro-step at any other position, and by induction on its micro-steps every other instruction, runs
in lockstep from two states that differ in the seven registers. -/
theorem onlyValidationAndSynthReadTheRadioConfig : Obligations.OnlyValidationAndSynthReadTheRadioConfig := by
  unfold Obligations.OnlyValidationAndSynthReadTheRadioConfig
  constructor
  · intro s rc h1 h2
    exact (microStep_lockstep rc (Phase.samplesRadio_eq_false h1 h2)).eq_mapNext
  · intro s rc i h1 h2
    exact exec_withRadio rc s h1 h2

/-- Settles O54: each value is the one `State.reset` writes out. -/
theorem resetLeavesTheStatedValues : Obligations.ResetLeavesTheStatedValues := by
  unfold Obligations.ResetLeavesTheStatedValues
  exact ⟨rfl, rfl, rfl, rfl, rfl, rfl, rfl, rfl, rfl⟩

end Sys2Proof.Machine
end

section
/-! Proofs about the bus (20_memory.md): a frame that fails ends the command, and the chip is as it was before the frame
or as the completed frame would have left it (R64). -/

namespace Sys2Proof.Machine

/-! ### A transaction and its exchange -/

theorem answerWrite_csN (a : RegAddr) (v : Byte) (b : Bool) (s : State) :
    answerWrite a v { s with csN := b } = (answerWrite a v s).map fun t => { t with csN := b } := by
  by_cases hp : s.cfg.chipPresent = true
  · cases hl : s.cfg.map.lookup a with
    | none => simp [answerWrite, hp, hl, Except.map]
    | some r => cases hw : s.chip.write s.cfg s.free r v <;> simp [answerWrite, hp, hl, hw, Except.map]
  · simp [answerWrite, hp, Except.map]

theorem answerRead_csN (a : RegAddr) (b : Bool) (s : State) :
    answerRead a { s with csN := b } = ((answerRead a s).1, { (answerRead a s).2 with csN := b }) := by
  by_cases hp : s.cfg.chipPresent = true
  · cases hl : s.cfg.map.lookup a <;> simp [answerRead, hp, hl]
  · by_cases hl : s.cfg.map.lookup a = some .version <;> simp [answerRead, hp, hl]

/-- The far end answers whatever the level of chip-select is. -/
theorem exchange_csN (ab db : Byte) (b : Bool) (s : State) :
    exchange ab db { s with csN := b } = (exchange ab db s).map fun p => (p.1, { p.2 with csN := b }) := by
  simp only [exchange, answerWrite_csN, answerRead_csN]
  split
  · cases answerWrite (ab.extractLsb' 0 7) db s <;> rfl
  · rfl

/-- The state after a transaction whose exchange carried the byte `v`: chip-select high and the frame in BUSLOG
(20_memory.md R61; 10_state.md R53). -/
def State.recorded (ab v : Byte) (s : State) : State :=
  { s with csN := true, busLog := s.busLog ++ [⟨ab.msb, ab.extractLsb' 0 7, v⟩] }

@[simp] theorem State.recorded_chip (ab v : Byte) (s : State) : (s.recorded ab v).chip = s.chip := rfl

/-- A transaction is its exchange, chip-select released and the record added. -/
theorem transact_of_exchange {ab db v : Byte} {s t : State} (h : exchange ab db s = .ok (v, t)) :
    transact ab db s = .ok (v, t.recorded ab v) := by
  simp only [transact, exchange_csN, h, Except.map, State.recorded]

/-! ### Frames that fail -/

/-- A failed frame leaves everything but the chip and the free counter as it was, and is not recorded. -/
theorem busFrame_failed_frameOnly {d : Draw} {ab db : Byte} {s u : State} (h : busFrame d ab db s = .failed u) :
    FrameOnly s u ∧ u.busLog = s.busLog := by
  rcases busFrame_failed h with rfl | ⟨v, hv⟩
  · exact ⟨by constructor <;> rfl, rfl⟩
  · obtain ⟨hf, hb, -⟩ := exchange_frameOnly hv
    exact ⟨hf, hb⟩

/-- A failed frame the chip has not seen changes nothing. -/
theorem busFrame_unseen {d : Draw} {ab db : Byte} {s u : State} (hd : d.fate = .failsUnseen)
    (h : busFrame d ab db s = .failed u) : u = s := by
  simp only [busFrame, hd, FrameResult.failed.injEq] at h
  exact h.symm

/-- A failed frame the chip has taken leaves what the completed frame leaves, but for chip-select and the record. -/
theorem busFrame_taken {d d' : Draw} {ab db : Byte} {s u : State} (hd : d.fate = .failsTaken)
    (hd' : d'.fate = .completes) (h : busFrame d ab db s = .failed u) :
    ∃ v, busFrame d' ab db s = .done v (u.recorded ab v) := by
  cases hx : exchange ab db s with
  | error e => simp [busFrame, hd, hx] at h
  | ok p =>
    obtain ⟨v, t⟩ := p
    simp only [busFrame, hd, hx, FrameResult.failed.injEq] at h
    subst h
    exact ⟨v, by simp only [busFrame, hd', transact_of_exchange hx]⟩

/-! ### Micro-steps that send a frame -/

/-- What a micro-step that sends a frame makes of the frame's result: after a completed frame it leaves the chip alone,
after a failed one it raises BusError, RDREG with an unspecified RDATA (40_regbus.md R110 to R112). -/
inductive FrameEffect : FrameResult → State → Prop
  | done {v : Byte} {u t : State} (h : t.chip = u.chip) : FrameEffect (.done v u) t
  | failed {u : State} (w : Byte) (k : Nat) :
      FrameEffect (.failed u) (({ u with rdata := w, free := k } : State).raiseFatal .busError)

theorem FrameEffect.chip_of_done {v : Byte} {u t : State} (h : FrameEffect (.done v u) t) : t.chip = u.chip := by
  cases h; assumption

/-- A frame that does not complete and has a next state has failed. -/
theorem FrameEffect.of_fails {d : Draw} {ab db : Byte} {s t : State} (hd : d.fate ≠ .completes)
    (h : FrameEffect (busFrame d ab db s) t) :
    ∃ u w k, busFrame d ab db s = .failed u ∧
      t = ({ u with rdata := w, free := k } : State).raiseFatal .busError := by
  cases hf : busFrame d ab db s with
  | done v u => exact absurd (busFrame_done hf).1 hd
  | failed u =>
    rw [hf] at h
    cases h with
    | failed w k => exact ⟨u, w, k, rfl, rfl⟩
  | refused r => rw [hf] at h; cases h

theorem andThen_effect {f : FrameResult} {k : Byte → State → Outcome} {t : State} (h : f.andThen k = .next t)
    (hk : ∀ v u t, k v u = .next t → t.chip = u.chip := by rintro v u t ⟨⟩; rfl) : FrameEffect f t := by
  cases f with
  | done v u => exact .done (hk v u t h)
  | failed u => cases h; exact .failed u.rdata u.free
  | refused r => cases h

theorem rdregFrame_effect {d : Draw} {a : RegAddr} {s t : State} (h : rdregFrame d a s = .next t) :
    FrameEffect (memRead d a s) t := by
  simp only [rdregFrame] at h
  cases hf : memRead d a s with
  | done v u => rw [hf] at h; cases h; exact .done rfl
  | failed u => rw [hf] at h; cases h; exact .failed _ _
  | refused r => rw [hf] at h; cases h

/-- A micro-step at a position that sends a frame is one bus frame, the same one whatever the draw, and what follows it.
The invariant passes the guard of CONFIGURE's writes (42_mode.md R134). -/
theorem perform_effect {s : State} (hi : s.Inv) (hp : s.phase.sendsFrame = true) :
    ∃ ab db, ∀ d t, perform d s = .next t → FrameEffect (busFrame d ab db s) t := by
  have hinv := hi.phaseInv
  cases hph : s.phase <;> simp only [perform, hph]
  case rdregFrame a => exact ⟨_, _, fun d t h => rdregFrame_effect h⟩
  case cfgWrites ws =>
    cases ws with
    | nil => rw [hph] at hp; cases hp
    | cons w rest =>
      simp only [State.phaseInv, hph] at hinv
      obtain ⟨-, -, hsleep, -⟩ := hinv
      simp only [cfgWrite, hsleep, ne_eq, not_true_eq_false, if_false]
      exact ⟨_, _, fun d t h => andThen_effect h⟩
  case cfgIdentify =>
    refine ⟨_, _, fun d t h => andThen_effect h fun v u t hk => ?_⟩
    split at hk <;> (cases hk; rfl)
  case wrregFrame | cfgSleep | cfgStandby | setmodeFrame | sendStandby | sendPointer | sendPayload | sendLength
    | sendMap | sendTx | sendReadIrq | sendAckIrq | sendRestore | pollMap | pollArm | pollReadIrq | pollAckIrq
    | pollReadCurrent | pollPointer | pollReadCount | pollReadout | pollReadRssi | pollReadSnr | pollRearm =>
    exact ⟨_, _, fun d t h => andThen_effect h⟩
  all_goals rw [hph] at hp; cases hp

/-- RESET_N is released wherever a frame is sent (42_mode.md R132). -/
theorem State.Inv.resetN_of_sendsFrame {s : State} (hi : s.Inv) (hp : s.phase.sendsFrame = true) : s.resetN = true := by
  have hinv := hi.phaseInv
  cases hph : s.phase <;> rw [hph] at hp <;> simp only [State.phaseInv, hph] at hinv
  case cfgDelayLow | cfgResetHigh => cases hp
  all_goals exact hinv.1

/-- Settles O52: the failed frame is the micro-step's only one, so BusError is raised in the state it leaves; the twin
with the same draw but for the fate sends the same frame. -/
theorem failedFrameEndsTheCommand : Obligations.FailedFrameEndsTheCommand := by
  unfold Obligations.FailedFrameEndsTheCommand
  intro s t hi hp hd hn
  obtain ⟨ab, db, heff⟩ := perform_effect (afterRadio_inv hi) (by rwa [State.afterRadio_phase])
  obtain ⟨u, w, k, hu, rfl⟩ := (heff _ t (microStep_next hn).2).of_fails hd
  obtain ⟨hf, hb⟩ := busFrame_failed_frameOnly hu
  have hr : u.resetN = true := by rw [hf.resetN, State.afterRadio_resetN, hi.resetN_of_sendsFrame hp]
  refine ⟨rfl, rfl, rfl, rfl, by simp [hb], by simp [hf.mode], rfl, hr, ?_, by simp [hf.frf], ?_, ?_⟩
  · constructor <;> simp [hf.cfg, hf.radio, hf.txBuf, hf.inbox]
  · intro hfate
    have hc : u.chip = s.afterRadio.chip := by rw [busFrame_unseen hfate hu]
    exact hc.trans s.afterRadio_chip
  · intro hfate u' hn'
    obtain ⟨v, hv⟩ := busFrame_taken (d' := { s.nextDraw with fate := .completes }) hfate rfl hu
    have hdone : FrameEffect (.done v (u.recorded ab v)) u' := hv ▸ heff _ u' (microStep_next hn').2
    exact hdone.chip_of_done.symm

end Sys2Proof.Machine
end

section
/-! Proofs about the synthesizer (41_synth.md): the coefficient's three bytes and the registers they go to (R121). -/

namespace Sys2Proof

/-- The frequency registers' clauses of `wf` as facts about numbers: no address wraps (10_state.md R33). -/
theorem RegMap.frequency_consecutive {m : RegMap} (h : m.wf = true) :
    m.frfMid.toNat = m.frfMsb.toNat + 1 ∧ m.frfLsb.toNat = m.frfMsb.toNat + 2 := by
  simp only [RegMap.wf, Bool.and_eq_true, decide_eq_true_eq, beq_iff_eq] at h
  obtain ⟨⟨⟨-, hmid⟩, hlsb⟩, hfits⟩ := h
  rw [hmid, hlsb]
  constructor <;> bv_omega

namespace Machine

/-- The coefficient is the positional sum of its bytes in base 256. -/
theorem toNat_eq_frequency_bytes (n : BitVec 24) :
    n.toNat = (frfHigh n).toNat * 65536 + (frfMidByte n).toNat * 256 + (frfLow n).toNat := by
  have hn : n.toNat < 2 ^ 24 := n.isLt
  simp only [frfHigh, frfMidByte, frfLow, BitVec.extractLsb'_toNat, Nat.shiftRight_eq_div_pow]
  omega

/-- Settles O21: the bytes are their bit fields, the writes stand first in the list, and a well-formed map keeps the
frequency registers consecutive. -/
theorem frequencyBytesAreBigEndian : Obligations.FrequencyBytesAreBigEndian := by
  unfold Obligations.FrequencyBytesAreBigEndian
  refine ⟨fun n => ⟨rfl, rfl, rfl, toNat_eq_frequency_bytes n⟩, fun _ _ _ _ => rfl, fun m h => ?_⟩
  exact RegMap.frequency_consecutive h

end Machine
end Sys2Proof
end

section
/-! Proofs about SetMode (42_mode.md R136): one frame of the mode byte moves the Sequencer's record and the chip's mode
together. -/

namespace Sys2Proof.Machine

/-- An attached chip that agrees with the record takes the mode frame: it enters the target mode, with the mode byte's
upper bits. -/
theorem memWrite_modeByte_attached {d : Draw} {s : State} (m : Mode) (hwf : s.cfg.wf = true) (ha : s.modesAgree)
    (hd : d.fate = .completes) (hp : s.cfg.chipPresent = true) :
    memWrite d (s.cfg.map.addr .opMode) (modeByte s.cfg m) s =
      .done (modeByte s.cfg m)
        { s with chip := s.chip.enterMode s.free m ((modeByte s.cfg m).extractLsb' 3 5), free := s.free + 1,
                 csN := true, busLog := s.busLog ++ [wrote s.cfg .opMode (modeByte s.cfg m)] } := by
  have hlora : s.chip.lora s.cfg = true := (ha hp).2
  have hw := Chip.writeOpMode_modeByte hwf s.free m s.chip (.inr hlora)
  rw [← Chip.write_opMode] at hw
  exact memWrite_reg _ hd hwf hp hw

/-- A write frame with no chip attached completes with its record in BUSLOG (log 12). -/
theorem memWrite_absent {d : Draw} {s : State} (a : RegAddr) (v : Byte) (hd : d.fate = .completes)
    (hp : s.cfg.chipPresent = false) :
    memWrite d a v s = .done v { s with csN := true, busLog := s.busLog ++ [⟨true, a, v⟩] } := by
  simp only [memWrite, busFrame, hd, transact_write_absent a v hp]

/-- After a completed mode frame the record is the target and the Sequencer is at the next position. -/
theorem setModeFrame_of_done {d : Draw} {m : Mode} {ph : Phase} {v : Byte} {s u : State}
    (h : memWrite d (s.cfg.map.addr .opMode) (modeByte s.cfg m) s = .done v u) :
    setModeFrame d m ph s = .next (({ u with mode := m } : State).goto ph) := by
  rw [setModeFrame, h, FrameResult.andThen_done]

/-- The first micro-step of SetMode when its frame completes: record and chip move together, chip attached or not. -/
theorem setModeFrame_completes {d : Draw} {s : State} (m : Mode) (ph : Phase) (hwf : s.cfg.wf = true)
    (ha : s.modesAgree) (hd : d.fate = .completes) :
    ∃ t, setModeFrame d m ph s = .next t ∧ t.mode = m ∧ (s.cfg.chipPresent = true → t.chip.mode = m) ∧ t.modesAgree ∧
      t.phase = ph ∧ t.busLog = s.busLog ++ [wrote s.cfg .opMode (modeByte s.cfg m)] := by
  by_cases hp : s.cfg.chipPresent = true
  · have hlora := Chip.lora_enterMode hwf s.free m s.chip
    exact ⟨_, setModeFrame_of_done (memWrite_modeByte_attached m hwf ha hd hp), rfl, fun _ => rfl,
      fun _ => ⟨rfl, hlora⟩, rfl, rfl⟩
  · have hp' : s.cfg.chipPresent = false := Bool.eq_false_of_not_eq_true hp
    exact ⟨_, setModeFrame_of_done (memWrite_absent _ _ hd hp'), rfl, fun h => absurd h hp,
      fun h => absurd h hp, rfl, rfl⟩

/-- The first micro-step of SetMode when its frame fails: BusError, with the record as it was and no frame in BUSLOG. -/
theorem setModeFrame_fails {d : Draw} {m : Mode} {ph : Phase} {s t : State} (hd : d.fate ≠ .completes)
    (h : setModeFrame d m ph s = .next t) :
    t.mode = s.mode ∧ t.status = .busError ∧ t.phase = .idle ∧ t.busLog = s.busLog := by
  rcases memWrite_andThen h with ⟨-, hc, -⟩ | ⟨u, -, -, hf, hb, rfl⟩
  · exact absurd hc hd
  · exact ⟨hf.mode, rfl, rfl, hb⟩

/-- Settles O28: the chip takes the mode byte because it is in long-range mode, and the record follows in the same
micro-step; the settle delay only moves PHASE. -/
theorem setModeMovesBothCopies : Obligations.SetModeMovesBothCopies := by
  unfold Obligations.SetModeMovesBothCopies
  exact ⟨fun _ _ m ph hwf ha hd => setModeFrame_completes m ph hwf ha hd,
    fun _ _ _ _ _ hd h => setModeFrame_fails hd h, fun _ _ => rfl⟩

end Sys2Proof.Machine
end

section
/-! Proofs about `Wait` (60_exceptions.md R212): which outcomes are enabled, and that the draw chooses among them. -/

namespace Sys2Proof.Machine

/-- The choice between the outcomes of `Wait` is a draw of its own: it does not move DIO. -/
@[simp] theorem dioLevel_takeTimeout (d : Draw) (b : Bool) (s : State) :
    dioLevel { d with takeTimeout := b } s = dioLevel d s := rfl

/-- One draw of `Wait` is signalled: DIO is 1, and either it must be heard or the draw does not take the timeout. -/
theorem waitSignalled_eq_true_iff {ms : Nat} {d : Draw} {s : State} :
    waitSignalled ms d s = true ↔ dioLevel d s = true ∧ (s.cfg.waitStrict = true ∨ d.takeTimeout = false) := by
  simp only [waitSignalled, Bool.and_eq_true, Bool.or_eq_true, Bool.not_eq_true']

/-- One draw of `Wait` times out: DIO is 0, or it need not be heard and the draw takes the timeout. -/
theorem waitSignalled_eq_false_iff {ms : Nat} {d : Draw} {s : State} :
    waitSignalled ms d s = false ↔ dioLevel d s = false ∨ s.cfg.waitStrict = false ∧ d.takeTimeout = true := by
  simp only [waitSignalled, Bool.and_eq_false_iff, Bool.or_eq_false_iff, Bool.not_eq_false']

/-- `signalled` is enabled exactly when DIO is 1: the draw that declines the timeout takes it. -/
theorem exists_waitSignalled_true_iff {ms : Nat} {d : Draw} {s : State} :
    (∃ b, waitSignalled ms { d with takeTimeout := b } s = true) ↔ dioLevel d s = true := by
  simp only [waitSignalled_eq_true_iff, dioLevel_takeTimeout]
  constructor
  · rintro ⟨_, hdio, -⟩
    exact hdio
  · intro hdio
    exact ⟨false, hdio, .inr rfl⟩

/-- `timeout` is enabled exactly when DIO is 0 or WAIT_STRICT is false: the draw that asks for the timeout takes it. -/
theorem exists_waitSignalled_false_iff {ms : Nat} {d : Draw} {s : State} :
    (∃ b, waitSignalled ms { d with takeTimeout := b } s = false) ↔
      dioLevel d s = false ∨ s.cfg.waitStrict = false := by
  simp only [waitSignalled_eq_false_iff, dioLevel_takeTimeout]
  constructor
  · rintro ⟨_, hdio | ⟨hstrict, -⟩⟩
    · exact .inl hdio
    · exact .inr hstrict
  · intro h
    exact ⟨true, h.imp_right fun hstrict => ⟨hstrict, rfl⟩⟩

/-- Settles O50: each outcome has the draw that takes it when it is enabled, and the window is not read. -/
theorem waitTakesAnEnabledOutcome : Obligations.WaitTakesAnEnabledOutcome := by
  unfold Obligations.WaitTakesAnEnabledOutcome
  exact fun _ _ _ _ => ⟨exists_waitSignalled_true_iff, exists_waitSignalled_false_iff, rfl⟩

end Sys2Proof.Machine
end

section
/-! Proofs about the step as a whole (10_state.md section 3; 30_encoding.md section 6): what one step does with the next
input, what every step keeps of the histories, and that it keeps the invariant (70_reset_and_hazards.md R251). -/

namespace Sys2Proof.Machine

/-! ### One step -/

/-- While BUSY a step is a micro-step (log 3). -/
theorem step_busy {s : State} (h : s.busy = true) : step s = microStep s := by
  simp [step, portStep, h]

/-- While idle a step takes the first waiting input (log 2). -/
theorem step_input {s : State} {x : Input} {rest : List Input} (hid : s.phase = .idle) (hin : s.inbox = x :: rest) :
    step s = takeInput x { s with inbox := rest } := by
  simp [step, portStep, State.busy_eq_false hid, hin]

/-- While idle, with no input, nothing happens. -/
theorem step_no_input {s : State} (hid : s.phase = .idle) (hin : s.inbox = []) : step s = .next s := by
  simp [step, portStep, State.busy_eq_false hid, hin]

theorem presentCommand_ok {w : BitVec 24} {i : Instr} (s : State) (h : decodeCommand w = .ok i) :
    presentCommand w s = exec i s := by
  simp [presentCommand, h]

theorem presentCommand_error {w : BitVec 24} {e : DecodeError} {s : State} (h : decodeCommand w = .error e)
    (hid : s.phase = .idle) : presentCommand w s = .next (s.invalidatePacket.refuse .badCommand) := by
  simp [presentCommand, h, acceptIllegal, State.busy_eq_false hid]

/-- Everything a presented command word can do: the decoded command runs, or the word is reported illegal. -/
theorem presentCommand_cases (w : BitVec 24) {s : State} (hid : s.phase = .idle) :
    (∃ i, isCommand i = true ∧ presentCommand w s = exec i s) ∨
      presentCommand w s = .next (s.invalidatePacket.refuse .badCommand) := by
  cases h : decodeCommand w with
  | ok i => exact .inl ⟨i, decodeCommand_isCommand h, presentCommand_ok s h⟩
  | error e => exact .inr (presentCommand_error h hid)

/-! ### What a command keeps on every path -/

/-- A command changes no operand and no waiting input, and adds to the histories only. -/
theorem exec_command_keeps {i : Instr} {s t : State} (hi : isCommand i = true) (h : exec i s = .next t) :
    KeepsOperands s t ∧ s.busLog <+: t.busLog ∧ s.txLog <+: t.txLog := by
  rcases exec_command s hi with ⟨-, he⟩ | ⟨-, -, -, he⟩ | ⟨-, -, he⟩ <;> rw [he] at h
  · cases h; exact ⟨⟨rfl, rfl, rfl, rfl⟩, List.prefix_rfl, List.prefix_rfl⟩
  · cases h; exact ⟨⟨rfl, rfl, rfl, rfl⟩, List.prefix_rfl, List.prefix_rfl⟩
  · obtain ⟨⟨hc, hr, ht, hi⟩, hb, hx, -⟩ := runToIdle_micro h
    exact ⟨⟨hc, hr, ht, hi⟩, hb, hx⟩

theorem presentCommand_keeps {w : BitVec 24} {s t : State} (hid : s.phase = .idle)
    (h : presentCommand w s = .next t) : KeepsOperands s t ∧ s.busLog <+: t.busLog ∧ s.txLog <+: t.txLog := by
  rcases presentCommand_cases w hid with ⟨i, hi, he⟩ | he <;> rw [he] at h
  · exact exec_command_keeps hi h
  · cases h; exact ⟨⟨rfl, rfl, rfl, rfl⟩, List.prefix_rfl, List.prefix_rfl⟩

/-- A micro-step keeps the waiting inputs and adds to the histories only. -/
theorem microStep_histories {s t : State} (h : microStep s = .next t) :
    t.inbox = s.inbox ∧ s.busLog <+: t.busLog ∧ s.txLog <+: t.txLog := by
  have hk := perform_keeps (microStep_next h).2
  refine ⟨by simpa using hk.inbox, by simpa using hk.busLog, ?_⟩
  rw [hk.txLog, State.afterRadio_txLog]
  exact radioSteps_txLog_prefix _ _

/-- A Host write of an operand changes neither history. -/
theorem hostWrite_histories {h : HostWrite} {s t : State} (hn : s.hostWrite h = .next t) :
    t.busLog = s.busLog ∧ t.txLog = s.txLog := by
  cases h with
  | txBuf i v =>
    simp only [State.hostWrite] at hn
    split at hn
    · cases hn; exact ⟨rfl, rfl⟩
    · cases hn
  | _ => cases hn; exact ⟨rfl, rfl⟩

/-- A bus frame that completes adds its record to BUSLOG and leaves TXLOG. -/
theorem frameOutcome_histories {ab db : Byte} {s t : State} (h : frameOutcome ab db s = .next t) :
    s.busLog <+: t.busLog ∧ t.txLog = s.txLog := by
  simp only [frameOutcome] at h
  split at h
  · next v u hu =>
    cases h
    obtain ⟨hf, -, hb⟩ := transact_frameOnly hu
    exact ⟨hb ▸ List.prefix_append _ _, hf.txLog⟩
  · cases h

/-- A bus-frame row is one transaction. -/
theorem exec_frame {i : Instr} (s : State) (h : isCommand i = false) : ∃ ab db, exec i s = frameOutcome ab db s := by
  cases i
  case rdreg | wrreg | synth | configure | setmode | send | poll => cases h
  all_goals exact ⟨_, _, rfl⟩

/-- What a bus frame decodes to is no command (30_encoding.md R91). -/
theorem decodeFrame_isCommand (m : RegMap) (w : BitVec 16) : isCommand (decodeFrame m w) = false := by
  simp only [decodeFrame, writeRow, readRow]
  repeat' split
  all_goals rfl

theorem exec_frame_histories {i : Instr} {s t : State} (hi : isCommand i = false) (h : exec i s = .next t) :
    s.busLog <+: t.busLog ∧ t.txLog = s.txLog := by
  obtain ⟨ab, db, he⟩ := exec_frame s hi
  exact frameOutcome_histories (he ▸ h)

/-- Settles O60: a micro-step, a command, a frame, a Host write and a Radio step each add to the histories at most. -/
theorem historiesOnlyGrow : Obligations.HistoriesOnlyGrow := by
  unfold Obligations.HistoriesOnlyGrow
  intro s t h
  by_cases hid : s.phase = .idle
  · cases hin : s.inbox with
    | nil =>
      rw [step_no_input hid hin] at h
      cases h; exact ⟨List.prefix_rfl, List.prefix_rfl⟩
    | cons x rest =>
      rw [step_input hid hin] at h
      cases x with
      | command w => exact (presentCommand_keeps (s := { s with inbox := rest }) hid h).2
      | frame w =>
        obtain ⟨hb, hx⟩ := exec_frame_histories (decodeFrame_isCommand s.cfg.map w) h
        exact ⟨hb, hx ▸ List.prefix_rfl⟩
      | hostWrite hw =>
        obtain ⟨hb, hx⟩ := hostWrite_histories h
        exact ⟨hb ▸ List.prefix_rfl, hx ▸ List.prefix_rfl⟩
      | radio e =>
        cases h
        exact ⟨by simp, radioStep_txLog_prefix e { s with inbox := rest }⟩
  · rw [step_busy (State.busy_eq_true hid)] at h
    exact (microStep_histories h).2

/-! ### The command port -/

/-- Settles O8: BUSY is PHASE ≠ Idle; a micro-step keeps the queue, and a command keeps it but for the word taken. -/
theorem busyHoldsThePresentedWord : Obligations.BusyHoldsThePresentedWord := by
  unfold Obligations.BusyHoldsThePresentedWord
  refine ⟨fun s => by simp [State.busy], fun s t hb h => ?_, fun s i hi hb => exec_busy hi hb,
    fun s t w rest hb hin h => ?_⟩
  · rw [step_busy hb] at h
    exact (microStep_histories h).1
  · have hid : s.phase = .idle := by simpa [State.busy] using hb
    rw [step_input hid hin] at h
    exact (presentCommand_keeps (s := { s with inbox := rest }) hid h).1.inbox

/-- Settles O6: the step of an idle machine is its input taken, and the decoder gives the instruction. -/
theorem stepRunsTheDecodedInstruction : Obligations.StepRunsTheDecodedInstruction := by
  unfold Obligations.StepRunsTheDecodedInstruction
  constructor
  · intro s w rest i hid hin hd
    rw [step_input hid hin]
    exact presentCommand_ok _ hd
  · intro s w rest hid hin
    rw [step_input hid hin]
    rfl

/-- The instruction of a table word is what its encoded word decodes to, at the default register map. -/
theorem decodeTableWord_some {nbits w : Nat} {i : Instr} (h : decodeTableWord nbits w = some i) :
    (nbits = 24 ∧ decodeCommand (BitVec.ofNat 24 w) = .ok i) ∨
      (nbits = 16 ∧ decodeFrame RegMap.reference (BitVec.ofNat 16 w) = i) := by
  by_cases h24 : nbits = 24
  · subst h24
    cases hd : decodeCommand (BitVec.ofNat 24 w) with
    | ok j => simpa [decodeTableWord, Encoded.ofTable, decode, hd] using h
    | error e => simp [decodeTableWord, Encoded.ofTable, decode, hd] at h
  · by_cases h16 : nbits = 16
    · subst h16
      simpa [decodeTableWord, Encoded.ofTable, decode] using h
    · simp [decodeTableWord, Encoded.ofTable, h24, h16] at h

/-- Settles O7: the placed word is the first input of an idle machine. -/
theorem placedWordRunsNext : Obligations.PlacedWordRunsNext := by
  unfold Obligations.PlacedWordRunsNext
  intro s nbits w i hmap h
  rw [step_input (s := s.withFetchWord nbits w) rfl rfl]
  rcases decodeTableWord_some h with ⟨rfl, hd⟩ | ⟨rfl, hd⟩
  · exact presentCommand_ok _ hd
  · have hd' : decodeFrame s.cfg.map (BitVec.ofNat 16 w) = i := by rw [hmap]; exact hd
    exact congrArg (exec · { s with phase := .idle }) hd'

/-- Settles O10: the guard of R103 refuses before anything else happens. -/
theorem unconfiguredCommandsAreRefused : Obligations.UnconfiguredCommandsAreRefused := by
  unfold Obligations.UnconfiguredCommandsAreRefused
  intro s i hid hc hi
  have hn : needsConfigured i = true := by rcases hi with ⟨m, rfl⟩ | ⟨n, rfl⟩ | ⟨t, rfl⟩ <;> rfl
  refine ⟨s.invalidatePacket.packet, s.free + 2, ?_, rfl⟩
  rw [exec_unconfigured hn hid hc]
  simp only [State.refuse, State.finish, State.invalidatePacket, hid]

/-! ### The invariant through a step -/

/-- Taking an input from the queue keeps the invariant. -/
theorem State.Inv.take {s : State} {x : Input} {rest : List Input} (h : s.Inv) (hin : s.inbox = x :: rest) :
    ({ s with inbox := rest } : State).Inv where
  cfg_wf := h.cfg_wf
  master w hw := h.master w (by rw [hin]; exact List.mem_cons_of_mem _ hw)
  fifo_wf := h.fifo_wf
  txBuf_wf := h.txBuf_wf
  rxBuf_wf := h.rxBuf_wf
  csN := h.csN
  phaseInv := h.phaseInv

/-- At Idle the invariant's clause is RESET_N released, and record and chip in agreement while configured. -/
theorem State.Inv.at_idle {s : State} (h : s.Inv) (hid : s.phase = .idle) :
    s.resetN = true ∧ (s.configured = true → s.modesAgree) := by
  have hp := h.phaseInv
  simpa only [State.phaseInv, hid] using hp

/-- A refusal keeps the invariant (60_exceptions.md R217). -/
theorem State.Inv.refused {s : State} (h : s.Inv) (hid : s.phase = .idle) (code : ResultCode) :
    (s.invalidatePacket.refuse code).Inv :=
  h.of_frame rfl rfl h.fifo_wf rfl rfl h.csN (h.at_idle hid)

/-- A command keeps the invariant: it holds where the command starts, and every micro-step keeps it. -/
theorem exec_command_inv {i : Instr} {s t : State} (hi : isCommand i = true) (hs : s.Inv) (h : exec i s = .next t) :
    t.Inv := by
  rcases exec_command s hi with ⟨-, he⟩ | ⟨hid, -, -, he⟩ | ⟨hid, hc, he⟩ <;> rw [he] at h
  · cases h; exact hs
  · cases h; exact hs.refused hid _
  · exact (runToIdle_keeps (fun _ _ hu _ hm => microStep_inv hu hm) (started_inv hi hs hid hc) h).2

theorem presentCommand_inv {w : BitVec 24} {s t : State} (hs : s.Inv) (hid : s.phase = .idle)
    (h : presentCommand w s = .next t) : t.Inv := by
  rcases presentCommand_cases w hid with ⟨i, hi, he⟩ | he <;> rw [he] at h
  · exact exec_command_inv hi hs h
  · cases h; exact hs.refused hid _

/-- A Host write keeps the invariant: the operands have no constraint, and TXBUF is written below its size. -/
theorem hostWrite_inv {hw : HostWrite} {s t : State} (hs : s.Inv) (h : s.hostWrite hw = .next t) : t.Inv := by
  cases hw with
  | txBuf i v =>
    simp only [State.hostWrite] at h
    split at h
    · next hlt =>
      cases h
      exact ⟨hs.cfg_wf, hs.master, hs.fifo_wf, Mem.wf_write v hlt hs.txBuf_wf, hs.rxBuf_wf, hs.csN, hs.phaseInv⟩
    · cases h
  | _ => cases h; exact ⟨hs.cfg_wf, hs.master, hs.fifo_wf, hs.txBuf_wf, hs.rxBuf_wf, hs.csN, hs.phaseInv⟩

/-- Settles O56: a busy step is a micro-step; an idle one a command, a Host write or a Radio step, since the Sequencer
is the only bus master. -/
theorem stepKeepsTheInvariant : Obligations.StepKeepsTheInvariant := by
  unfold Obligations.StepKeepsTheInvariant
  intro s t hs h
  by_cases hid : s.phase = .idle
  · cases hin : s.inbox with
    | nil =>
      rw [step_no_input hid hin] at h
      cases h; exact hs
    | cons x rest =>
      have hs' := hs.take hin
      rw [step_input hid hin] at h
      cases x with
      | command w => exact presentCommand_inv hs' hid h
      | frame w => exact absurd (by simp [hin]) (hs.master w)
      | hostWrite hw => exact hostWrite_inv hs' h
      | radio e => cases h; exact radioStep_inv e hs'
  · rw [step_busy (State.busy_eq_true hid)] at h
    exact microStep_inv hs h

/-- Settles O57: the invariant, which the step keeps, says it of an idle and configured core. -/
theorem modeRecordEqualsTheChipsMode : Obligations.ModeRecordEqualsTheChipsMode := by
  unfold Obligations.ModeRecordEqualsTheChipsMode
  intro s t hs h hid hc hp
  have ht : t.Inv := stepKeepsTheInvariant s t hs h
  exact ((ht.at_idle hid).2 hc hp).1.symm

/-- Settles O55: every clause is about the values `State.reset` writes out. -/
theorem resetMeetsTheInvariant : Obligations.ResetMeetsTheInvariant := by
  unfold Obligations.ResetMeetsTheInvariant
  exact ⟨by decide, by simp [State.soleMaster, State.reset], rfl, rfl, rfl, rfl, rfl, fun h => by cases h⟩

end Sys2Proof.Machine
end

section
/-! Proofs about the encodings (30_encoding.md sections 1 to 4): decoding and encoding are inverse, and the mask test of
a row is a test of the word's fields. -/

namespace Sys2Proof

open Machine

/-! ### The operand bits -/

@[simp] theorem operand7_high (a : RegAddr) : (0#1 ++ a).extractLsb' 7 1 = 0#1 := by revert a; decide

@[simp] theorem operand7_low (a : RegAddr) : (0#1 ++ a).extractLsb' 0 7 = a := by revert a; decide

@[simp] theorem operand2_high (t : BitVec 2) : (0#6 ++ t).extractLsb' 2 6 = 0#6 := by revert t; decide

@[simp] theorem operand2_low (t : BitVec 2) : (0#6 ++ t).extractLsb' 0 2 = t := by revert t; decide

/-- A byte whose top bit is 0 is its low seven bits. -/
theorem operand7_of_high {k : Byte} (h : k.extractLsb' 7 1 = 0#1) : 0#1 ++ k.extractLsb' 0 7 = k := by
  revert k; decide

/-- A byte whose six top bits are 0 is its low two bits. -/
theorem operand2_of_high {k : Byte} (h : k.extractLsb' 2 6 = 0#6) : 0#6 ++ k.extractLsb' 0 2 = k := by
  revert k; decide

/-- A 16-bit operand is its two bytes (30_encoding.md R93). -/
theorem operand16_bytes (t : BitVec 16) : t.extractLsb' 8 8 ++ t.extractLsb' 0 8 = t := by
  apply BitVec.eq_of_getLsbD_eq
  intro i hi
  simp only [BitVec.getLsbD_append, BitVec.getLsbD_extractLsb']
  by_cases h : i < 8
  · simp [h]
  · have h1 : 8 + (i - 8) = i := by omega
    have h2 : i - 8 < 8 := by omega
    simp [h, h1, h2]

/-- The two bytes of a 16-bit operand are the bytes it was put together from. -/
theorem operand16_fields (ka kb : Byte) : (ka ++ kb).extractLsb' 8 8 = ka ∧ (ka ++ kb).extractLsb' 0 8 = kb :=
  append_inj.mp (operand16_bytes (ka ++ kb))

/-! ### Frames -/

/-- A frame decodes to the row its write bit and its address select. -/
theorem decodeFrame_frameWord (m : RegMap) (b : BitVec 1) (a : RegAddr) (d : Byte) :
    decodeFrame m (frameWord b a d) = if b = 1#1 then writeRow m a d else readRow m a d := by
  simp [decodeFrame]

/-- The generic write row is for an address without a row of its own. -/
theorem writeRow_generic {m : RegMap} {a : RegAddr} (h : (m.lookup a).any hasWriteRow = false) (d : Byte) :
    writeRow m a d = .busWrite a d := by
  cases hl : m.lookup a with
  | none => simp [writeRow, hl]
  | some r =>
    rw [hl, Option.any_some] at h
    cases r
    case fifo | opMode | fifoAddrPtr | irqFlags | dioMapping => cases h
    all_goals simp [writeRow, hl]

/-- The generic read row is for an address without a row of its own. -/
theorem readRow_generic {m : RegMap} {a : RegAddr} (h : (m.lookup a).any hasReadRow = false) (d : Byte) :
    readRow m a d = .busRead a d := by
  cases hl : m.lookup a with
  | none => simp [readRow, hl]
  | some r =>
    rw [hl, Option.any_some] at h
    cases r
    case fifo | version => cases h
    all_goals simp [readRow, hl]

/-- A write row is encoded as the write frame it was decoded from, and is well formed. -/
theorem encode_writeRow (m : RegMap) (a : RegAddr) (d : Byte) :
    encode m (writeRow m a d) = .frame (frameWord 1#1 a d) ∧ (writeRow m a d).wf m = true := by
  cases hl : m.lookup a with
  | none => simp [writeRow, hl, encode, Instr.wf]
  | some r =>
    have ha := RegMap.addr_of_lookup hl
    cases r
    case fifo | opMode | fifoAddrPtr | irqFlags | dioMapping => simp [writeRow, hl, encode, Instr.wf, ha]
    all_goals simp [writeRow, hl, encode, Instr.wf, hasWriteRow]

/-- A read row is encoded as the read frame it was decoded from, and is well formed. -/
theorem encode_readRow (m : RegMap) (a : RegAddr) (d : Byte) :
    encode m (readRow m a d) = .frame (frameWord 0#1 a d) ∧ (readRow m a d).wf m = true := by
  cases hl : m.lookup a with
  | none => simp [readRow, hl, encode, Instr.wf]
  | some r =>
    have ha := RegMap.addr_of_lookup hl
    cases r
    case fifo | version => simp [readRow, hl, encode, Instr.wf, ha]
    all_goals simp [readRow, hl, encode, Instr.wf, hasReadRow]

/-- Settles O2: a command word's fields are read back as they were put in, and a frame's row is the one its address
has in the map. -/
theorem decodeOfEncode : Obligations.DecodeOfEncode := by
  unfold Obligations.DecodeOfEncode
  intro m i hm hi
  cases i <;> simp only [encode, decode, decodeFrame_frameWord]
  case busWrite a d => simp [writeRow_generic (m := m) (a := a) (by simpa [Instr.wf] using hi)]
  case busRead a d => simp [readRow_generic (m := m) (a := a) (by simpa [Instr.wf] using hi)]
  case busReadFifo d | busReadVersion d => simp [readRow, RegMap.lookup_addr hm]
  case busWriteFifo d | busWriteOpMode d | busWriteFifoAddrPtr d | busWriteIrqFlags d | busWriteDioMapping d =>
    simp [writeRow, RegMap.lookup_addr hm]
  case poll t => simp [decodeCommand, operand16_bytes]
  all_goals simp [decodeCommand]

/-! ### Commands -/

/-- A legal command word is the encoding of what it decodes to, under any register map. -/
theorem encode_of_decodeCommand (m : RegMap) {w : BitVec 24} {i : Instr} (h : decodeCommand w = .ok i) :
    encode m i = .command w := by
  have hz : fieldZ w = 0#4 := by
    by_contra hz
    simp [decodeCommand, hz] at h
  rw [← commandWord_fields w hz]
  simp only [decodeCommand, hz, ne_eq, not_true_eq_false, if_false] at h
  split at h
  · next hop =>
    split at h <;> cases h
    next hk => rw [encode, operand7_of_high hk.1, hop, hk.2]
  split at h
  · next hop =>
    split at h <;> cases h
    next hk => rw [encode, operand7_of_high hk, hop]
  split at h
  · next hop =>
    split at h <;> cases h
    next hk => rw [encode, hop, hk.1, hk.2]
  split at h
  · next hop =>
    split at h <;> cases h
    next hk => rw [encode, hop, hk.1, hk.2]
  split at h
  · next hop =>
    split at h <;> cases h
    next hk => rw [encode, Mode.target_ofTarget, operand2_of_high hk.2, hop, hk.1]
  split at h
  · next hop =>
    split at h <;> cases h
    next hk => rw [encode, hop, hk]
  split at h <;> cases h
  next hop => rw [encode, (operand16_fields _ _).1, (operand16_fields _ _).2, hop]

theorem isCommand_wf {i : Instr} (m : RegMap) (h : isCommand i = true) : i.wf m = true := by
  cases i <;> first | rfl | cases h

/-- Settles O3: a command word is put together from the fields its operation code keeps, a frame from its three. -/
theorem encodeOfDecode : Obligations.EncodeOfDecode := by
  unfold Obligations.EncodeOfDecode
  intro m e i _ h
  cases e with
  | command w => exact ⟨encode_of_decodeCommand m h, isCommand_wf m (decodeCommand_isCommand h)⟩
  | frame w =>
    have hi : decodeFrame m w = i := Except.ok.inj h
    subst hi
    rw [← frameWord_fields w, decodeFrame_frameWord]
    split
    · next hw => rw [hw]; exact encode_writeRow m _ _
    · next hw =>
      have h0 : w.extractLsb' 15 1 = 0#1 := by
        generalize w.extractLsb' 15 1 = b at hw
        revert b; decide
      rw [h0]; exact encode_readRow m _ _

/-! ### Rows -/

/-- A mask test on numbers is the mask test on words. -/
theorem toNat_and_iff {n : Nat} (w m p : BitVec n) : w.toNat &&& m.toNat = p.toNat ↔ w &&& m = p := by
  rw [← BitVec.toNat_and, BitVec.toNat_inj]

/-- The mask test of a command row: the operation code, Z = 0, and the operand bits that must be 0 (30_encoding.md
R95). -/
theorem commandRow_iff (w : BitVec 24) (op : BitVec 4) (ma mb : Byte) :
    w.toNat &&& (wordOfFields 0xF#4 0xF#4 ma mb).toNat = (wordOfFields op 0#4 0#8 0#8).toNat ↔
      fieldOp w = op ∧ fieldZ w = 0#4 ∧ fieldKA w &&& ma = 0#8 ∧ fieldKB w &&& mb = 0#8 := by
  have h4 (x : BitVec 4) : x &&& 0xF#4 = x := by revert x; decide
  rw [toNat_and_iff, and_wordOfFields, h4, h4]

/-- The mask test of a frame row that fixes the write bit and, with the mask `ma`, the address. -/
theorem frameRow_iff (w : BitVec 16) (b : BitVec 1) (ma a : RegAddr) :
    w.toNat &&& (frameWord 1#1 ma 0#8).toNat = (frameWord b a 0#8).toNat ↔
      w.extractLsb' 15 1 = b ∧ frameAddr w &&& ma = a := by
  have h1 (x : BitVec 1) : x &&& 1#1 = x := by revert x; decide
  rw [toNat_and_iff, and_frameWord, h1]
  simp

/-- The mask test of a row that fixes the write bit only. -/
theorem writeBit_iff (w : BitVec 16) (b : BitVec 1) :
    w.toNat &&& 0x8000 = (frameWord b 0#7 0#8).toNat ↔ w.extractLsb' 15 1 = b :=
  (frameRow_iff w b 0#7 0#7).trans (and_iff_left (by simp))

theorem and_80_iff (k : Byte) : k &&& 0x80#8 = 0#8 ↔ k.extractLsb' 7 1 = 0#1 := by revert k; decide

theorem and_FC_iff (k : Byte) : k &&& 0xFC#8 = 0#8 ↔ k.extractLsb' 2 6 = 0#6 := by revert k; decide

/-- Whether a word decodes to an instruction of a mnemonic. -/
def decodesTo (w : BitVec 24) (mnemonic : String) : Prop := ∃ i, decodeCommand w = .ok i ∧ i.mnemonic = mnemonic

/-- A word whose masked bits are a row's decodes to an instruction of the row. -/
theorem decodesTo_of_row {w : BitVec 24} {row : OpcodeRow} (hrow : row ∈ commandRows)
    (h : w.toNat &&& row.mask = row.pattern) : decodesTo w row.mnemonic := by
  simp only [commandRows, List.mem_cons, List.not_mem_nil, or_false] at hrow
  rcases hrow with rfl | rfl | rfl | rfl | rfl | rfl | rfl
  · obtain ⟨hop, hz, ha, hb⟩ := (commandRow_iff w 1#4 0x80#8 0xFF#8).mp h
    rw [and_80_iff] at ha
    rw [Laws.byte_and] at hb
    exact ⟨.rdreg ((fieldKA w).extractLsb' 0 7), by simp [decodeCommand, hz, hop, ha, hb], rfl⟩
  · obtain ⟨hop, hz, ha, -⟩ := (commandRow_iff w 2#4 0x80#8 0#8).mp h
    rw [and_80_iff] at ha
    exact ⟨.wrreg ((fieldKA w).extractLsb' 0 7) (fieldKB w), by simp [decodeCommand, hz, hop, ha], rfl⟩
  · obtain ⟨hop, hz, ha, hb⟩ := (commandRow_iff w 3#4 0xFF#8 0xFF#8).mp h
    rw [Laws.byte_and] at ha hb
    exact ⟨.synth, by simp [decodeCommand, hz, hop, ha, hb], rfl⟩
  · obtain ⟨hop, hz, ha, hb⟩ := (commandRow_iff w 4#4 0xFF#8 0xFF#8).mp h
    rw [Laws.byte_and] at ha hb
    exact ⟨.configure, by simp [decodeCommand, hz, hop, ha, hb], rfl⟩
  · obtain ⟨hop, hz, ha, hb⟩ := (commandRow_iff w 5#4 0xFF#8 0xFC#8).mp h
    rw [Laws.byte_and] at ha
    rw [and_FC_iff] at hb
    exact ⟨.setmode (Mode.ofTarget ((fieldKB w).extractLsb' 0 2)), by simp [decodeCommand, hz, hop, ha, hb], rfl⟩
  · obtain ⟨hop, hz, ha, -⟩ := (commandRow_iff w 6#4 0xFF#8 0#8).mp h
    rw [Laws.byte_and] at ha
    exact ⟨.send (fieldKB w), by simp [decodeCommand, hz, hop, ha], rfl⟩
  · obtain ⟨hop, hz, -, -⟩ := (commandRow_iff w 7#4 0#8 0#8).mp h
    exact ⟨.poll (fieldKA w ++ fieldKB w), by simp [decodeCommand, hz, hop], rfl⟩

/-- The rows have different mnemonics. -/
theorem commandRows_mnemonic_inj :
    ∀ row ∈ commandRows, ∀ row' ∈ commandRows, row.mnemonic = row'.mnemonic → row = row' := by decide

/-- The word of a command lies in its mnemonic's row. -/
theorem command_inRow {i : Instr} (h : isCommand i = true) :
    Laws.InRow i.mnemonic (encode RegMap.reference i) := by
  cases i
  case rdreg a => exact Laws.RowMatch.rdreg a
  case wrreg a v => exact Laws.RowMatch.wrreg a v
  case synth => exact Laws.RowMatch.synth
  case configure => exact Laws.RowMatch.configure
  case setmode m => exact Laws.RowMatch.setmode m
  case send n => exact Laws.RowMatch.send n
  case poll t => exact Laws.RowMatch.poll t
  all_goals cases h

/-- A word that decodes to an instruction of a row has the row's masked bits. -/
theorem row_of_decodesTo {w : BitVec 24} {row : OpcodeRow} (hrow : row ∈ commandRows)
    (h : decodesTo w row.mnemonic) : w.toNat &&& row.mask = row.pattern := by
  obtain ⟨i, hd, hn⟩ := h
  have hin := command_inRow (decodeCommand_isCommand hd)
  rw [encode_of_decodeCommand _ hd] at hin
  obtain ⟨row', hrow', hn', hw⟩ := hin
  rwa [commandRows_mnemonic_inj row hrow row' hrow' (hn.symm.trans hn'.symm)]

/-- No word lies in two rows, since it decodes to one instruction. -/
theorem commandRows_disjoint {w : BitVec 24} {row row' : OpcodeRow} (hrow : row ∈ commandRows)
    (hrow' : row' ∈ commandRows) (h : w.toNat &&& row.mask = row.pattern) (h' : w.toNat &&& row'.mask = row'.pattern) :
    row = row' := by
  obtain ⟨i, hd, hn⟩ := decodesTo_of_row hrow h
  obtain ⟨i', hd', hn'⟩ := decodesTo_of_row hrow' h'
  have hi : i = i' := Except.ok.inj (hd.symm.trans hd')
  exact commandRows_mnemonic_inj row hrow row' hrow' (by rw [← hn, ← hn', hi])

/-- A word in no row is illegal. -/
theorem decodeCommand_error_of_no_row {w : BitVec 24}
    (h : ∀ row ∈ commandRows, w.toNat &&& row.mask ≠ row.pattern) : ∃ e, decodeCommand w = .error e := by
  cases hd : decodeCommand w with
  | error e => exact ⟨e, rfl⟩
  | ok i =>
    have hin := command_inRow (decodeCommand_isCommand hd)
    rw [encode_of_decodeCommand _ hd] at hin
    obtain ⟨row, hrow, -, hw⟩ := hin
    exact absurd hw (h row hrow)

/-- Settles O9: such a word does not decode, and the port reports it as it reports every illegal word. -/
theorem illegalWordIsReported : Obligations.IllegalWordIsReported := by
  unfold Obligations.IllegalWordIsReported
  intro s w rest hid hin hrow
  obtain ⟨e, he⟩ := decodeCommand_error_of_no_row hrow
  refine ⟨s.invalidatePacket.packet, s.free + 2, ?_, rfl⟩
  rw [step_input hid hin]
  refine (presentCommand_error (s := { s with inbox := rest }) he hid).trans ?_
  simp only [State.refuse, State.finish, State.invalidatePacket, hid]

/-! ### Frames of a row -/

/-- A frame is a write exactly when its top bit is 1. -/
theorem frameIsWrite_iff (w : BitVec 16) : frameIsWrite w = true ↔ w.extractLsb' 15 1 = 1#1 := by simp [frameIsWrite]

theorem frameIsWrite_eq_false_iff (w : BitVec 16) : frameIsWrite w = false ↔ w.extractLsb' 15 1 = 0#1 := by
  simp only [frameIsWrite]
  generalize w.extractLsb' 15 1 = b
  revert b; decide

/-- The mnemonic of a write frame is that of its address's own row exactly when that register lives at the address. -/
theorem writeRow_mnemonic (m : RegMap) (a : RegAddr) (d : Byte) :
    ((writeRow m a d).mnemonic = "BUS.WRITE.A_FIFO" ↔ m.lookup a = some .fifo) ∧
    ((writeRow m a d).mnemonic = "BUS.WRITE.A_OPMODE" ↔ m.lookup a = some .opMode) ∧
    ((writeRow m a d).mnemonic = "BUS.WRITE.A_FIFO_ADDR_PTR" ↔ m.lookup a = some .fifoAddrPtr) ∧
    ((writeRow m a d).mnemonic = "BUS.WRITE.A_IRQ_FLAGS" ↔ m.lookup a = some .irqFlags) ∧
    ((writeRow m a d).mnemonic = "BUS.WRITE.A_DIO_MAPPING" ↔ m.lookup a = some .dioMapping) ∧
    (writeRow m a d).mnemonic ≠ "BUS.READ.A_FIFO" ∧ (writeRow m a d).mnemonic ≠ "BUS.READ.A_VERSION" := by
  cases hl : m.lookup a with
  | none => simp [writeRow, hl, Instr.mnemonic]
  | some r => cases r <;> simp [writeRow, hl, Instr.mnemonic]

/-- The same for a read frame. -/
theorem readRow_mnemonic (m : RegMap) (a : RegAddr) (d : Byte) :
    ((readRow m a d).mnemonic = "BUS.READ.A_FIFO" ↔ m.lookup a = some .fifo) ∧
    ((readRow m a d).mnemonic = "BUS.READ.A_VERSION" ↔ m.lookup a = some .version) ∧
    (readRow m a d).mnemonic ∉ ["BUS.WRITE.A_FIFO", "BUS.WRITE.A_OPMODE", "BUS.WRITE.A_FIFO_ADDR_PTR",
      "BUS.WRITE.A_IRQ_FLAGS", "BUS.WRITE.A_DIO_MAPPING"] := by
  cases hl : m.lookup a with
  | none => simp [readRow, hl, Instr.mnemonic]
  | some r => cases r <;> simp [readRow, hl, Instr.mnemonic]

/-- A frame decodes to a register's own row exactly when the row fixes its write bit and its address. -/
theorem decodeFrame_mnemonic_iff {m : RegMap} (hm : m.wf = true) (w : BitVec 16) (b : BitVec 1) (r : Reg)
    (name : String) (hrow : (b, r, name) ∈ [(1#1, .fifo, "BUS.WRITE.A_FIFO"), (0#1, Reg.fifo, "BUS.READ.A_FIFO"),
      (1#1, .opMode, "BUS.WRITE.A_OPMODE"), (1#1, .fifoAddrPtr, "BUS.WRITE.A_FIFO_ADDR_PTR"),
      (1#1, .irqFlags, "BUS.WRITE.A_IRQ_FLAGS"), (1#1, .dioMapping, "BUS.WRITE.A_DIO_MAPPING"),
      (0#1, .version, "BUS.READ.A_VERSION")]) :
    (decodeFrame m w).mnemonic = name ↔ w.extractLsb' 15 1 = b ∧ frameAddr w = m.addr r := by
  rw [← RegMap.lookup_eq_some_iff hm]
  cases hw : frameIsWrite w with
  | true =>
    obtain ⟨h1, h2, h3, h4, h5, h6, h7⟩ := writeRow_mnemonic m (frameAddr w) (frameData w)
    have hb := (frameIsWrite_iff w).mp hw
    simp only [List.mem_cons, List.not_mem_nil, or_false, Prod.mk.injEq] at hrow
    rcases hrow with ⟨rfl, rfl, rfl⟩ | ⟨rfl, rfl, rfl⟩ | ⟨rfl, rfl, rfl⟩ | ⟨rfl, rfl, rfl⟩ | ⟨rfl, rfl, rfl⟩ |
      ⟨rfl, rfl, rfl⟩ | ⟨rfl, rfl, rfl⟩ <;> simp [decodeFrame, *]
  | false =>
    obtain ⟨h1, h2, h3⟩ := readRow_mnemonic m (frameAddr w) (frameData w)
    have hb := (frameIsWrite_eq_false_iff w).mp hw
    simp only [List.mem_cons, List.not_mem_nil, or_false, not_or] at h3
    simp only [List.mem_cons, List.not_mem_nil, or_false, Prod.mk.injEq] at hrow
    rcases hrow with ⟨rfl, rfl, rfl⟩ | ⟨rfl, rfl, rfl⟩ | ⟨rfl, rfl, rfl⟩ | ⟨rfl, rfl, rfl⟩ | ⟨rfl, rfl, rfl⟩ |
      ⟨rfl, rfl, rfl⟩ | ⟨rfl, rfl, rfl⟩ <;> simp [decodeFrame, *]

/-- The rows that fix the address are the rows of single registers. -/
theorem frameRow_mnemonic_iff (w : BitVec 16) {row : OpcodeRow} (hrow : row ∈ frameRows) (hmask : row.mask = 0xFF00) :
    (decodeFrame RegMap.reference w).mnemonic = row.mnemonic ↔ w.toNat &&& row.mask = row.pattern := by
  have hm : RegMap.reference.wf = true := by decide
  simp only [frameRows, List.mem_cons, List.not_mem_nil, or_false] at hrow
  rcases hrow with rfl | rfl | rfl | rfl | rfl | rfl | rfl | rfl | rfl
  · cases hmask
  · cases hmask
  · refine (decodeFrame_mnemonic_iff hm w 1#1 .fifo _ (by simp)).trans ?_
    exact (Laws.addr_and (frameAddr w) ▸ frameRow_iff w 1#1 0x7F#7 0x00#7).symm
  · refine (decodeFrame_mnemonic_iff hm w 0#1 .fifo _ (by simp)).trans ?_
    exact (Laws.addr_and (frameAddr w) ▸ frameRow_iff w 0#1 0x7F#7 0x00#7).symm
  · refine (decodeFrame_mnemonic_iff hm w 1#1 .opMode _ (by simp)).trans ?_
    exact (Laws.addr_and (frameAddr w) ▸ frameRow_iff w 1#1 0x7F#7 0x01#7).symm
  · refine (decodeFrame_mnemonic_iff hm w 1#1 .fifoAddrPtr _ (by simp)).trans ?_
    exact (Laws.addr_and (frameAddr w) ▸ frameRow_iff w 1#1 0x7F#7 0x0D#7).symm
  · refine (decodeFrame_mnemonic_iff hm w 1#1 .irqFlags _ (by simp)).trans ?_
    exact (Laws.addr_and (frameAddr w) ▸ frameRow_iff w 1#1 0x7F#7 0x12#7).symm
  · refine (decodeFrame_mnemonic_iff hm w 1#1 .dioMapping _ (by simp)).trans ?_
    exact (Laws.addr_and (frameAddr w) ▸ frameRow_iff w 1#1 0x7F#7 0x40#7).symm
  · refine (decodeFrame_mnemonic_iff hm w 0#1 .version _ (by simp)).trans ?_
    exact (Laws.addr_and (frameAddr w) ▸ frameRow_iff w 0#1 0x7F#7 0x42#7).symm

/-- Settles O4: the mask tests are tests of the fields, and decoding is a test of the same fields. -/
theorem wordsMatchTheirRows : Obligations.WordsMatchTheirRows := by
  unfold Obligations.WordsMatchTheirRows
  refine ⟨fun w row hrow => ⟨row_of_decodesTo hrow, decodesTo_of_row hrow⟩,
    fun w row hrow row' hrow' => commandRows_disjoint hrow hrow', fun w => ?_, fun w => ?_,
    fun w row => frameRow_mnemonic_iff w⟩
  · exact (frameIsWrite_iff w).trans (writeBit_iff w 1#1).symm
  · exact (frameIsWrite_eq_false_iff w).trans (writeBit_iff w 0#1).symm

/-! ### Words and bytes written out -/

/-- Settles O1: each word's fields are computed. -/
theorem specWordsDecode : Obligations.SpecWordsDecode := by
  unfold Obligations.SpecWordsDecode
  decide

theorem writeAddrByte_eq (a : RegAddr) : writeAddrByte a = 0x80#8 ||| a.setWidth 8 := by revert a; decide

theorem readAddrByte_eq (a : RegAddr) : readAddrByte a = a.setWidth 8 := by revert a; decide

/-- Settles O5: the Sequencer's two bytes side by side are the frame, whose fields are its three parts. -/
theorem framesAreAddressThenData : Obligations.FramesAreAddressThenData := by
  unfold Obligations.FramesAreAddressThenData
  intro m a d
  have hw : writeAddrByte a ++ d = frameWord 1#1 a d := rfl
  have hr : readAddrByte a ++ d = frameWord 0#1 a d := rfl
  refine ⟨rfl, rfl, writeAddrByte_eq a, readAddrByte_eq a, ?_⟩
  rw [hw, hr]
  simp

end Sys2Proof
end

section
/-! Proofs about the core's arithmetic (41_synth.md section 1; 10_state.md R46; 44_rx_crc.md R174, R175): where the
synthesizer has a value and how close it is, the packed modem bytes, the conversions of RSSI and SNR. -/

namespace Sys2Proof.Machine

/-! ### The synthesizer's value -/

/-- The synthesizer's value, where the crystal is not 0 and the coefficient fits 24 bits (41_synth.md R122). -/
theorem synthesize?_eq_some {f c r : Nat} (hc : 0 < c) (h : frfNat f c r < 2 ^ 24) :
    synthesize? f c r = some (BitVec.ofNat 24 (frfNat f c r)) := by
  rw [synthesize?, if_neg (Nat.pos_iff_ne_zero.mp hc), if_pos h]

theorem synthesize?_isSome_iff {f c r : Nat} :
    (synthesize? f c r).isSome = true ↔ 0 < c ∧ frfNat f c r < 2 ^ 24 := by
  simp only [synthesize?]
  split
  · next hc => simp [hc]
  · next hc =>
    have hpos : 0 < c := Nat.pos_of_ne_zero hc
    split
    · next hlt => exact iff_of_true rfl ⟨hpos, hlt⟩
    · next hlt => exact iff_of_false (by simp) fun h => hlt h.2

/-- The value of a coefficient given as a 24-bit word. -/
theorem synthesize?_eq_some_iff {f c r : Nat} {n : BitVec 24} :
    synthesize? f c r = some n ↔ 0 < c ∧ frfNat f c r = n.toNat := by
  constructor
  · intro h
    obtain ⟨hc, hlt⟩ := synthesize?_isSome_iff.mp (by rw [h]; rfl)
    rw [synthesize?_eq_some hc hlt, Option.some.injEq] at h
    exact ⟨hc, by rw [← h, BitVec.toNat_ofNat, Nat.mod_eq_of_lt hlt]⟩
  · rintro ⟨hc, hn⟩
    rw [synthesize?_eq_some hc (hn ▸ n.isLt), hn, BitVec.ofNat_toNat, BitVec.setWidth_eq]

theorem synthesize?_eq_none_iff {f c r : Nat} :
    synthesize? f c r = none ↔ c = 0 ∨ 2 ^ 24 ≤ frfNat f c r := by
  rw [← Option.not_isSome_iff_eq_none, synthesize?_isSome_iff]
  omega

/-- At the reference parameters the coefficient fits up to 1 023 999 969 Hz. -/
theorem frfNat_reference_lt_iff {f : Nat} : frfNat f 32000000 19 < 2 ^ 24 ↔ f ≤ 1023999969 := by
  rw [frfNat, Nat.div_lt_iff_lt_mul (by decide)]
  omega

/-- A tie goes up (41_synth.md R124): half way between `k` and `k + 1` the coefficient is `k + 1`. -/
theorem frfNat_tie {f c r k : Nat} (hc : 0 < c) (h : 2 * f * 2 ^ r = (2 * k + 1) * c) : frfNat f c r = k + 1 := by
  have hnum : 2 * f * 2 ^ r + c = (k + 1) * (2 * c) := by rw [h]; ring
  rw [frfNat, hnum, Nat.mul_div_cancel _ (by omega)]

/-- Settles O19: the two guards of `synthesize?`, the bound solved for the frequency, and the parity of the reference
crystal: 32 000 000 is 2^11 times an odd number. -/
theorem synthesizerDomainAndTies : Obligations.SynthesizerDomainAndTies := by
  unfold Obligations.SynthesizerDomainAndTies
  refine ⟨fun f c r => synthesize?_isSome_iff, fun f => ?_, rfl, rfl, by norm_num, fun f c r k => frfNat_tie,
    fun f k => by omega⟩
  rw [synthesize?_isSome_iff, frfNat_reference_lt_iff]
  simp

/-! ### How close the coefficient is -/

/-- The coefficient is the nearest one: twice its carrier is within one crystal period of twice the scaled input. -/
theorem frfNat_bounds (f r : Nat) {c : Nat} (hc : 0 < c) :
    2 * c * frfNat f c r ≤ 2 * f * 2 ^ r + c ∧ 2 * f * 2 ^ r + c < 2 * c * frfNat f c r + 2 * c := by
  have h1 := Nat.div_add_mod (2 * f * 2 ^ r + c) (2 * c)
  have h2 := Nat.mod_lt (2 * f * 2 ^ r + c) (show 2 * c > 0 by omega)
  rw [← frfNat] at h1
  omega

/-- The recomputed carrier is within half a frequency step of the input (41_synth.md R125). -/
theorem frfNat_carrier_near (f r : Nat) {c : Nat} (hc : 0 < c) :
    |((frfNat f c r : Rat) * (c : Rat) / 2 ^ r) - (f : Rat)| ≤ (c : Rat) / 2 ^ (r + 1) := by
  obtain ⟨hlo, hhi⟩ := frfNat_bounds f r hc
  have hp : (0 : Rat) < 2 ^ r := by positivity
  have hlo' : 2 * (c : Rat) * frfNat f c r ≤ 2 * f * 2 ^ r + c := by exact_mod_cast hlo
  have hhi' : 2 * (f : Rat) * 2 ^ r + c < 2 * c * frfNat f c r + 2 * c := by exact_mod_cast hhi
  have hdiff : (frfNat f c r : Rat) * c / 2 ^ r - f = (2 * c * frfNat f c r - 2 * f * 2 ^ r) / 2 ^ (r + 1) := by
    rw [pow_succ]; field_simp
  rw [hdiff, abs_div, abs_of_pos (show (0 : Rat) < 2 ^ (r + 1) by positivity)]
  gcongr
  rw [abs_le]
  constructor <;> linarith

theorem frfNat_mono {f g : Nat} (c r : Nat) (h : f ≤ g) : frfNat f c r ≤ frfNat g c r := by
  simp only [frfNat]
  gcongr

/-- A frequency within half a hertz of a coefficient's carrier has that coefficient, when the step exceeds 1 Hz. -/
theorem frfNat_of_near {g c r n : Nat} (hstep : 2 ^ r < c) (h : |(g : Rat) - (n : Rat) * (c : Rat) / 2 ^ r| ≤ 1 / 2) :
    frfNat g c r = n := by
  have hp : (0 : Rat) < 2 ^ r := by positivity
  have hscaled : |2 * (g : Rat) * 2 ^ r - 2 * n * c| ≤ 2 ^ r := by
    have heq : 2 * (g : Rat) * 2 ^ r - 2 * n * c = (g - n * c / 2 ^ r) * (2 * 2 ^ r) := by field_simp
    rw [heq, abs_mul, abs_of_pos (show (0 : Rat) < 2 * 2 ^ r by positivity)]
    calc |(g : Rat) - n * c / 2 ^ r| * (2 * 2 ^ r) ≤ 1 / 2 * (2 * 2 ^ r) := by gcongr
      _ = 2 ^ r := by ring
  obtain ⟨hlo, hhi⟩ := abs_le.mp hscaled
  have hlo' : 2 * n * c ≤ 2 * g * 2 ^ r + 2 ^ r := by exact_mod_cast (by linarith : 2 * (n : Rat) * c ≤ 2 * g * 2 ^ r + 2 ^ r)
  have hhi' : 2 * g * 2 ^ r ≤ 2 * n * c + 2 ^ r := by exact_mod_cast (by linarith : 2 * (g : Rat) * 2 ^ r ≤ 2 * n * c + 2 ^ r)
  apply Nat.div_eq_of_lt_le <;> linarith

/-- Settles O20: the coefficient is a rounded division, so it is near, monotone, and found again from near its carrier. -/
theorem synthesizerRoundTrip : Obligations.SynthesizerRoundTrip := by
  unfold Obligations.SynthesizerRoundTrip
  exact ⟨fun f c r hc => frfNat_carrier_near f r hc, fun f g c r h => frfNat_mono c r h,
    fun f g c r hstep h => frfNat_of_near hstep h⟩

/-! ### Packed bytes and conversions -/

/-- The first modem-config byte: the bandwidth code, the coding rate less 4, and a 0 (10_state.md R46). -/
theorem modemConfig1Byte_fields (code cr : BitVec 4) (h5 : 5 ≤ cr.toNat) (h8 : cr.toNat ≤ 8) :
    (modemConfig1Byte code cr).extractLsb' 4 4 = code ∧
    ((modemConfig1Byte code cr).extractLsb' 1 3).toNat = cr.toNat - 4 ∧
      (modemConfig1Byte code cr).getLsbD 0 = false := by
  revert code cr; decide

/-- The second modem-config byte: the spreading factor, the CRC flag, and zeros (10_state.md R46). -/
theorem modemConfig2Byte_fields (sf : BitVec 4) (crc : Bool) :
    (modemConfig2Byte sf crc).extractLsb' 4 4 = sf ∧ (modemConfig2Byte sf crc).getLsbD 3 = false ∧
    (modemConfig2Byte sf crc).getLsbD 2 = crc ∧ (modemConfig2Byte sf crc).extractLsb' 0 2 = 0#2 := by
  revert sf crc; decide

/-- Settles O22: each byte has its fields, whatever the other byte holds. -/
theorem modemConfigBytesHoldTheirFields : Obligations.ModemConfigBytesHoldTheirFields := by
  unfold Obligations.ModemConfigBytesHoldTheirFields
  intro code cr sf crc h5 h8
  obtain ⟨hcode, hcr, hzero⟩ := modemConfig1Byte_fields code cr h5 h8
  exact ⟨hcode, hcr, hzero, modemConfig2Byte_fields sf crc⟩

/-- 16 bits hold the RSSI of every byte (44_rx_crc.md R174). -/
theorem rssiDbmOf_toInt (b : Byte) : (rssiDbmOf b).toInt = (b.toNat : Int) - 157 := by
  have hb := b.isLt
  rw [rssiDbmOf, Config.rssiOffset, BitVec.toInt_ofInt]
  exact Int.bmod_eq_of_le (by omega) (by omega)

/-- Settles O23: RSSI does not wrap in 16 bits, SNR is the byte's two's complement. -/
theorem signalConversionsAreExact : Obligations.SignalConversionsAreExact := by
  unfold Obligations.SignalConversionsAreExact
  intro b
  refine ⟨rssiDbmOf_toInt b, ?_, by simp [snrDb, Config.snrDiv]⟩
  have hb := b.isLt
  rw [snrQOf, BitVec.toInt_eq_toNat_cond]
  split <;> split <;> omega

end Sys2Proof.Machine
end

section
/-! Proofs about the bus-frame rows (10_state.md section 5; 20_memory.md section 2): what each does at the chip, with a
chip attached and without, and the write frames that have no meaning. -/

namespace Sys2Proof.Machine

/-! ### A stored register -/

/-- A store leaves every other register's value, but for the FIFO window and its pointer. -/
theorem Chip.value_store_other (cfg : Cfg) {r r' : Reg} (v : Byte) (c : Chip) (h : r' ≠ r) (hf : r' ≠ .fifo)
    (hp : r' ≠ .fifoAddrPtr) : (c.store r v).value cfg r' = c.value cfg r' := by
  cases r' <;> first | contradiction | (cases r <;> first | contradiction | rfl)

/-- A plain register holds the byte stored (20_memory.md R62). -/
theorem Chip.value_store_same (cfg : Cfg) {r : Reg} (v : Byte) (c : Chip) (ho : r ≠ .opMode) (hf : r ≠ .fifo)
    (hi : r ≠ .irqFlags) (hr : r.isReadOnly = false) : (c.store r v).value cfg r = v := by
  cases r <;> first | contradiction | rfl

/-- A read-only register ignores the write (U6). -/
theorem Chip.store_readOnly {r : Reg} (v : Byte) (c : Chip) (h : r.isReadOnly = true) : c.store r v = c := by
  cases r <;> first | rfl | cases h

theorem Chip.store_fifo {r : Reg} (v : Byte) (c : Chip) (h : r ≠ .fifo) : (c.store r v).fifo = c.fifo := by
  cases r <;> first | contradiction | rfl

theorem Chip.store_fifoAddrPtr {r : Reg} (v : Byte) (c : Chip) (h : r ≠ .fifo) (h' : r ≠ .fifoAddrPtr) :
    (c.store r v).fifoAddrPtr = c.fifoAddrPtr := by
  cases r <;> first | contradiction | rfl

@[simp] theorem Chip.store_rxwp (r : Reg) (v : Byte) (c : Chip) : (c.store r v).rxwp = c.rxwp := by cases r <;> rfl

@[simp] theorem Chip.store_txPending (r : Reg) (v : Byte) (c : Chip) : (c.store r v).txPending = c.txPending := by
  cases r <;> rfl

/-- Only a store of the flags register changes a flag. -/
theorem Chip.store_irqFlags {r : Reg} (v : Byte) (c : Chip) (h : r ≠ .irqFlags) :
    (c.store r v).irqFlags = c.irqFlags := by
  cases r <;> first | contradiction | rfl

/-! ### Frames as outcomes -/

/-- A write row at a register of an attached chip that takes it. -/
theorem frameOutcome_write {s : State} {r : Reg} {v : Byte} {c : Chip} (hwf : s.cfg.wf = true)
    (hp : s.cfg.chipPresent = true) (hw : s.chip.write s.cfg s.free r v = .ok c) :
    frameOutcome (writeAddrByte (s.cfg.map.addr r)) v s =
      .next { s with chip := c, csN := true, busLog := s.busLog ++ [wrote s.cfg r v], free := s.free + 1 } := by
  rw [frameOutcome, transact_write_reg v hp (RegMap.lookup_addr (Cfg.wf_map hwf) r) hw]
  rfl

/-- A read row at a register of an attached chip. -/
theorem frameOutcome_read {s : State} (r : Reg) (v : Byte) (hwf : s.cfg.wf = true) (hp : s.cfg.chipPresent = true) :
    frameOutcome (readAddrByte (s.cfg.map.addr r)) v s =
      .next { s with chip := s.chip.afterRead r, csN := true,
                     busLog := s.busLog ++ [didRead s.cfg r (s.chip.value s.cfg r)] } := by
  rw [frameOutcome, transact_read_reg v hp (RegMap.lookup_addr (Cfg.wf_map hwf) r)]
  rfl

/-- A write row with no chip attached (log 12). -/
theorem frameOutcome_write_absent {s : State} (a : RegAddr) (v : Byte) (hp : s.cfg.chipPresent = false) :
    frameOutcome (writeAddrByte a) v s = .next { s with csN := true, busLog := s.busLog ++ [⟨true, a, v⟩] } := by
  rw [frameOutcome, transact_write_absent a v hp]

/-- A read row whose answer is a free byte: at an address outside the map, or with no chip attached at any address but
the version register's (10_state.md R50; log 12). -/
theorem frameOutcome_read_free {s : State} {a : RegAddr} (v : Byte)
    (h : s.cfg.map.lookup a = none ∨ s.cfg.chipPresent = false ∧ s.cfg.map.lookup a ≠ some .version) :
    frameOutcome (readAddrByte a) v s =
      .next { s with csN := true, busLog := s.busLog ++ [⟨false, a, Config.freeByte s.free⟩], free := s.free + 1 } := by
  rcases h with hl | ⟨hp, hl⟩
  · simp [frameOutcome, transact, exchange_read, answerRead, hl]
  · simp [frameOutcome, transact, exchange_read, answerRead, hl, hp]

/-- A write frame the chip gives no meaning is refused with its reason. -/
theorem answerWrite_refused {s : State} {a : RegAddr} {v : Byte} {e : Refusal} (hp : s.cfg.chipPresent = true)
    (h : s.cfg.map.lookup a = none ∧ e = .unmappedWrite ∨
      ∃ r, s.cfg.map.lookup a = some r ∧ s.chip.write s.cfg s.free r v = .error e) :
    answerWrite a v s = .error e := by
  rcases h with ⟨hl, rfl⟩ | ⟨r, hl, hw⟩
  · simp [answerWrite, hp, hl]
  · simp [answerWrite, hp, hl, hw]

theorem frameOutcome_refused {s : State} {a : RegAddr} {v : Byte} {e : Refusal} (h : answerWrite a v s = .error e) :
    frameOutcome (writeAddrByte a) v s = .refused e := by
  simp [frameOutcome, transact, exchange_write, answerWrite_csN, h, Except.map]

/-! ### The rows -/

/-- A register without a write row of its own is stored by BUS.WRITE, a configuration register in Sleep. -/
theorem Chip.write_generic {cfg : Cfg} {k : Nat} {r : Reg} {v : Byte} {c : Chip} (hrow : hasWriteRow r = false)
    (hcfg : r.isCfg = true → c.mode = .sleep) : c.write cfg k r v = .ok (c.store r v) := by
  have ho : r ≠ .opMode := by rintro rfl; cases hrow
  cases hc : r.isCfg with
  | true => exact Chip.write_cfg cfg k r v c hc (hcfg hc)
  | false => exact Chip.write_plain cfg k r v c ho hc

/-- Settles O38: the chip stores the byte in one register; with no chip attached nothing answers. -/
theorem busWriteStoresTheByte : Obligations.BusWriteStoresTheByte := by
  unfold Obligations.BusWriteStoresTheByte
  constructor
  · intro s r d hwf hp hrow hcfg
    have ho : r ≠ .opMode := by rintro rfl; cases hrow
    have hf : r ≠ .fifo := by rintro rfl; cases hrow
    have hptr : r ≠ .fifoAddrPtr := by rintro rfl; cases hrow
    have hi : r ≠ .irqFlags := by rintro rfl; cases hrow
    have hfifo := s.chip.store_fifo d hf
    have hfptr := s.chip.store_fifoAddrPtr d hf hptr
    refine ⟨s.chip.store r d, frameOutcome_write hwf hp (Chip.write_generic hrow hcfg), ?_, fun r' hr' => ?_, hfifo,
      (Chip.store_mode r d s.chip).1, hfptr, Chip.store_rxwp r d s.chip, Chip.store_txPending r d s.chip⟩
    · split
      · next hro => rw [Chip.store_readOnly d _ hro]
      · next hro => exact Chip.value_store_same s.cfg d _ ho hf hi (by simpa using hro)
    · by_cases h1 : r' = .fifo
      · subst h1; simp only [Chip.value, hfifo, hfptr]
      · by_cases h2 : r' = .fifoAddrPtr
        · subst h2; exact hfptr
        · exact Chip.value_store_other s.cfg d _ hr' h1 h2
  · intro s d hp
    refine ⟨fun a => frameOutcome_write_absent a d hp, ?_⟩
    simp only [List.forall_mem_cons, List.not_mem_nil, false_imp_iff, implies_true, and_true]
    exact ⟨frameOutcome_write_absent _ d hp, frameOutcome_write_absent _ d hp, frameOutcome_write_absent _ d hp,
      frameOutcome_write_absent _ d hp, frameOutcome_write_absent _ d hp⟩

/-- Settles O39: a read frame records what the far end answers; only a read of the FIFO moves anything. -/
theorem busReadReturnsTheByte : Obligations.BusReadReturnsTheByte := by
  unfold Obligations.BusReadReturnsTheByte
  refine ⟨fun s r d hwf hp hrow => ?_, fun s a d hl => ⟨_, frameOutcome_read_free d (.inl hl)⟩,
    fun s a d hp hl => ⟨_, frameOutcome_read_free d (.inr ⟨hp, hl⟩)⟩, fun s d hwf hp => ?_⟩
  · have hf : r ≠ .fifo := by rintro rfl; cases hrow
    have hc : s.chip.afterRead r = s.chip := if_neg hf
    exact (frameOutcome_read r d hwf hp).trans (by rw [hc])
  · have hl : s.cfg.map.lookup (s.cfg.map.addr .fifo) ≠ some .version := by
      rw [RegMap.lookup_addr (Cfg.wf_map hwf)]; decide
    exact ⟨Config.freeByte s.free, frameOutcome_read_free d (.inr ⟨hp, hl⟩)⟩

/-- Settles O40: the store and the read at the pointer, and the pointer as an 8-bit counter. -/
theorem fifoAccessMovesThePointer : Obligations.FifoAccessMovesThePointer := by
  unfold Obligations.FifoAccessMovesThePointer
  refine ⟨fun s d hwf hp => ?_, fun s d hwf hp => frameOutcome_read .fifo d hwf hp, rfl,
    fun p => BitVec.toNat_add p 1#8⟩
  have hw : s.chip.write s.cfg s.free .fifo d = .ok (s.chip.store .fifo d) :=
    Chip.write_plain s.cfg s.free .fifo d s.chip (by decide) rfl
  exact ⟨_, frameOutcome_write hwf hp hw, Mem.read_write_same _ _ _, fun a ha => Mem.read_write_other _ _ a d ha⟩

/-- The mode register's byte is its two parts (10_state.md R34). -/
theorem opMode_byte_parts (d : Byte) : d.extractLsb' 3 5 ++ d.extractLsb' 0 3 = d := by revert d; decide

/-- A mode write whose mode field is a mode's code, the long-range bit kept or the chip in Sleep. -/
theorem Chip.writeOpMode_legal {cfg : Cfg} {k : Nat} {d : Byte} {m : Mode} {c : Chip} (hwf : cfg.wf = true)
    (hd : d.extractLsb' 0 3 = cfg.modeCodes.code m) (hl : c.mode = .sleep ∨ d.getLsbD cfg.loraBit = c.lora cfg) :
    c.write cfg k .opMode d = .ok (c.enterMode k m (d.extractLsb' 3 5)) := by
  have hcond : ¬ (c.mode ≠ .sleep ∧ d.getLsbD cfg.loraBit ≠ c.lora cfg) := by tauto
  rw [Chip.write_opMode, Chip.writeOpMode, hd, ModeCodes.mode?_code (Cfg.wf_codes hwf)]
  exact if_neg hcond

/-- Settles O41: the chip enters the mode the byte names, and the byte is what the register reads as. -/
theorem modeWriteHasItsEffects : Obligations.ModeWriteHasItsEffects := by
  unfold Obligations.ModeWriteHasItsEffects
  intro s d m hwf hp hd hl
  refine ⟨_, frameOutcome_write hwf hp (Chip.writeOpMode_legal hwf hd hl), fun hm => if_neg hm, ?_⟩
  rw [Chip.opModeByte, ← hd]
  exact opMode_byte_parts d

/-- Settles O42: each is a store of one register. -/
theorem pointerFlagAndMappingWrites : Obligations.PointerFlagAndMappingWrites := by
  unfold Obligations.PointerFlagAndMappingWrites
  intro s d hwf hp
  have hw (r : Reg) (ho : r ≠ .opMode) (hc : r.isCfg = false) := Chip.write_plain s.cfg s.free r d s.chip ho hc
  exact ⟨frameOutcome_write hwf hp (hw .fifoAddrPtr (by decide) rfl),
    frameOutcome_write hwf hp (hw .irqFlags (by decide) rfl),
    frameOutcome_write hwf hp (hw .dioMapping (by decide) rfl)⟩

/-- Settles O43: the version register answers the same whatever is attached. -/
theorem versionReadReturnsTheConstant : Obligations.VersionReadReturnsTheConstant := by
  unfold Obligations.VersionReadReturnsTheConstant
  intro s d hwf
  cases hp : s.cfg.chipPresent with
  | true => exact frameOutcome_read .version d hwf hp
  | false =>
    have hl := RegMap.lookup_addr (Cfg.wf_map hwf) .version
    simp [exec, execBusReadVersion, frameOutcome, transact, exchange_read, answerRead, hp, hl, didRead]

/-! ### Frames without a meaning -/

/-- A configuration register is not written outside Sleep (U1). -/
theorem Chip.write_cfg_refused {cfg : Cfg} {k : Nat} {r : Reg} {v : Byte} {c : Chip} (hr : r.isCfg = true)
    (hm : c.mode ≠ .sleep) : c.write cfg k r v = .error .cfgWriteOutsideSleep := by
  have ho : r ≠ .opMode := by rintro rfl; cases hr
  rw [Chip.write, if_neg ho, if_pos ⟨hr, hm⟩]

/-- A field that is no mode's code stands for no mode (U3). -/
theorem mode?_reserved {c : ModeCodes} {v : BitVec 3} (h : ∀ m, v ≠ c.code m) : c.mode? v = none := by
  have h1 := h .sleep
  have h2 := h .standby
  have h3 := h .tx
  have h4 := h .rxContinuous
  simp only [ModeCodes.code] at h1 h2 h3 h4
  simp [ModeCodes.mode?, h1, h2, h3, h4]

end Sys2Proof.Machine
end

section
/-! Proofs about the Radio, the interrupt line and the Host (45_chip_events.md; 60_exceptions.md section 2; 10_state.md
R27): what each event does, when none happens, and which inputs the idle core takes from the Host. -/

namespace Sys2Proof.Machine

/-! ### Flags and runs of bytes -/

/-- Setting a flag sets that bit and no other (45_chip_events.md R186). -/
theorem irqSet_getLsbD (v : Byte) (bit : Nat) {b : Nat} (hb : b < 8) :
    (irqSet v bit).getLsbD b = (decide (b = bit) || v.getLsbD b) := by
  by_cases h : b = bit
  · subst h; simp [irqSet, hb]
  · simp [irqSet, BitVec.getLsbD_or, BitVec.getLsbD_twoPow, h, Ne.symm h]

/-- A run is its bytes in order, at indexes modulo 256. -/
theorem Mem.readRun_eq_map (m : Mem) (start : Byte) (n : Nat) :
    m.readRun start n = (List.range n).map fun i => m.read (start + BitVec.ofNat 8 i).toNat := by
  refine List.ext_getElem (by simp [Mem.length_readRun]) fun i h1 h2 => ?_
  rw [Mem.getElem_readRun]
  simp

/-! ### Enabled and disabled events -/

theorem radioStep_disabled {e : RadioEvent} {s : State} (h : radioEnabled e s = false) : radioStep e s = s := by
  simp [radioStep, h]

theorem radioStep_txDone {s : State} (h : radioEnabled .txDone s = true) : radioStep .txDone s = radioTxDone s := by
  simp [radioStep, h]

theorem radioStep_rxPacket {data : List Byte} {rssi snr : Byte} {bad : Bool} {s : State}
    (h : radioEnabled (.rxPacket data rssi snr bad) s = true) :
    radioStep (.rxPacket data rssi snr bad) s = radioRxPacket data rssi snr bad s := by
  simp [radioStep, h]

theorem radioStep_irqOther {m : Byte} {s : State} (h : radioEnabled (.irqOther m) s = true) :
    radioStep (.irqOther m) s = radioIrqOther m s := by
  simp [radioStep, h]

section
variable {s : State} (hp : s.cfg.chipPresent = true) (hr : s.resetN = true) (hres : s.phase.inReset = false)
include hp hr hres

/-- Outside the reset pulse, with a chip attached, the guards of the events are their own (45_chip_events.md R186 to
R188). -/
theorem txDone_enabled_iff :
    radioEnabled .txDone s = true ↔ s.chip.mode = .tx ∧ s.chip.txPending = true := by
  simp [radioEnabled, hp, hr, hres]

theorem rxPacket_enabled_iff {data : List Byte} {rssi snr : Byte} {bad : Bool} :
    radioEnabled (.rxPacket data rssi snr bad) s = true ↔
      s.chip.mode = .rxContinuous ∧ data.length ≤ Config.maxPayload := by
  simp [radioEnabled, hp, hr, hres]

theorem irqOther_enabled_iff {m : Byte} :
    radioEnabled (.irqOther m) s = true ↔ m.getLsbD s.cfg.irqBits.txDone = false ∧
      m.getLsbD s.cfg.irqBits.payloadCrcError = false ∧ m.getLsbD s.cfg.irqBits.rxDone = false := by
  simp [radioEnabled, hp, hr, hres, irqUnnamed, irqHas, and_assoc]

end

/-- Settles O45: the packet on air is the run from the TX base, and one flag is set. -/
theorem txDoneEvent : Obligations.TxDoneEvent := by
  unfold Obligations.TxDoneEvent
  intro s hp hr hres
  have hiff := txDone_enabled_iff hp hr hres
  constructor
  · intro h
    refine ⟨irqSet s.chip.irqFlags s.cfg.irqBits.txDone, ?_, fun b hb => irqSet_getLsbD _ _ hb⟩
    rw [radioStep_txDone (hiff.mpr h), radioTxDone, onAir, Mem.readRun_eq_map]
  · exact fun h => radioStep_disabled (by simpa using fun he => h (hiff.mp he))

/-- Settles O46: the packet is a stored run of at most 255 bytes, and one or two flags are set. -/
theorem rxPacketEvent : Obligations.RxPacketEvent := by
  unfold Obligations.RxPacketEvent
  intro s data rssi snr bad hp hr hres hlen
  have hiff := rxPacket_enabled_iff hp hr hres (data := data) (rssi := rssi) (snr := snr) (bad := bad)
  constructor
  · intro h
    refine ⟨_, _, radioStep_rxPacket (hiff.mpr ⟨h, hlen⟩),
      fun i hi => Mem.read_storeRun _ _ _ (by omega) i hi, fun x hx => Mem.read_storeRun_other _ _ _ x hx,
      fun b hb => ?_⟩
    cases bad
    · simp [irqSet_getLsbD _ _ hb]
    · simp only [if_true, irqSet_getLsbD _ _ hb, Bool.true_and]
      rw [← Bool.or_assoc, Bool.or_comm (decide _) (decide _)]
  · exact fun h => radioStep_disabled (by simpa using fun he => h (hiff.mp he).1)

/-- Settles O47: the event's own guard is that its byte has no named flag. -/
theorem otherIrqEvent : Obligations.OtherIrqEvent := by
  unfold Obligations.OtherIrqEvent
  intro s m hp hr hres
  have hiff := irqOther_enabled_iff hp hr hres (m := m)
  constructor
  · intro ht hx hc
    rw [radioStep_irqOther (hiff.mpr ⟨ht, hc, hx⟩), radioIrqOther]
  · intro h
    refine radioStep_disabled (Bool.eq_false_iff.mpr fun he => ?_)
    obtain ⟨ht, hc, hx⟩ := hiff.mp he
    rcases h with h | h | h
    · simp [ht] at h
    · simp [hx] at h
    · simp [hc] at h

/-! ### What no event changes -/

/-- A Radio step changes the chip and TXLOG only. -/
theorem radioStep_eq (e : RadioEvent) (s : State) :
    radioStep e s = { s with chip := (radioStep e s).chip, txLog := (radioStep e s).txLog } := by
  simp only [radioStep]
  split
  · cases e <;> rfl
  · rfl

/-- No event changes a configuration register. -/
theorem radioStep_value_cfg (e : RadioEvent) (s : State) (cfg : Cfg) {r : Reg} (h : r.isCfg = true) :
    (radioStep e s).chip.value cfg r = s.chip.value cfg r := by
  cases r <;> first | (cases h; done) | simp [Chip.value]

/-- No event clears a flag. -/
theorem radioStep_keeps_flag (e : RadioEvent) (s : State) {b : Nat} (h : s.chip.irqFlags.getLsbD b = true) :
    (radioStep e s).chip.irqFlags.getLsbD b = true := by
  have hset (v : Byte) (bit : Nat) (hv : v.getLsbD b = true) : (irqSet v bit).getLsbD b = true := by
    simp [irqSet, BitVec.getLsbD_or, hv]
  simp only [radioStep]
  split
  · cases e with
    | txDone => exact hset _ _ h
    | rxPacket data rssi snr bad =>
      simp only [radioRxPacket]
      split
      · exact hset _ _ (hset _ _ h)
      · exact hset _ _ h
    | irqOther m => simp [radioIrqOther, BitVec.getLsbD_or, h]
  · exact h

/-! ### The interrupt line and the Host -/

/-- Settles O49: the selector picks the flag, or the sample. -/
theorem dioFollowsTheMappedFlag : Obligations.DioFollowsTheMappedFlag := by
  unfold Obligations.DioFollowsTheMappedFlag
  intro d s hp
  refine ⟨fun h => ?_, fun h => ?_, fun h => ?_⟩
  · simp [dioLevel, hp, dioSelect, h, irqHas]
  · simp [dioLevel, hp, dioSelect, h, irqHas]
  · rcases h with h | h <;> simp [dioLevel, hp, dioSelect, h]

/-- Settles O51: a busy step refuses a Host write in its draw, an idle one takes it as its input. -/
theorem hostWritesOnlyWhileIdle : Obligations.HostWritesOnlyWhileIdle := by
  unfold Obligations.HostWritesOnlyWhileIdle
  refine ⟨fun s hb hw => by rw [step_busy hb, microStep, if_neg hw], fun s rest hid => ?_⟩
  have htake (h : HostWrite) :
      step { s with inbox := .hostWrite h :: rest } = State.hostWrite h { s with inbox := rest } :=
    step_input (s := { s with inbox := .hostWrite h :: rest }) hid rfl
  refine ⟨fun v => htake _, fun v => htake _, fun v => htake _, fun v => htake _, fun v => htake _,
    fun v => htake _, fun v => htake _, fun i v hi => ?_, fun v => htake _⟩
  have hlt : i.toNat < Config.maxPayload := by
    have := i.isLt
    have hne : i.toNat ≠ 255 := fun h => hi (BitVec.eq_of_toNat_eq h)
    simp only [Config.maxPayload]; omega
  exact ⟨_, (htake _).trans (if_pos hlt), Mem.read_write_same _ _ _, fun j hj => Mem.read_write_other _ _ j v hj⟩

/-! ### Micro-steps without a frame -/

/-- Settles O34: P4 is a jump by the verdict on the byte it holds. -/
theorem crcValidatorDecides : Obligations.CrcValidatorDecides := by
  unfold Obligations.CrcValidatorDecides
  intro s v hph hq
  rw [microStep_eq hq]
  simp only [perform, State.afterRadio_phase, hph, pollTest]
  exact ⟨_, rfl, by simp [crcVerdict, irqHas], by simp, by simp⟩

/-- Inside the reset pulse a micro-step starts from the state itself: no event happens there (42_mode.md R132). -/
theorem State.afterRadio_inReset {s : State} (h : s.phase.inReset = true) :
    s.afterRadio = { s with env := s.env.tail } :=
  radioSteps_disabled _ (.inl h)

/-- Settles O27: the micro-step of the assertion as CONFIGURE's list has it, and no Radio step until the first frame. -/
theorem resetPulseResetsTheChip : Obligations.ResetPulseResetsTheChip := by
  unfold Obligations.ResetPulseResetsTheChip
  refine ⟨fun s ws hph hq => ?_, fun s ws hq => ⟨fun hph => ?_, fun hph => ?_, fun hph => ?_⟩, fun s ws es hph => ?_⟩
  · rw [microStep_eq hq]
    simp only [perform, State.afterRadio_phase, hph, cfgResetLow]
    refine ⟨_, rfl, rfl, rfl, rfl, fun hp => by simp [hp, Chip.hardReset], fun hp => ?_,
      ⟨by simp, by simp, by simp, by simp⟩, by simp, by simp, by simp, by simp, by simp, by simp, by simp, ?_⟩
    · have hno : radioSteps s.nextDraw.events s = s := radioSteps_disabled _ (.inr (.inr hp))
      simp [hp, State.afterRadio_chip, hno]
    · exact s.afterRadio_txLog
  · rw [microStep_eq hq, State.afterRadio_inReset (by rw [hph]; rfl)]
    simp only [perform, hph]
    rfl
  · rw [microStep_eq hq, State.afterRadio_inReset (by rw [hph]; rfl)]
    simp only [perform, hph]
    rfl
  · rw [microStep_eq hq, State.afterRadio_inReset (by rw [hph]; rfl)]
    simp only [perform, hph]
    rfl
  · refine radioSteps_disabled es (.inl ?_)
    rcases hph with hph | hph | hph | hph <;> rw [hph] <;> rfl

end Sys2Proof.Machine
end

section
/-! The bus frame of a micro-step (10_state.md R29): which frame each position sends, that a micro-step is its frame and
what follows it, and the obligations that rest on it: what can be refused (70_reset_and_hazards.md section 3), what can
change the mode (42_mode.md R137), what can clear a flag (45_chip_events.md R185). -/

namespace Sys2Proof.Machine

/-! ### The frame a position sends -/

/-- A bus frame of the Sequencer: a write of a byte, or a read (40_regbus.md R110, R111). -/
inductive Frame
  | write (a : RegAddr) (v : Byte)
  | read (a : RegAddr)

/-- The frame sent with a draw. -/
def Frame.send (d : Draw) (s : State) : Frame → FrameResult
  | .write a v => memWrite d a v s
  | .read a => memRead d a s

/-- The frame of `SetMode` micro-step a (42_mode.md R136). -/
def Frame.mode (c : Cfg) (m : Mode) : Frame := .write (c.map.addr .opMode) (modeByte c m)

/-- The frame the next micro-step sends, if it sends one. The configuration writes are guarded by the record
(42_mode.md R134). -/
def State.frame? (s : State) : Option Frame :=
  match s.phase with
  | .rdregFrame a => some (.read a)
  | .wrregFrame a v => some (.write a v)
  | .cfgWrites (w :: _) => if s.mode = .sleep then some (.write (s.cfg.map.addr w.1) w.2) else none
  | .cfgIdentify => some (.read (s.cfg.map.addr .version))
  | .sendPointer _ => some (.write (s.cfg.map.addr .fifoAddrPtr) s.cfg.txBase)
  | .sendPayload _ i => some (.write (s.cfg.map.addr .fifo) (s.txBuf.read i))
  | .sendLength n => some (.write (s.cfg.map.addr .payloadLength) n)
  | .sendMap => some (.write (s.cfg.map.addr .dioMapping) s.cfg.mapTxDone)
  | .pollMap _ => some (.write (s.cfg.map.addr .dioMapping) s.cfg.mapRxDone)
  | .sendReadIrq | .pollReadIrq => some (.read (s.cfg.map.addr .irqFlags))
  | .sendAckIrq v | .pollAckIrq v => some (.write (s.cfg.map.addr .irqFlags) v)
  | .pollReadCurrent => some (.read (s.cfg.map.addr .fifoRxCurrent))
  | .pollPointer a => some (.write (s.cfg.map.addr .fifoAddrPtr) a)
  | .pollReadCount => some (.read (s.cfg.map.addr .rxNbBytes))
  | .pollReadout _ _ => some (.read (s.cfg.map.addr .fifo))
  | .pollReadRssi _ => some (.read (s.cfg.map.addr .pktRssi))
  | .pollReadSnr _ _ => some (.read (s.cfg.map.addr .pktSnr))
  | .cfgSleep _ => some (.mode s.cfg .sleep)
  | .cfgStandby | .sendStandby _ | .sendRestore _ => some (.mode s.cfg .standby)
  | .setmodeFrame m => some (.mode s.cfg m)
  | .sendTx => some (.mode s.cfg .tx)
  | .pollArm _ | .pollRearm _ => some (.mode s.cfg .rxContinuous)
  | .idle | .rdregEnd _ | .wrregGuard _ _ | .wrregEnd | .synthEval | .synthEnd _ | .cfgValidate | .cfgResetLow _
  | .cfgDelayLow _ | .cfgResetHigh _ | .cfgDelayHigh _ | .cfgSleepSettle _ | .cfgWrites [] | .cfgStandbySettle | .cfgEnd
  | .setmodeSettle | .setmodeEnd | .sendStandbySettle _ | .sendTxSettle | .sendWait | .sendRestoreSettle _ | .sendEnd _
  | .pollArmSettle _ | .pollWait _ | .pollTest _ | .pollPacket _ _ _ | .pollRearmSettle _ | .pollEnd _ => none

/-- What a micro-step makes of its frame's result: it goes on with the chip as the frame left it, or it is refused with
the frame. -/
inductive FrameOutcome : FrameResult → Outcome → Prop
  | next {f : FrameResult} {t : State} (h : FrameEffect f t) : FrameOutcome f (.next t)
  | refused (r : Refusal) : FrameOutcome (.refused r) (.refused r)

theorem FrameOutcome.effect {f : FrameResult} {t : State} (h : FrameOutcome f (.next t)) : FrameEffect f t := by
  cases h; assumption

theorem FrameOutcome.of_refused {f : FrameResult} {r : Refusal} (h : FrameOutcome f (.refused r)) :
    f = .refused r := by
  cases h; rfl

theorem FrameOutcome.not_fault {f : FrameResult} {e : Fault} : ¬ FrameOutcome f (.fault e) := nofun

theorem andThen_frameOutcome (f : FrameResult) {k : Byte → State → Outcome}
    (hk : ∀ v u, ∃ t, k v u = .next t ∧ t.chip = u.chip) : FrameOutcome f (f.andThen k) := by
  cases f with
  | done v u =>
    obtain ⟨t, ht, hc⟩ := hk v u
    rw [FrameResult.andThen_done, ht]
    exact .next (.done hc)
  | failed u => exact .next (.failed u.rdata u.free)
  | refused r => exact .refused r

/-- A frame and a jump. -/
theorem andThen_jump_frameOutcome (f : FrameResult) {k : Byte → State → State} (hk : ∀ v u, (k v u).chip = u.chip) :
    FrameOutcome f (f.andThen fun v u => .next (k v u)) :=
  andThen_frameOutcome f fun v u => ⟨_, rfl, hk v u⟩

theorem rdregFrame_frameOutcome (d : Draw) (a : RegAddr) (s : State) :
    FrameOutcome (memRead d a s) (rdregFrame d a s) := by
  simp only [rdregFrame]
  cases memRead d a s with
  | done v u => exact .next (.done rfl)
  | failed u => exact .next (.failed _ _)
  | refused r => exact .refused r

/-- A micro-step with a frame is that frame and what follows it. -/
theorem perform_frame {s : State} {f : Frame} (d : Draw) (hf : s.frame? = some f) :
    FrameOutcome (f.send d s) (perform d s) := by
  cases hp : s.phase <;> simp only [State.frame?, hp] at hf <;>
    simp only [perform, hp]
  case rdregFrame a => cases hf; exact rdregFrame_frameOutcome d a s
  case cfgWrites ws =>
    cases ws with
    | nil => cases hf
    | cons w rest =>
      simp only at hf
      split at hf
      · next hm =>
        cases hf
        simp only [cfgWrite, hm, ne_eq, not_true_eq_false, if_false]
        exact andThen_jump_frameOutcome _ fun _ _ => rfl
      · cases hf
  case cfgIdentify =>
    cases hf
    refine andThen_frameOutcome _ fun v u => ?_
    split
    · exact ⟨_, rfl, rfl⟩
    · exact ⟨_, rfl, rfl⟩
  all_goals cases hf
  all_goals exact andThen_jump_frameOutcome _ fun _ _ => rfl

/-- A micro-step without a frame has a next state, and leaves the chip alone unless it asserts RESET_N. -/
theorem perform_local {s : State} (d : Draw) (hf : s.frame? = none) :
    ∃ t, perform d s = .next t ∧ (s.phase.assertsReset = false → t.chip = s.chip) := by
  cases hp : s.phase <;> simp only [State.frame?, hp] at hf <;>
    simp only [perform, hp]
  case cfgWrites ws =>
    cases ws with
    | nil => exact ⟨_, rfl, fun _ => rfl⟩
    | cons w rest =>
      simp only at hf
      split at hf
      · cases hf
      · next hm => exact ⟨_, if_pos hm, fun _ => rfl⟩
  case cfgResetLow ws => exact ⟨_, rfl, fun h => by cases h⟩
  case wrregGuard a v =>
    simp only [wrregGuard]
    split
    · exact ⟨_, rfl, fun _ => rfl⟩
    · split <;> exact ⟨_, rfl, fun _ => rfl⟩
  case synthEval => simp only [synthEval]; split <;> exact ⟨_, rfl, fun _ => rfl⟩
  case cfgValidate => simp only [cfgValidate]; split <;> exact ⟨_, rfl, fun _ => rfl⟩
  case sendWait => simp only [sendWait]; split <;> exact ⟨_, rfl, fun _ => rfl⟩
  case pollWait t => simp only [pollWait]; split <;> exact ⟨_, rfl, fun _ => rfl⟩
  case idle | rdregEnd | wrregEnd | synthEnd | cfgDelayLow | cfgResetHigh | cfgDelayHigh | cfgSleepSettle
    | cfgStandbySettle | cfgEnd | setmodeSettle | setmodeEnd | sendStandbySettle | sendTxSettle | sendRestoreSettle
    | sendEnd | pollArmSettle | pollTest | pollPacket | pollRearmSettle | pollEnd => exact ⟨_, rfl, fun _ => rfl⟩
  all_goals cases hf

/-! ### The chip and the stops -/

/-- Everything a write frame can come to at the chip: it completes or fails taken, as the far end answers; it fails
unseen; or the far end refuses it. -/
theorem memWrite_result (d : Draw) (a : RegAddr) (v : Byte) (s : State) :
    (∃ u w, answerWrite a v s = .ok u ∧ memWrite d a v s = .done v w ∧ w.chip = u.chip) ∨
    (∃ u, answerWrite a v s = .ok u ∧ memWrite d a v s = .failed u) ∨ memWrite d a v s = .failed s ∨
    (∃ r, answerWrite a v s = .error r ∧ memWrite d a v s = .refused r) := by
  cases hd : d.fate <;> cases ha : answerWrite a v s <;>
    simp [memWrite, busFrame, hd, transact, exchange_write, answerWrite_csN, ha, Except.map]

/-- A read frame completes, fails taken or fails unseen. -/
theorem memRead_result (d : Draw) (a : RegAddr) (s : State) :
    (∃ w, memRead d a s = .done (answerRead a s).1 w ∧ w.chip = (answerRead a s).2.chip) ∨
    memRead d a s = .failed (answerRead a s).2 ∨ memRead d a s = .failed s := by
  cases hd : d.fate <;> simp [memRead, busFrame, hd, transact, exchange_read, answerRead_csN]

theorem FrameEffect.chip_of_failed {u t : State} (h : FrameEffect (.failed u) t) : t.chip = u.chip := by
  cases h; rfl

/-- Everything a micro-step can do to the chip: nothing, the hardware reset, or what its one frame does. -/
inductive ChipStep (s : State) : Chip → Prop
  | same : ChipStep s s.chip
  | reset (h : s.phase.assertsReset = true) (c : Chip) : ChipStep s c
  | wrote {a : RegAddr} {v : Byte} {u : State} (hf : s.frame? = some (.write a v)) (hu : answerWrite a v s = .ok u) :
      ChipStep s u.chip
  | didRead (a : RegAddr) : ChipStep s (answerRead a s).2.chip

theorem perform_chip {d : Draw} {s t : State} (h : perform d s = .next t) : ChipStep s t.chip := by
  cases hf : s.frame? with
  | none =>
    obtain ⟨u, hu, hc⟩ := perform_local d hf
    rw [hu] at h
    cases h
    by_cases hr : s.phase.assertsReset = true
    · exact .reset hr _
    · exact hc (Bool.eq_false_iff.mpr hr) ▸ .same
  | some f =>
    have he := (h ▸ perform_frame d hf : FrameOutcome (f.send d s) (.next t)).effect
    cases f with
    | write a v =>
      rw [Frame.send] at he
      rcases memWrite_result d a v s with ⟨u, w, hu, hm, hc⟩ | ⟨u, hu, hm⟩ | hm | ⟨r, -, hm⟩ <;> rw [hm] at he
      · rw [he.chip_of_done, hc]; exact .wrote hf hu
      · rw [he.chip_of_failed]; exact .wrote hf hu
      · rw [he.chip_of_failed]; exact .same
      · cases he
    | read a =>
      rw [Frame.send] at he
      rcases memRead_result d a s with ⟨w, hm, hc⟩ | hm | hm <;> rw [hm] at he
      · rw [he.chip_of_done, hc]; exact .didRead a
      · rw [he.chip_of_failed]; exact .didRead a
      · rw [he.chip_of_failed]; exact .same

/-- A micro-step never faults. -/
theorem perform_no_fault (d : Draw) (s : State) (e : Fault) : perform d s ≠ .fault e := by
  intro h
  cases hf : s.frame? with
  | none =>
    obtain ⟨u, hu, -⟩ := perform_local d hf
    rw [hu] at h; cases h
  | some f => exact (h ▸ perform_frame d hf : FrameOutcome (f.send d s) (.fault e)).not_fault

/-- A refused micro-step is one whose write frame the far end refuses. -/
theorem perform_refused {d : Draw} {s : State} {r : Refusal} (h : perform d s = .refused r) :
    ∃ a v, s.frame? = some (.write a v) ∧ answerWrite a v s = .error r := by
  cases hf : s.frame? with
  | none =>
    obtain ⟨u, hu, -⟩ := perform_local d hf
    rw [hu] at h; cases h
  | some f =>
    have hr := (h ▸ perform_frame d hf : FrameOutcome (f.send d s) (.refused r)).of_refused
    cases f with
    | write a v =>
      rw [Frame.send] at hr
      rcases memWrite_result d a v s with ⟨u, w, -, hm, -⟩ | ⟨u, -, hm⟩ | hm | ⟨r', ha, hm⟩ <;>
        rw [hm] at hr <;> cases hr
      exact ⟨a, v, rfl, ha⟩
    | read a =>
      rw [Frame.send] at hr
      rcases memRead_result d a s with ⟨w, hm, -⟩ | hm | hm <;> rw [hm] at hr <;> cases hr

/-! ### The write frames of a state that meets the invariant -/

/-- The write frames a state that meets the invariant sends: a mode byte to a chip that takes it, a byte to another
register of the map, a configuration register in Sleep, or a WRREG's frame past its guards (40_regbus.md R114, R115;
42_mode.md R134). -/
inductive LegalWrite (s : State) : RegAddr → Byte → Prop
  | mode (m : Mode) (hm : s.phase.setsMode = some m)
      (hl : s.cfg.chipPresent = true → s.chip.mode = .sleep ∨ s.chip.lora s.cfg = true) :
      LegalWrite s (s.cfg.map.addr .opMode) (modeByte s.cfg m)
  | reg (r : Reg) (v : Byte) (ho : r ≠ .opMode) (hc : r.isCfg = true → s.chipSleeps) :
      LegalWrite s (s.cfg.map.addr r) v
  | command (a : RegAddr) (v : Byte) (hph : s.phase = .wrregFrame a v) (ha : a ≠ s.cfg.map.addr .opMode)
      (hc : isCfgAddr s.cfg a = true → s.chipSleeps) : LegalWrite s a v

theorem State.modesAgree.lora {s : State} (h : s.modesAgree) (hp : s.cfg.chipPresent = true) :
    s.chip.mode = .sleep ∨ s.chip.lora s.cfg = true := .inr (h hp).2

theorem State.modesAgree.sleeps {s : State} (h : s.modesAgree) (hm : s.mode = .sleep) : s.chipSleeps :=
  fun hp => (h hp).1.trans hm

theorem legalWrite_of_inv {s : State} {a : RegAddr} {v : Byte} (h : s.Inv) (hf : s.frame? = some (.write a v)) :
    LegalWrite s a v := by
  have hi := h.phaseInv
  cases hp : s.phase <;> simp only [State.frame?, hp] at hf <;> simp only [State.phaseInv, hp] at hi
  case wrregFrame a' v' =>
    cases hf
    obtain ⟨-, hagree, ha, hcfg⟩ := hi
    exact .command _ _ hp ha fun hc => (hagree (hcfg hc).1).sleeps (hcfg hc).2
  case cfgSleep ws =>
    cases hf
    obtain ⟨-, -, -, hsleeps, -⟩ := hi
    exact .mode .sleep (by rw [hp]; rfl) fun hpres => .inl (hsleeps hpres)
  case cfgStandby =>
    cases hf
    obtain ⟨-, -, -, hagree⟩ := hi
    exact .mode .standby (by rw [hp]; rfl) hagree.lora
  case cfgWrites ws =>
    cases ws with
    | nil => cases hf
    | cons w rest =>
      obtain ⟨-, -, hm, hagree, hws⟩ := hi
      simp only [hm, if_true] at hf
      cases hf
      have hcfg := hws w (by simp)
      exact .reg w.1 w.2 (by rintro he; rw [he] at hcfg; cases hcfg) fun _ => hagree.sleeps hm
  case setmodeFrame m => cases hf; exact .mode m (by rw [hp]; rfl) hi.2.2.lora
  case sendStandby n | sendRestore res => cases hf; exact .mode .standby (by rw [hp]; rfl) hi.2.2.lora
  case sendTx => cases hf; exact .mode .tx (by rw [hp]; rfl) hi.2.2.lora
  case pollArm t | pollRearm res => cases hf; exact .mode .rxContinuous (by rw [hp]; rfl) hi.2.2.lora
  case sendPointer n => cases hf; exact .reg .fifoAddrPtr _ (by decide) nofun
  case sendPayload n i => cases hf; exact .reg .fifo _ (by decide) nofun
  case sendLength n => cases hf; exact .reg .payloadLength _ (by decide) nofun
  case sendMap | pollMap t => cases hf; exact .reg .dioMapping _ (by decide) nofun
  case sendAckIrq w | pollAckIrq w => cases hf; exact .reg .irqFlags _ (by decide) nofun
  case pollPointer w => cases hf; exact .reg .fifoAddrPtr _ (by decide) nofun
  all_goals cases hf

/-- An attached chip in Sleep, where the register needs it, takes a write of a register other than the mode register. -/
theorem answerWrite_reg_ok {s : State} {a : RegAddr} {r : Reg} (v : Byte) (hl : s.cfg.map.lookup a = some r)
    (ho : r ≠ .opMode) (hc : r.isCfg = true → s.chipSleeps) : ∃ u, answerWrite a v s = .ok u := by
  cases hp : s.cfg.chipPresent with
  | false => exact ⟨s, by simp [answerWrite, hp]⟩
  | true =>
    cases hr : r.isCfg with
    | true => exact ⟨_, answerWrite_reg v hp hl (Chip.write_cfg _ _ r v _ hr (hc hr hp))⟩
    | false => exact ⟨_, answerWrite_reg v hp hl (Chip.write_plain _ _ r v _ ho hr)⟩

/-- The far end takes a legal write frame, but for a WRREG's frame at an address outside the map of an attached chip. -/
theorem answerWrite_legal {s : State} {a : RegAddr} {v : Byte} (hwf : s.cfg.wf = true) (h : LegalWrite s a v) :
    (∃ u, answerWrite a v s = .ok u) ∨
      (s.phase = .wrregFrame a v ∧ s.cfg.chipPresent = true ∧ s.cfg.map.lookup a = none ∧
        answerWrite a v s = .error .unmappedWrite) := by
  have hmap := RegMap.lookup_addr (Cfg.wf_map hwf)
  cases h with
  | mode m hm hl =>
    left
    cases hp : s.cfg.chipPresent with
    | false => exact ⟨s, by simp [answerWrite, hp]⟩
    | true =>
      have hw := Chip.writeOpMode_modeByte hwf s.free m s.chip (hl hp)
      exact ⟨_, answerWrite_reg _ hp (hmap .opMode) ((Chip.write_opMode ..).trans hw)⟩
  | reg r v ho hc => exact .inl (answerWrite_reg_ok v (hmap r) ho hc)
  | command a v hph ha hc =>
    cases hl : s.cfg.map.lookup a with
    | some r =>
      refine .inl (answerWrite_reg_ok v hl (fun ho => ha ?_) fun hr => hc (by simp [isCfgAddr, hl, hr]))
      rw [← RegMap.addr_of_lookup hl, ho]
    | none =>
      cases hp : s.cfg.chipPresent with
      | false => exact .inl ⟨s, by simp [answerWrite, hp]⟩
      | true => exact .inr ⟨hph, rfl, rfl, answerWrite_refused hp (.inl ⟨hl, rfl⟩)⟩

/-- From a state that meets the invariant a micro-step has a next state, or is a WRREG's frame to an attached chip at
an address outside the map (U5). -/
theorem perform_inv_total {s : State} (d : Draw) (h : s.Inv) :
    (∃ t, perform d s = .next t) ∨
      (∃ a v, s.phase = .wrregFrame a v ∧ s.cfg.chipPresent = true ∧ s.cfg.map.lookup a = none ∧
        perform d s = .refused .unmappedWrite) := by
  cases hn : perform d s with
  | next t => exact .inl ⟨t, rfl⟩
  | fault e => exact absurd hn (perform_no_fault d s e)
  | refused r =>
    obtain ⟨a, v, hf, hr⟩ := perform_refused hn
    rcases answerWrite_legal h.cfg_wf (legalWrite_of_inv h hf) with ⟨u, hu⟩ | ⟨hph, hp, hl, hu⟩
    · rw [hu] at hr; cases hr
    · rw [hu] at hr; cases hr
      exact .inr ⟨a, v, hph, hp, hl, rfl⟩

/-- The stops of a micro-step from a state that meets the invariant. -/
theorem microStep_refused {s : State} {r : Refusal} (h : s.Inv) (hr : microStep s = .refused r) :
    r = .hostWriteWhileBusy ∨ r = .unmappedWrite := by
  by_cases hq : s.nextDraw.hostWrites = []
  · rw [microStep_eq hq] at hr
    rcases perform_inv_total s.nextDraw (afterRadio_inv h) with ⟨t, ht⟩ | ⟨a, v, -, -, -, ht⟩
    · rw [ht] at hr; cases hr
    · rw [ht] at hr; cases hr; exact .inr rfl
  · rw [microStep, if_neg hq] at hr
    cases hr; exact .inl rfl

theorem microStep_no_fault (s : State) (e : Fault) : microStep s ≠ .fault e := by
  by_cases hq : s.nextDraw.hostWrites = []
  · rw [microStep_eq hq]; exact perform_no_fault _ _ e
  · rw [microStep, if_neg hq]; nofun

/-- A run to Idle never faults. -/
theorem runToIdle_no_fault (s : State) (e : Fault) : runToIdle s ≠ .fault e := by
  induction hn : s.phase.bound using Nat.strong_induction_on generalizing s with
  | _ n ih =>
    by_cases hid : s.phase = .idle
    · rw [runToIdle_idle hid]; nofun
    · rw [runToIdle_step hid]
      cases hm : microStep s with
      | next t => exact ih t.phase.bound (hn ▸ microStep_bound hid hm) t rfl
      | fault e' => exact absurd hm (microStep_no_fault s e')
      | refused r => nofun

theorem presentCommand_refused {w : BitVec 24} {s : State} {r : Refusal} (hs : s.Inv) (hid : s.phase = .idle)
    (h : presentCommand w s = .refused r) : r = .hostWriteWhileBusy ∨ r = .unmappedWrite := by
  rcases presentCommand_cases w hid with ⟨i, hi, he⟩ | he <;> rw [he] at h
  · rcases exec_command s hi with ⟨-, he⟩ | ⟨-, -, -, he⟩ | ⟨-, hc, he⟩ <;> rw [he] at h
    · cases h
    · cases h
    · exact runToIdle_refused (fun _ _ hu _ hm => microStep_inv hu hm) (fun _ _ hu _ hm => microStep_refused hu hm)
        (started_inv hi hs hid hc) h
  · cases h

theorem presentCommand_no_fault (w : BitVec 24) {s : State} (e : Fault) (hid : s.phase = .idle) :
    presentCommand w s ≠ .fault e := by
  rcases presentCommand_cases w hid with ⟨i, hi, he⟩ | he <;> rw [he]
  · rcases exec_command s hi with ⟨-, he⟩ | ⟨-, -, -, he⟩ | ⟨-, hc, he⟩ <;> rw [he]
    · nofun
    · nofun
    · exact runToIdle_no_fault _ e
  · nofun

/-- A Host write stops only past TXBUF (log 18). -/
theorem hostWrite_stops {hw : HostWrite} {s : State} :
    (∃ t, s.hostWrite hw = .next t) ∨ ∃ v, hw = .txBuf 255#8 v := by
  cases hw with
  | txBuf i v =>
    by_cases hi : i.toNat < Config.maxPayload
    · exact .inl ⟨_, if_pos hi⟩
    · have h255 : i = 255#8 := by
        have := i.isLt
        apply BitVec.eq_of_toNat_eq
        simp only [Config.maxPayload] at hi
        change i.toNat = 255
        omega
      exact .inr ⟨v, by rw [h255]⟩
  | _ => exact .inl ⟨_, rfl⟩

/-- Settles O58: a refusal is a Host write in a draw, or an unmapped WRREG, since every other write frame is legal. -/
theorem guardsMakeTheUndefinedUnreachable : Obligations.GuardsMakeTheUndefinedUnreachable := by
  unfold Obligations.GuardsMakeTheUndefinedUnreachable
  intro s hs
  by_cases hid : s.phase = .idle
  · cases hin : s.inbox with
    | nil => rw [step_no_input hid hin]; exact ⟨nofun, nofun⟩
    | cons x rest =>
      have hs' := hs.take hin
      rw [step_input hid hin]
      cases x with
      | command w =>
        exact ⟨fun r => presentCommand_refused hs' hid,
          fun e he => absurd he (presentCommand_no_fault (s := { s with inbox := rest }) w e hid)⟩
      | frame w => exact absurd (by simp [hin]) (hs.master w)
      | hostWrite hw =>
        rcases hostWrite_stops (hw := hw) (s := { s with inbox := rest }) with ⟨t, ht⟩ | ⟨v, rfl⟩
        · simp only [takeInput, ht]; exact ⟨nofun, nofun⟩
        · exact ⟨nofun, fun _ _ => ⟨v, rest, rfl⟩⟩
      | radio e => exact ⟨nofun, nofun⟩
  · rw [step_busy (State.busy_eq_true hid)]
    exact ⟨fun r => microStep_refused hs, fun e he => absurd he (microStep_no_fault s e)⟩

/-! ### Flags -/

/-- Of the write frames only one of the flags register changes a flag (10_state.md R43). -/
theorem Chip.write_irqFlags {cfg : Cfg} {k : Nat} {r : Reg} {v : Byte} {c c' : Chip} (hr : r ≠ .irqFlags)
    (h : c.write cfg k r v = .ok c') : c'.irqFlags = c.irqFlags := by
  simp only [Chip.write, Chip.writeOpMode] at h
  split at h
  · split at h
    · cases h
    · split at h <;> cases h
      rfl
  · split at h <;> cases h
    exact Chip.store_irqFlags v c hr

/-- No read frame changes a flag. -/
theorem Chip.afterRead_irqFlags (r : Reg) (c : Chip) : (c.afterRead r).irqFlags = c.irqFlags := by
  simp only [Chip.afterRead]
  split <;> rfl

theorem answerWrite_irqFlags {a : RegAddr} {v : Byte} {s u : State} (ha : a ≠ s.cfg.map.addr .irqFlags)
    (h : answerWrite a v s = .ok u) : u.chip.irqFlags = s.chip.irqFlags := by
  simp only [answerWrite] at h
  split at h
  · split at h
    · cases h
    · next r hl =>
      have hr : r ≠ .irqFlags := by
        rintro rfl
        exact ha (RegMap.addr_of_lookup hl).symm
      split at h <;> cases h
      next c hc => exact Chip.write_irqFlags hr hc
  · cases h; rfl

theorem answerRead_irqFlags (a : RegAddr) (s : State) : (answerRead a s).2.chip.irqFlags = s.chip.irqFlags := by
  simp only [answerRead]
  split
  · split
    · rfl
    · next r _ => exact Chip.afterRead_irqFlags r s.chip
  · split <;> rfl

/-- A position that sends a write frame of the flags register is one of those that `writesFlags` lists. -/
theorem writesFlags_of_frame {s : State} {v : Byte} (hwf : s.cfg.wf = true)
    (h : s.frame? = some (.write (s.cfg.map.addr .irqFlags) v)) : s.writesFlags = true := by
  have hinj {r : Reg} (ha : s.cfg.map.addr r = s.cfg.map.addr .irqFlags) : r = .irqFlags :=
    RegMap.addr_inj (Cfg.wf_map hwf) ha
  cases hp : s.phase <;>
    simp only [State.frame?, hp, Frame.mode, Option.some.injEq, Frame.write.injEq, reduceCtorEq] at h <;>
    simp only [State.writesFlags, hp]
  case wrregFrame a w => simpa using h.1
  case cfgWrites ws =>
    cases ws with
    | nil => cases h
    | cons w rest =>
      simp only at h
      split at h
      · simp only [Option.some.injEq, Frame.write.injEq] at h
        simpa using hinj h.1
      · cases h
  all_goals exact absurd (hinj h.1) (by decide)

/-- A micro-step clears a flag only by a write of the flags register or by the reset. -/
theorem perform_irqFlags {d : Draw} {s t : State} (hwf : s.cfg.wf = true) (h : perform d s = .next t) :
    t.chip.irqFlags = s.chip.irqFlags ∨ s.writesFlags = true ∨ s.phase.assertsReset = true := by
  have hc := perform_chip h
  generalize t.chip = c at hc ⊢
  cases hc with
  | same => exact .inl rfl
  | reset hr _ => exact .inr (.inr hr)
  | @wrote a v u hf hu =>
    by_cases ha : a = s.cfg.map.addr .irqFlags
    · exact .inr (.inl (writesFlags_of_frame hwf (ha ▸ hf)))
    · exact .inl (answerWrite_irqFlags ha hu)
  | didRead a => exact .inl (answerRead_irqFlags a s)

@[simp] theorem State.afterRadio_writesFlags (s : State) : s.afterRadio.writesFlags = s.writesFlags := by
  simp [State.writesFlags]

/-- Settles O48: an event changes flags, FIFO and packet registers only; a micro-step's frame decides which flag can
fall. -/
theorem radioKeepsItsHandsOff : Obligations.RadioKeepsItsHandsOff := by
  unfold Obligations.RadioKeepsItsHandsOff
  refine ⟨fun s e => ⟨⟨_, _, radioStep_eq e s, by simp, by simp, by simp, by simp, by simp,
      fun r hr => radioStep_value_cfg e s s.cfg hr, fun b _ hb => radioStep_keeps_flag e s hb⟩, fun h => ?_⟩,
    fun s t b hwf h hset hclear => ?_, fun cfg k r v c c' hr => Chip.write_irqFlags hr, Chip.afterRead_irqFlags⟩
  · exact radioSteps_disabled [e] (h.symm.imp_right .inl)
  · rw [← State.afterRadio_chip] at hset
    rcases perform_irqFlags (by simpa using hwf) (microStep_next h).2 with hk | hk | hk
    · rw [hk, hset] at hclear; cases hclear
    · exact .inl (by simpa using hk)
    · exact .inr (by simpa using hk)

/-! ### The chip's mode -/

/-- The chip's mode after a micro-step from a state that meets the invariant (42_mode.md R137 (d)). -/
theorem perform_chip_mode {d : Draw} {s t : State} (hs : s.Inv) (h : perform d s = .next t) :
    t.chip.mode = s.chip.mode ∨ s.phase.assertsReset = true ∨ s.phase.setsMode = some t.chip.mode := by
  have hc := perform_chip h
  generalize t.chip = c at hc ⊢
  cases hc with
  | same => exact .inl rfl
  | reset hr _ => exact .inr (.inl hr)
  | wrote hf hu =>
    cases legalWrite_of_inv hs hf with
    | mode m hm _ =>
      cases hp : s.cfg.chipPresent with
      | true => exact .inr (.inr (hm.trans (congrArg some ((answerWrite_mode hs.cfg_wf hu).1 hp).1.symm)))
      | false =>
        simp only [answerWrite, hp, Bool.false_eq_true, if_false, Except.ok.injEq] at hu
        exact .inl (hu ▸ rfl)
    | reg r v ho _ => exact .inl (answerWrite_other (addr_ne_opMode hs.cfg_wf ho) hu).1
    | command a v _ ha _ => exact .inl (answerWrite_other ha hu).1
  | didRead a => exact .inl (answerRead_chip a s).1

end Sys2Proof.Machine
end

section
/-! The core's registers through a micro-step and through a command (10_state.md section 2; 60_exceptions.md sections 1
and 4): which command may change which register, and with which result codes it can end. -/

namespace Sys2Proof.Machine

/-! ### Positions and codes -/

/-- The seven commands, without their operands. -/
inductive CommandKind
  | rdreg
  | wrreg
  | synth
  | configure
  | setmode
  | send
  | poll
deriving DecidableEq

/-- The command a position belongs to. -/
def Phase.kind : Phase → Option CommandKind
  | .idle => none
  | .rdregFrame _ | .rdregEnd _ => some .rdreg
  | .wrregGuard _ _ | .wrregFrame _ _ | .wrregEnd => some .wrreg
  | .synthEval | .synthEnd _ => some .synth
  | .cfgValidate | .cfgResetLow _ | .cfgDelayLow _ | .cfgResetHigh _ | .cfgDelayHigh _ | .cfgSleep _
  | .cfgSleepSettle _ | .cfgWrites _ | .cfgStandby | .cfgStandbySettle | .cfgIdentify | .cfgEnd => some .configure
  | .setmodeFrame _ | .setmodeSettle | .setmodeEnd => some .setmode
  | .sendStandby _ | .sendStandbySettle _ | .sendPointer _ | .sendPayload _ _ | .sendLength _ | .sendMap | .sendTx
  | .sendTxSettle | .sendWait | .sendReadIrq | .sendAckIrq _ | .sendRestore _ | .sendRestoreSettle _ | .sendEnd _ =>
    some .send
  | .pollMap _ | .pollArm _ | .pollArmSettle _ | .pollWait _ | .pollReadIrq | .pollAckIrq _ | .pollTest _
  | .pollReadCurrent | .pollPointer _ | .pollReadCount | .pollReadout _ _ | .pollReadRssi _ | .pollReadSnr _ _
  | .pollPacket _ _ _ | .pollRearm _ | .pollRearmSettle _ | .pollEnd _ => some .poll

/-- The codes a command can still end with, at a position, without a fatal error (60_exceptions.md R201). A result that
SEND or POLL has recorded is the one it ends with. -/
def Phase.plainCodes : Phase → List ResultCode
  | .idle => []
  | .rdregFrame _ | .rdregEnd _ | .setmodeFrame _ | .setmodeSettle | .setmodeEnd
  | .cfgValidate | .cfgResetLow _ | .cfgDelayLow _ | .cfgResetHigh _ | .cfgDelayHigh _ | .cfgSleep _
  | .cfgSleepSettle _ | .cfgWrites _ | .cfgStandby | .cfgStandbySettle | .cfgIdentify | .cfgEnd => [.ok]
  | .wrregGuard _ _ | .wrregFrame _ _ | .wrregEnd => [.ok, .configError, .badCommand]
  | .synthEval | .synthEnd _ => [.ok, .configError]
  | .sendStandby _ | .sendStandbySettle _ | .sendPointer _ | .sendPayload _ _ | .sendLength _ | .sendMap | .sendTx
  | .sendTxSettle | .sendWait | .sendReadIrq | .sendAckIrq _ => [.ok, .txTimeout]
  | .pollMap _ | .pollArm _ | .pollArmSettle _ | .pollWait _ | .pollReadIrq | .pollAckIrq _ | .pollTest _
  | .pollReadCurrent | .pollPointer _ | .pollReadCount | .pollReadout _ _ | .pollReadRssi _ | .pollReadSnr _ _
  | .pollPacket _ _ _ => [.ok, .rxTimeout, .crcError]
  | .sendRestore res | .sendRestoreSettle res | .sendEnd res | .pollRearm res | .pollRearmSettle res
  | .pollEnd res => [res]

/-- The codes of the fatal errors a command can raise (60_exceptions.md R216). -/
def CommandKind.fatalCodes : CommandKind → List ResultCode
  | .synth => []
  | .configure => [.busError, .configError, .disconnected]
  | .rdreg | .wrreg | .setmode | .send | .poll => [.busError]

/-- A later position of the same command, with no new result code. -/
structure Phase.Leads (p q : Phase) : Prop where
  ne : q ≠ .idle
  kind : q.kind = p.kind
  codes : q.plainCodes ⊆ p.plainCodes

theorem Phase.Leads.of_eq {p q : Phase} (hn : q ≠ .idle) (hk : q.kind = p.kind) (hc : q.plainCodes = p.plainCodes) :
    p.Leads q := ⟨hn, hk, hc ▸ List.Subset.refl _⟩

/-- Where a micro-step leaves its command: at a later position, ended with a recorded code, or ended by a fatal
error. -/
inductive Stage (s t : State) : Prop
  | runs (hl : s.phase.Leads t.phase)
      (hconf : t.configured = s.configured ∨ s.phase = .cfgValidate ∧ t.configured = false)
  | ends (hid : t.phase = .idle) (hc : t.status ∈ s.phase.plainCodes)
      (hconf : s.phase.kind ≠ some .configure ∧ t.configured = s.configured ∨
        s.phase.kind = some .configure ∧ t.configured = true)
  | fails (hid : t.phase = .idle) (hc : ∃ k, s.phase.kind = some k ∧ t.status ∈ k.fatalCodes)
      (hconf : t.configured = false) (hv : t.packet.valid = false)

/-- What a micro-step can do to the core's registers, by the command it belongs to. -/
structure CoreStep (s t : State) : Prop where
  rdata : s.phase.kind ≠ some .rdreg → t.rdata = s.rdata
  frf : s.phase.kind ≠ some .synth → s.phase.kind ≠ some .configure → t.frf = s.frf
  mode : t.mode = s.mode ∨ s.phase.assertsReset = true ∨ s.phase.setsMode = some t.mode
  resetN : s.phase.kind ≠ some .configure → t.resetN = s.resetN
  valid : s.phase.kind ≠ some .poll → s.packet.valid = false → t.packet.valid = false
  stage : Stage s t

/-! ### The shapes of a micro-step -/

/-- A jump within the command, after a frame or none. -/
theorem CoreStep.goto {s u : State} {ph : Phase} (hf : FrameOnly s u) (hl : s.phase.Leads ph) :
    CoreStep s (u.goto ph) where
  rdata _ := hf.rdata
  frf _ _ := hf.frf
  mode := .inl hf.mode
  resetN _ := hf.resetN
  valid _ h := by rw [State.goto_packet, hf.packet, h]
  stage := .runs hl (.inl hf.configured)

/-- The jump of `SetMode` after its frame, which sets the record. -/
theorem CoreStep.gotoMode {s u : State} {ph : Phase} {m : Mode} (hf : FrameOnly s u)
    (hm : s.phase.setsMode = some m) (hl : s.phase.Leads ph) :
    CoreStep s (({ u with mode := m } : State).goto ph) where
  rdata _ := hf.rdata
  frf _ _ := hf.frf
  mode := .inr (.inr hm)
  resetN _ := hf.resetN
  valid _ h := (congrArg Packet.valid hf.packet).trans h
  stage := .runs hl (.inl hf.configured)

/-- The end of a command with a recorded code. -/
theorem CoreStep.finish {s : State} {code : ResultCode} (hc : code ∈ s.phase.plainCodes)
    (hcfg : s.phase.kind ≠ some .configure) : CoreStep s (s.finish code) :=
  ⟨fun _ => rfl, fun _ _ => rfl, .inl rfl, fun _ => rfl, fun _ h => h, .ends rfl hc (.inl ⟨hcfg, rfl⟩)⟩

/-- The end of a command by a fatal error. -/
theorem CoreStep.raiseFatal {s u : State} {k : CommandKind} {code : ResultCode} (hf : FrameOnly s u)
    (hk : s.phase.kind = some k) (hc : code ∈ k.fatalCodes) : CoreStep s (u.raiseFatal code) where
  rdata _ := hf.rdata
  frf _ _ := hf.frf
  mode := .inl hf.mode
  resetN _ := hf.resetN
  valid _ _ := rfl
  stage := .fails rfl ⟨k, hk, hc⟩ rfl rfl

theorem FrameOnly.refl (s : State) : FrameOnly s s := by constructor <;> rfl

/-- A frame and what follows it; a failed frame raises BusError. -/
theorem busFrame_coreStep {d : Draw} {ab db : Byte} {s t : State} {f : Byte → State → Outcome} {k : CommandKind}
    (hk : s.phase.kind = some k) (hbus : .busError ∈ k.fatalCodes)
    (hdone : ∀ v u, FrameOnly s u → f v u = .next t → CoreStep s t)
    (h : (busFrame d ab db s).andThen f = .next t) : CoreStep s t := by
  rcases busFrame_andThen h with ⟨v, u, -, -, hf, -, -, hn⟩ | ⟨u, -, -, hf, -, rfl⟩
  · exact hdone v u hf hn
  · exact .raiseFatal hf hk hbus

/-- A frame and a jump. -/
theorem busFrame_goto_coreStep {d : Draw} {ab db : Byte} {s t : State} {f : Byte → State → Phase} {k : CommandKind}
    (hk : s.phase.kind = some k) (hbus : .busError ∈ k.fatalCodes) (hl : ∀ v u, s.phase.Leads (f v u))
    (h : (busFrame d ab db s).andThen (fun v u => .next (u.goto (f v u))) = .next t) : CoreStep s t :=
  busFrame_coreStep hk hbus (fun v u hf hn' => by cases hn'; exact .goto hf (hl v u)) h

theorem setModeFrame_coreStep {d : Draw} {m : Mode} {ph : Phase} {s t : State} {k : CommandKind}
    (hk : s.phase.kind = some k) (hbus : .busError ∈ k.fatalCodes) (hm : s.phase.setsMode = some m)
    (hl : s.phase.Leads ph) (h : setModeFrame d m ph s = .next t) : CoreStep s t :=
  busFrame_coreStep hk hbus (fun v u hf hn' => by cases hn'; exact .gotoMode hf hm hl) h

/-! The jump targets that depend on data stay inside their command. -/

theorem leads_afterWrites {p : Phase} (ws : List (Reg × Byte)) (hk : p.kind = some .configure)
    (hc : p.plainCodes = [.ok]) : p.Leads (afterWrites ws) := by
  cases ws <;> exact .of_eq nofun hk.symm hc.symm

theorem leads_payloadFrom {p : Phase} (n : Byte) (i : Nat) (hk : p.kind = some .send)
    (hc : p.plainCodes = [.ok, .txTimeout]) : p.Leads (payloadFrom n i) := by
  simp only [payloadFrom]
  split <;> exact .of_eq nofun hk.symm hc.symm

theorem leads_readoutFrom {p : Phase} (n : Byte) (i : Nat) (hk : p.kind = some .poll)
    (hc : p.plainCodes = [.ok, .rxTimeout, .crcError]) : p.Leads (readoutFrom n i) := by
  simp only [readoutFrom]
  split <;> exact .of_eq nofun hk.symm hc.symm

theorem leads_crcVerdict (c : Cfg) (v : Byte) : (Phase.pollTest v).Leads (crcVerdict c v) := by
  simp only [crcVerdict]
  split
  · exact ⟨nofun, rfl, by simp [Phase.plainCodes]⟩
  · split <;> exact ⟨nofun, rfl, by simp [Phase.plainCodes]⟩

/-! ### Every micro-step -/

theorem rdregFrame_coreStep {d : Draw} {a : RegAddr} {s t : State} (hp : s.phase = .rdregFrame a)
    (h : rdregFrame d a s = .next t) : CoreStep s t := by
  have hk : s.phase.kind = some .rdreg := by rw [hp]; rfl
  simp only [rdregFrame] at h
  cases hf : memRead d a s with
  | done v u =>
    rw [hf] at h; cases h
    exact .goto (transact_frameOnly (busFrame_done hf).2).1 (by rw [hp]; exact .of_eq nofun rfl rfl)
  | failed u =>
    rw [hf] at h; cases h
    obtain ⟨hu, -⟩ := busFrame_failed_frameOnly hf
    exact ⟨fun hne => absurd hk hne, fun _ _ => hu.frf, .inl hu.mode, fun _ => hu.resetN, fun _ _ => rfl,
      .fails rfl ⟨.rdreg, hk, by simp [CommandKind.fatalCodes]⟩ rfl rfl⟩
  | refused r => rw [hf] at h; cases h

theorem perform_coreStep {d : Draw} {s t : State} (hb : s.phase ≠ .idle) (h : perform d s = .next t) :
    CoreStep s t := by
  have hself := FrameOnly.refl s
  cases hp : s.phase <;> simp only [perform, hp] at h
  case idle => exact absurd hp hb
  case rdregFrame a => exact rdregFrame_coreStep hp h
  case rdregEnd v =>
    cases h
    exact ⟨fun hne => absurd (by rw [hp]; rfl) hne, fun _ _ => rfl, .inl rfl, fun _ => rfl, fun _ hv => hv,
      .ends rfl (by simp [hp, Phase.plainCodes]) (.inl ⟨by simp [hp, Phase.kind], rfl⟩)⟩
  case wrregGuard a v =>
    simp only [wrregGuard] at h
    split at h
    · cases h; exact .finish (by simp [hp, Phase.plainCodes]) (by simp [hp, Phase.kind])
    · split at h <;> cases h
      · exact .finish (by simp [hp, Phase.plainCodes]) (by simp [hp, Phase.kind])
      · exact .goto hself (by rw [hp]; exact .of_eq nofun rfl rfl)
  case wrregFrame | sendLength | sendMap | sendReadIrq | pollReadIrq | pollAckIrq | pollReadCurrent | pollPointer
    | pollReadRssi | pollReadSnr =>
    exact busFrame_goto_coreStep (by rw [hp]; rfl) (by decide)
      (by intros; rw [hp]; exact .of_eq nofun rfl rfl) h
  case wrregEnd | setmodeEnd | sendEnd | pollEnd =>
    cases h; exact .finish (by simp [hp, Phase.plainCodes]) (by simp [hp, Phase.kind])
  case synthEval =>
    simp only [synthEval] at h
    split at h <;> cases h
    · exact .finish (by simp [hp, Phase.plainCodes]) (by simp [hp, Phase.kind])
    · exact .goto hself (by rw [hp]; exact .of_eq nofun rfl rfl)
  case synthEnd n =>
    cases h
    exact ⟨fun _ => rfl, fun hne _ => absurd (by rw [hp]; rfl) hne, .inl rfl, fun _ => rfl, fun _ hv => hv,
      .ends rfl (by simp [hp, Phase.plainCodes]) (.inl ⟨by simp [hp, Phase.kind], rfl⟩)⟩
  case cfgValidate =>
    have hk : s.phase.kind = some .configure := by rw [hp]; rfl
    simp only [cfgValidate] at h
    split at h <;> cases h
    · exact ⟨fun _ => rfl, fun _ _ => rfl, .inl rfl, fun _ => rfl, fun _ _ => rfl,
        .fails rfl ⟨.configure, hk, by simp [CommandKind.fatalCodes]⟩ rfl rfl⟩
    · exact ⟨fun _ => rfl, fun _ hne => absurd hk hne, .inl rfl, fun _ => rfl, fun _ hv => hv,
        .runs (by rw [hp]; exact .of_eq nofun rfl rfl) (.inr ⟨hp, rfl⟩)⟩
  case cfgResetLow ws =>
    cases h
    exact ⟨fun _ => rfl, fun _ _ => rfl, .inr (.inl (by rw [hp]; rfl)), fun hne => absurd (by rw [hp]; rfl) hne,
      fun _ hv => hv, .runs (by rw [hp]; exact .of_eq nofun rfl rfl) (.inl rfl)⟩
  case cfgResetHigh ws =>
    cases h
    exact ⟨fun _ => rfl, fun _ _ => rfl, .inl rfl, fun hne => absurd (by rw [hp]; rfl) hne,
      fun _ hv => hv, .runs (by rw [hp]; exact .of_eq nofun rfl rfl) (.inl rfl)⟩
  case cfgSleepSettle ws =>
    cases h
    exact .goto hself (leads_afterWrites ws (by rw [hp]; rfl) (by rw [hp]; rfl))
  case cfgWrites ws =>
    have hk : s.phase.kind = some .configure := by rw [hp]; rfl
    cases ws with
    | nil => cases h; exact .goto hself (by rw [hp]; exact .of_eq nofun rfl rfl)
    | cons w rest =>
      simp only [cfgWrite] at h
      split at h
      · cases h; exact .raiseFatal hself hk (by decide)
      · exact busFrame_goto_coreStep hk (by decide) (fun _ _ => leads_afterWrites rest hk (by rw [hp]; rfl)) h
  case cfgIdentify =>
    have hk : s.phase.kind = some .configure := by rw [hp]; rfl
    refine busFrame_coreStep hk (by decide) (fun v u hf hn => ?_) h
    split at hn <;> cases hn
    · exact .goto hf (by rw [hp]; exact .of_eq nofun rfl rfl)
    · exact .raiseFatal hf hk (by decide)
  case cfgEnd =>
    cases h
    exact ⟨fun _ => rfl, fun _ _ => rfl, .inl rfl, fun _ => rfl, fun _ hv => hv,
      .ends rfl (by simp [hp, Phase.plainCodes]) (.inr ⟨by rw [hp]; rfl, rfl⟩)⟩
  case cfgSleep | cfgStandby | setmodeFrame | sendStandby | sendTx | sendRestore | pollArm | pollRearm =>
    exact setModeFrame_coreStep (by rw [hp]; rfl) (by decide) (by rw [hp]; rfl)
      (by rw [hp]; exact .of_eq nofun rfl rfl) h
  case cfgDelayLow | cfgDelayHigh | cfgStandbySettle | setmodeSettle | sendStandbySettle | sendTxSettle
    | sendRestoreSettle | pollArmSettle | pollRearmSettle =>
    cases h; exact .goto hself (by rw [hp]; exact .of_eq nofun rfl rfl)
  case sendPointer n =>
    exact busFrame_goto_coreStep (by rw [hp]; rfl) (by decide)
      (fun _ _ => leads_payloadFrom n 0 (by rw [hp]; rfl) (by rw [hp]; rfl)) h
  case sendPayload n i =>
    exact busFrame_goto_coreStep (by rw [hp]; rfl) (by decide)
      (fun _ _ => leads_payloadFrom n (i + 1) (by rw [hp]; rfl) (by rw [hp]; rfl)) h
  case sendWait =>
    simp only [sendWait] at h
    split at h <;> cases h
    · exact .goto hself (by rw [hp]; exact .of_eq nofun rfl rfl)
    · exact .goto hself (by rw [hp]; exact ⟨nofun, rfl, by simp [Phase.plainCodes]⟩)
  case sendAckIrq v =>
    refine busFrame_goto_coreStep (by rw [hp]; rfl) (by decide) (fun _ u => ?_) h
    rw [hp, sendResult]
    split <;> exact ⟨nofun, rfl, by simp [Phase.plainCodes]⟩
  case pollMap ms =>
    refine busFrame_goto_coreStep (by rw [hp]; rfl) (by decide) (fun _ u => ?_) h
    rw [hp]
    split <;> exact .of_eq nofun rfl rfl
  case pollWait ms =>
    simp only [pollWait] at h
    split at h <;> cases h
    · exact .goto hself (by rw [hp]; exact .of_eq nofun rfl rfl)
    · split <;> exact .goto hself (by rw [hp]; exact ⟨nofun, rfl, by simp [Phase.plainCodes]⟩)
  case pollTest v =>
    cases h
    exact .goto hself (by rw [hp]; exact leads_crcVerdict s.cfg v)
  case pollReadCount =>
    exact busFrame_goto_coreStep (by rw [hp]; rfl) (by decide)
      (fun v _ => leads_readoutFrom v 0 (by rw [hp]; rfl) (by rw [hp]; rfl)) h
  case pollReadout n i =>
    refine busFrame_coreStep (by rw [hp]; rfl) (by decide) (fun v u hf hn' => ?_) h
    cases hn'
    exact ⟨fun _ => hf.rdata, fun _ _ => hf.frf, .inl hf.mode, fun _ => hf.resetN,
      fun hne _ => absurd (by rw [hp]; rfl) hne,
      .runs (leads_readoutFrom n (i + 1) (by rw [hp]; rfl) (by rw [hp]; rfl)) (.inl hf.configured)⟩
  case pollPacket n r v =>
    cases h
    exact ⟨fun _ => rfl, fun _ _ => rfl, .inl rfl, fun _ => rfl, fun hne _ => absurd (by rw [hp]; rfl) hne,
      .runs (by rw [hp]; exact ⟨nofun, rfl, by simp [Phase.plainCodes]⟩) (.inl rfl)⟩

/-- The Radio's steps before a micro-step touch no register of the core. -/
theorem microStep_coreStep {s t : State} (hb : s.phase ≠ .idle) (h : microStep s = .next t) : CoreStep s t := by
  obtain ⟨hrdata, hfrf, hmode, hreset, hvalid, hstage⟩ := perform_coreStep (by simpa using hb) (microStep_next h).2
  simp only [State.afterRadio_phase, State.afterRadio_rdata, State.afterRadio_frf, State.afterRadio_mode,
    State.afterRadio_resetN, State.afterRadio_packet] at hrdata hfrf hmode hreset hvalid
  refine ⟨hrdata, hfrf, hmode, hreset, hvalid, ?_⟩
  cases hstage with
  | runs hl hconf => exact .runs (by simpa using hl) (by simpa using hconf)
  | ends hid hc hconf => exact .ends hid (by simpa using hc) (by simpa using hconf)
  | fails hid hc hconf hv => exact .fails hid (by simpa using hc) hconf hv

/-- Settles O59: a micro-step that moves the chip's mode or the record is one of `SetMode` or the reset. -/
theorem modeChangesOnlyByACommand : Obligations.ModeChangesOnlyByACommand := by
  unfold Obligations.ModeChangesOnlyByACommand
  intro s t hs h
  have hp := (microStep_next h).2
  constructor
  · intro hne
    rcases perform_chip_mode (afterRadio_inv hs) hp with hk | hk | hk
    · exact absurd (by simpa using hk) hne
    · exact .inl (by simpa using hk)
    · exact .inr (by simpa using hk)
  · intro hne
    have hb : s.phase ≠ .idle := by
      intro hid
      simp only [perform, State.afterRadio_phase, hid] at hp
      cases hp
      exact hne (by simp)
    rcases (microStep_coreStep hb h).mode with hk | hk | hk
    · exact absurd hk hne
    · exact .inl hk
    · exact .inr hk

/-! ### A command from its first micro-step to its end -/

theorem firstPhase_kind_iff (i : Instr) :
    ((firstPhase i).kind = some .rdreg ↔ ∃ a, i = .rdreg a) ∧
    ((firstPhase i).kind = some .wrreg ↔ ∃ a v, i = .wrreg a v) ∧
    ((firstPhase i).kind = some .synth ↔ i = .synth) ∧ ((firstPhase i).kind = some .configure ↔ i = .configure) ∧
    ((firstPhase i).kind = some .poll ↔ ∃ a, i = .poll a) := by
  cases i <;> simp [firstPhase, Phase.kind]

theorem firstPhase_ne_idle {i : Instr} (hi : isCommand i = true) : firstPhase i ≠ .idle := by
  cases i <;> first | (simp [firstPhase]; done) | cases hi

/-- Where the run of a command stands: within the command, ended with one of its codes, or ended by a fatal error. -/
inductive RunStage (i : Instr) (s u : State) : Prop
  | runs (hk : u.phase.kind = (firstPhase i).kind) (hc : u.phase.plainCodes ⊆ (firstPhase i).plainCodes)
      (hn : u.phase ≠ .idle) (hconf : i ≠ .configure → u.configured = s.configured)
  | ends (hid : u.phase = .idle) (hc : u.status ∈ (firstPhase i).plainCodes)
      (hconf : i ≠ .configure → u.configured = s.configured) (hcfg : i = .configure → u.configured = true)
  | fails (hid : u.phase = .idle) (hc : ∃ k, (firstPhase i).kind = some k ∧ u.status ∈ k.fatalCodes)
      (hconf : u.configured = false) (hv : u.packet.valid = false)

/-- What the run of a command has left alone. -/
structure CommandRun (i : Instr) (s u : State) : Prop where
  rdata : (∀ a, i ≠ .rdreg a) → u.rdata = s.rdata
  frf : i ≠ .synth → i ≠ .configure → u.frf = s.frf
  mode : ((∃ a, i = .rdreg a) ∨ (∃ a v, i = .wrreg a v) ∨ i = .synth) → u.mode = s.mode
  resetN : i ≠ .configure → u.resetN = s.resetN
  valid : (∀ a, i ≠ .poll a) → u.packet.valid = false
  stage : RunStage i s u

theorem CommandRun.started {i : Instr} (s : State) (hi : isCommand i = true) : CommandRun i s (s.started i) :=
  ⟨fun _ => rfl, fun _ _ => rfl, fun _ => rfl, fun _ => rfl, fun _ => rfl,
    .runs rfl (List.Subset.refl _) (firstPhase_ne_idle hi) fun _ => rfl⟩

/-- No micro-step of RDREG, WRREG or SYNTH writes the mode register or asserts RESET_N. -/
theorem Phase.keepsMode {p : Phase} (h : p.kind = some .rdreg ∨ p.kind = some .wrreg ∨ p.kind = some .synth) :
    p.assertsReset = false ∧ p.setsMode = none := by
  cases p <;> first | exact ⟨rfl, rfl⟩ | (simp [Phase.kind] at h)

theorem CommandRun.step {i : Instr} {s u t : State} (hu : CommandRun i s u)
    (hb : u.phase ≠ .idle) (h : microStep u = .next t) : CommandRun i s t := by
  obtain ⟨hrdreg, hwrreg, hsynth, hconfigure, hpoll⟩ := firstPhase_kind_iff i
  have hstep := microStep_coreStep hb h
  cases hu.stage with
  | ends hid | fails hid => exact absurd hid hb
  | runs hk hc _ hconf =>
    rw [← hk] at hrdreg hwrreg hsynth hconfigure hpoll
    refine ⟨fun hne => ?_, fun h1 h2 => ?_, fun hm => ?_, fun hne => ?_, fun hne => ?_, ?_⟩
    · rw [hstep.rdata fun he => (hrdreg.mp he).elim fun a ha => hne a ha, hu.rdata hne]
    · rw [hstep.frf (fun he => h1 (hsynth.mp he)) (fun he => h2 (hconfigure.mp he)), hu.frf h1 h2]
    · rw [← hrdreg, ← hwrreg, ← hsynth] at hm
      obtain ⟨hreset, hset⟩ := Phase.keepsMode hm
      have hmode : t.mode = u.mode := by simpa [hreset, hset] using hstep.mode
      rw [hmode, hu.mode (by rwa [← hrdreg, ← hwrreg, ← hsynth])]
    · rw [hstep.resetN fun he => hne (hconfigure.mp he), hu.resetN hne]
    · exact hstep.valid (fun he => (hpoll.mp he).elim fun a ha => hne a ha) (hu.valid hne)
    · cases hstep.stage with
      | runs hl hconf' =>
        refine .runs (hl.kind.trans hk) (List.Subset.trans hl.codes hc) hl.ne fun hne => ?_
        rcases hconf' with h' | ⟨h', -⟩
        · rw [h', hconf hne]
        · exact absurd (hconfigure.mp (by rw [h']; rfl)) hne
      | ends hid hcode hconf' =>
        rw [ne_eq, hconfigure] at hconf'
        refine .ends hid (hc hcode) (fun hne => ?_) (fun he => ?_)
        · rcases hconf' with ⟨-, h'⟩ | ⟨h', -⟩
          · rw [h', hconf hne]
          · exact absurd h' hne
        · rcases hconf' with ⟨h', -⟩ | ⟨-, h'⟩
          · exact absurd he h'
          · exact h'
      | fails hid hcode hconf' hv => exact .fails hid (by rwa [← hk]) hconf' hv

theorem runToIdle_commandRun {i : Instr} {s t : State} (hi : isCommand i = true)
    (h : runToIdle (s.started i) = .next t) : t.phase = .idle ∧ CommandRun i s t :=
  runToIdle_keeps (fun _ _ hu hb hm => hu.step hb hm) (CommandRun.started s hi) h

/-- Settles O12: what no micro-step of the command changes is as it was when the command ends; the refusal of R103 writes
STATUS and the Packet registers only. -/
theorem commandsKeepWhatTheyDoNotName : Obligations.CommandsKeepWhatTheyDoNotName := by
  unfold Obligations.CommandsKeepWhatTheyDoNotName
  intro s t i hi h
  refine ⟨(exec_command_keeps hi h).1, ?_⟩
  rcases exec_command s hi with ⟨hb, he⟩ | ⟨-, -, -, he⟩ | ⟨-, -, he⟩ <;> rw [he] at h
  · cases h
    exact ⟨fun _ => rfl, fun _ _ => rfl, fun _ => rfl, fun _ hc => hc, fun _ => rfl,
      fun _ hid => absurd hid ((State.busy_iff s).mp hb)⟩
  · cases h
    exact ⟨fun _ => rfl, fun _ _ => rfl, fun _ => rfl, fun _ hc => hc, fun _ => rfl, fun _ _ => rfl⟩
  · obtain ⟨hid, hrun⟩ := runToIdle_commandRun hi h
    refine ⟨hrun.rdata, hrun.frf, hrun.mode, fun hne hc => ?_, hrun.resetN, fun hne _ => hrun.valid hne⟩
    cases hrun.stage with
    | runs _ _ hn => exact absurd hid hn
    | ends _ _ hconf => rw [hconf hne, hc]
    | fails _ _ hconf => exact hconf

/-! ### Result codes -/

theorem plainCodes_subset (i : Instr) : (firstPhase i).plainCodes ⊆ resultCodes i := by
  cases i <;> simp [firstPhase, Phase.plainCodes, resultCodes]

theorem fatalCodes_subset {i : Instr} {k : CommandKind} (hk : (firstPhase i).kind = some k) :
    k.fatalCodes ⊆ resultCodes i := by
  cases i <;> cases hk <;> simp [CommandKind.fatalCodes, resultCodes]

/-- The run of a command ends with one of its own codes (60_exceptions.md R201). -/
theorem CommandRun.status_mem {i : Instr} {s t : State} (h : CommandRun i s t)
    (hid : t.phase = .idle) : t.status ∈ resultCodes i := by
  cases h.stage with
  | runs _ _ hn => exact absurd hid hn
  | ends _ hc => exact plainCodes_subset i hc
  | fails _ hc =>
    obtain ⟨k, hk, hc⟩ := hc
    exact fatalCodes_subset hk hc

/-- The register a WRREG in execution writes is one of the map, if a chip is attached. -/
def State.targetMapped (s : State) : Prop :=
  ∀ a v, s.phase = .wrregGuard a v ∨ s.phase = .wrregFrame a v → s.cfg.chipPresent = true → s.cfg.map.lookup a ≠ none

theorem microStep_targetMapped {s t : State} (hs : s.targetMapped) (hb : s.phase ≠ .idle)
    (h : microStep s = .next t) : t.targetMapped := by
  intro a v hph
  have hp := (microStep_next h).2
  have hcfg : t.cfg = s.cfg := by simpa using (perform_keeps hp).cfg
  have hk : t.phase.kind = some .wrreg := by rcases hph with hph | hph <;> rw [hph] <;> rfl
  rw [hcfg]
  cases (microStep_coreStep hb h).stage with
  | ends hid | fails hid => rw [hid] at hk; cases hk
  | runs hl =>
    have hks := hl.kind.symm.trans hk
    cases hph' : s.phase <;> rw [hph'] at hks <;> first | (cases hks; done) | skip
    all_goals simp only [perform, State.afterRadio_phase, hph'] at hp
    case wrregGuard a' v' =>
      simp only [wrregGuard] at hp
      split at hp
      · cases hp; simp at hph
      · split at hp <;> cases hp
        · simp at hph
        · simp only [State.goto_phase, reduceCtorEq, Phase.wrregFrame.injEq, false_or] at hph
          exact hph.1 ▸ hs a' v' (.inl hph')
    case wrregFrame a' v' =>
      rcases memWrite_andThen hp with ⟨u, -, -, -, -, -, hn⟩ | ⟨u, -, -, -, -, rfl⟩
      · cases hn; simp at hph
      · simp at hph
    case wrregEnd => cases hp; simp at hph

/-- From a state that meets the invariant, with no Host write and no unmapped WRREG, every micro-step has a next
state. -/
theorem microStep_total {s : State} (hs : s.Inv) (hq : s.hostQuiet) (hm : s.targetMapped) :
    ∃ t, microStep s = .next t := by
  rw [microStep_eq hq.nextDraw]
  rcases perform_inv_total s.nextDraw (afterRadio_inv hs) with ht | ⟨a, v, hph, hp, hl, -⟩
  · exact ht
  · simp only [State.afterRadio_phase, State.afterRadio_cfg] at hph hp hl
    exact absurd hl (hm a v (.inr hph) hp)

/-- What is left of a quiet script is quiet. -/
theorem microStep_env {s t : State} (h : microStep s = .next t) : t.env = s.env.tail := by
  simpa using (perform_keeps (microStep_next h).2).env

/-- Settles O11: the invariant makes every micro-step of the command go on, and the positions' codes are the command's. -/
theorem everyCommandEndsWithItsOwnCode : Obligations.EveryCommandEndsWithItsOwnCode := by
  unfold Obligations.EveryCommandEndsWithItsOwnCode
  intro s i hs hid hq hi hmap
  rcases exec_command s hi with ⟨hb, -⟩ | ⟨-, -, hn, he⟩ | ⟨-, hc, he⟩ <;> try rw [he]
  · exact absurd hid ((State.busy_iff s).mp hb)
  · refine ⟨_, rfl, rfl, ?_⟩
    cases i <;> first | (simp [resultCodes]; done) | cases hn
  · have htarget : (s.started i).targetMapped := by
      intro a v hph
      refine hmap a v ?_
      cases i <;> simp [firstPhase] at hph ⊢
      exact hph
    obtain ⟨t, ht, htid, -⟩ := runToIdle_total (I := fun u => u.Inv ∧ u.hostQuiet ∧ u.targetMapped)
      (fun u ⟨hu, hq, hm⟩ hb => by
        obtain ⟨t, ht⟩ := microStep_total hu hq hm
        exact ⟨t, ht, microStep_inv hu ht, hq.tail (microStep_env ht), microStep_targetMapped hm hb ht⟩)
      ⟨started_inv hi hs hid hc, hq, htarget⟩
    exact ⟨t, ht, htid, (runToIdle_commandRun hi ht).2.status_mem htid⟩

/-! ### Errors -/

/-- The codes of fatal errors stand in no other list: a plain end has none of BusError and Disconnected, and CONFIGURE's
plain end is Ok; only SEND and POLL can end with a timeout or a CRC error (60_exceptions.md R201). -/
theorem plainCodes_spec {i : Instr} {code : ResultCode} (hi : isCommand i = true)
    (h : code ∈ (firstPhase i).plainCodes) :
    code ≠ .busError ∧ code ≠ .disconnected ∧ (i = .configure → code = .ok) ∧
      (code = .txTimeout ∨ code = .rxTimeout ∨ code = .crcError → needsConfigured i = true) := by
  cases i <;> simp only [firstPhase, Phase.plainCodes, List.mem_cons, List.not_mem_nil, or_false] at h
  case setmode | configure | rdreg => subst h; simp
  case send | synth => rcases h with rfl | rfl <;> simp [needsConfigured]
  case wrreg | poll => rcases h with rfl | rfl | rfl <;> simp [needsConfigured]

theorem fatalCodes_spec {k : CommandKind} {code : ResultCode} (h : code ∈ k.fatalCodes) :
    code ≠ .ok ∧ code ≠ .txTimeout ∧ code ≠ .rxTimeout ∧ code ≠ .crcError := by
  cases k <;> simp only [CommandKind.fatalCodes, List.mem_cons, List.not_mem_nil, or_false] at h
  case configure => rcases h with rfl | rfl | rfl <;> simp
  all_goals subst h; simp

/-- Settles O53: the code says whether the command ended plainly, with CONFIGURED kept, or by a fatal error. -/
theorem fatalErrorsLeaveTheCoreUnconfigured : Obligations.FatalErrorsLeaveTheCoreUnconfigured := by
  unfold Obligations.FatalErrorsLeaveTheCoreUnconfigured
  intro s t i hid hi h
  rcases exec_command s hi with ⟨hb, -⟩ | ⟨-, -, hn, he⟩ | ⟨-, hc, he⟩ <;> try rw [he] at h
  · exact absurd hid ((State.busy_iff s).mp hb)
  · cases h
    refine ⟨by simp, fun hcfg => ?_, by simp⟩
    rw [hcfg] at hn; cases hn
  · obtain ⟨htid, hrun⟩ := runToIdle_commandRun hi h
    cases hrun.stage with
    | runs _ _ hn => exact absurd htid hn
    | ends _ hcode hconf hcfg =>
      obtain ⟨h1, h2, h3, h4⟩ := plainCodes_spec hi hcode
      refine ⟨?_, fun hi' => iff_of_true (hcfg hi') (h3 hi'), fun htime => ?_⟩
      · rintro (he | he | ⟨he, hi'⟩)
        · exact absurd he h1
        · exact absurd he h2
        · rw [h3 hi'] at he; cases he
      · have hneed := h4 htime
        have hne : i ≠ .configure := by rintro rfl; cases hneed
        rw [hconf hne, hc hneed]
    | fails _ hcode hconf hv =>
      obtain ⟨k, -, hcode⟩ := hcode
      obtain ⟨h1, h2, h3, h4⟩ := fatalCodes_spec hcode
      refine ⟨fun _ => ⟨hconf, hv, htid⟩, fun _ => iff_of_false (by simp [hconf]) h1, ?_⟩
      rintro (he | he | he)
      · exact absurd he h2
      · exact absurd he h3
      · exact absurd he h4

end Sys2Proof.Machine
end

section
/-! Proofs about the commands of few micro-steps: RDREG, WRREG (40_regbus.md sections 2 and 3) and SYNTH (41_synth.md
section 2), each run from its first micro-step to Idle. -/

namespace Sys2Proof.Machine

/-! ### Running a micro-step -/

/-- A run with no Host write inside it goes on from what its position does. -/
theorem runToIdle_perform {s t : State} (hb : s.phase ≠ .idle) (hq : s.hostQuiet)
    (h : perform s.nextDraw s.afterRadio = .next t) : runToIdle s = runToIdle t :=
  runToIdle_next hb ((microStep_eq hq.nextDraw).trans h)

/-- A run whose next micro-step ends the command. -/
theorem runToIdle_last {s t : State} (hb : s.phase ≠ .idle) (hq : s.hostQuiet)
    (h : perform s.nextDraw s.afterRadio = .next t) (ht : t.phase = .idle) : runToIdle s = .next t :=
  (runToIdle_perform hb hq h).trans (runToIdle_idle ht)

/-- The Radio can do nothing any more: no event is left in the script, or no chip is attached. -/
def State.still (s : State) : Prop := s.airQuiet ∨ s.cfg.chipPresent = false

theorem State.still.tail {s t : State} (h : s.still) (he : t.env = s.env.tail) (hc : t.cfg = s.cfg) : t.still :=
  h.imp (fun ha => ha.tail he) fun hp => hc ▸ hp

theorem State.still.afterRadio {s : State} (h : s.still) : s.afterRadio = { s with env := s.env.tail } := by
  rcases h with ha | hp
  · exact State.afterRadio_quiet ha.nextDraw
  · exact radioSteps_disabled _ (.inr (.inr hp))

theorem State.still.radioSteps {s : State} (h : s.still) : radioSteps s.nextDraw.events s = s := by
  rcases h with ha | hp
  · rw [ha.nextDraw]; rfl
  · exact radioSteps_disabled _ (.inr (.inr hp))

/-- The chip and TXLOG when a frame has gone out and the Radio steps after it have been taken. -/
theorem State.still.afterRadio_chip {s : State} (h : s.still) :
    s.afterRadio.chip = s.chip ∧ s.afterRadio.txLog = s.txLog := by
  rw [h.afterRadio]; exact ⟨rfl, rfl⟩

/-- A frame that completed did no more to the core than BUSLOG and CS_N. -/
theorem memRead_done {d : Draw} {a : RegAddr} {v : Byte} {s u : State} (h : memRead d a s = .done v u) :
    FrameOnly s u ∧ u.csN = true ∧ u.busLog = s.busLog ++ [⟨false, a, v⟩] := by
  simpa using transact_frameOnly (busFrame_done h).2

theorem memWrite_done {d : Draw} {a : RegAddr} {v w : Byte} {s u : State} (h : memWrite d a v s = .done w u) :
    FrameOnly s u ∧ u.csN = true ∧ u.busLog = s.busLog ++ [⟨true, a, w⟩] := by
  simpa using transact_frameOnly (busFrame_done h).2

theorem memRead_of_transact {d : Draw} {a : RegAddr} {v : Byte} {s u : State} (hd : d.fate = .completes)
    (h : transact (readAddrByte a) s.cfg.dummy s = .ok (v, u)) : memRead d a s = .done v u := by
  simp only [memRead, busFrame, hd, h]

/-- A frame whose draw completes it does not fail. -/
theorem memRead_not_failed {d : Draw} {a : RegAddr} {s u : State} (hd : d.fate = .completes) :
    memRead d a s ≠ .failed u := by
  simp only [memRead, busFrame, hd, transact, exchange_read]
  nofun

theorem memWrite_refused {d : Draw} {a : RegAddr} {v : Byte} {s : State} {e : Refusal} (hd : d.fate = .completes)
    (h : answerWrite a v s = .error e) : memWrite d a v s = .refused e := by
  simp [memWrite, busFrame, hd, transact, exchange_write, answerWrite_csN, h, Except.map]

/-! ### RDREG and WRREG that complete -/

/-- What RDREG and WRREG leave of the core when they complete with one frame. -/
structure OneFrame (s t : State) (r : BusRecord) : Prop where
  status : t.status = .ok
  idle : t.phase = .idle
  busLog : t.busLog = s.busLog ++ [r]
  valid : t.packet.valid = false
  keeps : KeepsOperands s t
  frf : t.frf = s.frf
  mode : t.mode = s.mode
  configured : t.configured = s.configured
  resetN : t.resetN = s.resetN
  csN : t.csN = true

/-- A plain end after one frame. -/
theorem OneFrame.of_end {i : Instr} {s w u t : State} {ph : Phase} {r : BusRecord}
    (hw : w = (s.started i).afterRadio ∨ ∃ ph', w = ((s.started i).afterRadio.goto ph').afterRadio)
    (hf : FrameOnly w u) (hcs : u.csN = true) (hb : u.busLog = w.busLog ++ [r])
    (ht : ∃ v, t = ({ (u.goto ph).afterRadio with rdata := v } : State).finish .ok) : OneFrame s t r := by
  obtain ⟨v, rfl⟩ := ht
  have hkeep : w.cfg = s.cfg ∧ w.radio = s.radio ∧ w.txBuf = s.txBuf ∧ w.inbox = s.inbox ∧ w.frf = s.frf ∧
      w.mode = s.mode ∧ w.configured = s.configured ∧ w.resetN = s.resetN ∧ w.busLog = s.busLog ∧
      w.packet.valid = false := by
    rcases hw with rfl | ⟨ph', rfl⟩ <;> simp
  obtain ⟨hcfg, hradio, htx, hin, hfrf, hmode, hconf, hreset, hbus, hvalid⟩ := hkeep
  refine ⟨rfl, rfl, ?_, ?_, ⟨?_, ?_, ?_, ?_⟩, ?_, ?_, ?_, ?_, ?_⟩
  · simp [hb, hbus]
  · simp [hf.packet, hvalid]
  · simp [hf.cfg, hcfg]
  · simp [hf.radio, hradio]
  · simp [hf.txBuf, htx]
  · simp [hf.inbox, hin]
  · simp [hf.frf, hfrf]
  · simp [hf.mode, hmode]
  · simp [hf.configured, hconf]
  · simp [hf.resetN, hreset]
  · simp [hcs]

/-- RDREG with a frame that completes: the frame, and its byte into RDATA. -/
theorem rdreg_completes {s u : State} {a : RegAddr} {v : Byte} (hid : s.phase = .idle) (hq : s.hostQuiet)
    (hm : memRead s.nextDraw a (s.started (.rdreg a)).afterRadio = .done v u) :
    ∃ t, exec (.rdreg a) s = .next t ∧ t.rdata = v ∧ OneFrame s t ⟨false, a, v⟩ ∧
      (s.still → t.chip = u.chip ∧ t.txLog = s.txLog) := by
  obtain ⟨hf, hcs, hb⟩ := memRead_done hm
  have henv : (u.goto (.rdregEnd v)).env = (s.started (.rdreg a)).env.tail := by simp [hf.env]
  have hstep : perform (s.started (.rdreg a)).nextDraw (s.started (.rdreg a)).afterRadio =
      .next (u.goto (.rdregEnd v)) := by
    simp [perform, firstPhase, rdregFrame, hm]
  have hlast : perform (u.goto (.rdregEnd v)).nextDraw (u.goto (.rdregEnd v)).afterRadio =
      .next (({ (u.goto (.rdregEnd v)).afterRadio with rdata := v } : State).finish .ok) := by
    simp [perform, rdregEnd]
  refine ⟨({ (u.goto (.rdregEnd v)).afterRadio with rdata := v } : State).finish .ok, ?_, rfl,
    OneFrame.of_end (.inl rfl) hf hcs hb ⟨v, rfl⟩, fun hst => ?_⟩
  · rw [exec_runs rfl hid (by nofun), runToIdle_perform (s := s.started (.rdreg a)) (by nofun) hq hstep]
    exact runToIdle_last (by nofun) (State.hostQuiet.tail (s := s.started (.rdreg a)) hq henv) hlast rfl
  · have h1 : (u.goto (.rdregEnd v)).still := State.still.tail (s := s.started (.rdreg a)) hst henv (by simp [hf.cfg])
    have h2 : (s.started (.rdreg a)).afterRadio.txLog = s.txLog := by
      rw [State.started_afterRadio_txLog _ hid, hst.radioSteps]
    exact ⟨h1.afterRadio_chip.1, h1.afterRadio_chip.2.trans (hf.txLog.trans h2)⟩

/-- Settles O14: the register map's register answers; with no chip the far end answers what log 12 says. -/
theorem rdregReturnsTheRegister : Obligations.RdregReturnsTheRegister := by
  unfold Obligations.RdregReturnsTheRegister
  constructor
  · intro s r hwf hp hid hq hb
    have hchip := State.started_afterRadio_chip (.rdreg (s.cfg.map.addr r)) hid
    have hm := memRead_reg (d := s.nextDraw) (s := (s.started (.rdreg (s.cfg.map.addr r))).afterRadio) (r := r)
      hb.nextDraw (by simpa using hwf) (by simpa using hp)
    simp only [State.afterRadio_cfg, State.started_cfg, hchip] at hm
    obtain ⟨t, ht, hv, h1, h2⟩ := rdreg_completes hid hq hm
    refine ⟨t, ht, hv, h1.status, h1.idle, hv ▸ h1.busLog, h1.valid, h1.keeps, h1.frf, h1.mode, h1.configured,
      h1.resetN,
      h1.csN, fun ha => ?_⟩
    obtain ⟨hc, hl⟩ := h2 (.inl ha)
    have hst : s.still := .inl ha
    exact ⟨hl, by rw [hc, hst.radioSteps]; rfl⟩
  · intro s a hp hid hq hb
    obtain ⟨v, k, hm, hver, -⟩ := transact_read_absent (s := (s.started (.rdreg a)).afterRadio) a
      (s.started (.rdreg a)).afterRadio.cfg.dummy (by simpa using hp)
    obtain ⟨t, ht, hv, h1, h2⟩ := rdreg_completes hid hq (memRead_of_transact hb.nextDraw hm)
    have hst : s.still := .inr hp
    obtain ⟨hc, hl⟩ := h2 hst
    refine ⟨t, ht, h1.status, h1.idle, fun hl => hv.trans (by simpa using hver (by simpa using hl)), hv ▸ h1.busLog,
      h1.valid,
      h1.keeps, h1.frf, h1.mode, h1.configured, h1.resetN, h1.csN, hl, ?_⟩
    rw [hc]
    exact (State.started_afterRadio_chip _ hid).trans (by rw [hst.radioSteps])

/-- Settles O15: the far end answers a free byte, and no chip takes part. -/
theorem rdregOutsideTheMapCompletes : Obligations.RdregOutsideTheMapCompletes := by
  unfold Obligations.RdregOutsideTheMapCompletes
  intro s a hl hid hq hb
  have hans : (answerRead a (s.started (.rdreg a)).afterRadio).2.chip = (s.started (.rdreg a)).afterRadio.chip := by
    simp [answerRead, hl]
  rcases memRead_result s.nextDraw a (s.started (.rdreg a)).afterRadio with ⟨u, hm, hc⟩ | hm | hm
  · obtain ⟨t, ht, hv, h1, h2⟩ := rdreg_completes hid hq hm
    refine ⟨t, ht, h1.status, h1.idle, hv ▸ h1.busLog, h1.valid, h1.keeps, h1.frf, h1.mode, h1.configured, fun ha => ?_⟩
    have hst : s.still := .inl ha
    obtain ⟨hchip, hlog⟩ := h2 hst
    refine ⟨hlog, ?_⟩
    rw [hchip, hc, hans, State.started_afterRadio_chip _ hid, hst.radioSteps]
  · exact absurd hm (memRead_not_failed hb.nextDraw)
  · exact absurd hm (memRead_not_failed hb.nextDraw)

/-! ### WRREG -/

/-- WRREG past its guards, where its frame is sent: the Radio has had its steps before both micro-steps. -/
def State.atWrregFrame (s : State) (a : RegAddr) (v : Byte) : State :=
  (s.started (.wrreg a v)).afterRadio.goto (.wrregFrame a v)

theorem State.atWrregFrame_env (s : State) (a : RegAddr) (v : Byte) :
    (s.atWrregFrame a v).env = (s.started (.wrreg a v)).env.tail := by
  simp [State.atWrregFrame]

@[simp] theorem State.atWrregFrame_cfg (s : State) (a : RegAddr) (v : Byte) : (s.atWrregFrame a v).cfg = s.cfg := by
  simp [State.atWrregFrame]

theorem State.still.atWrregFrame {s : State} (h : s.still) (a : RegAddr) (v : Byte) : (s.atWrregFrame a v).still :=
  State.still.tail (s := s.started (.wrreg a v)) h (s.atWrregFrame_env a v) (by simp)

theorem State.still.atWrregFrame_chip {s : State} (h : s.still) (a : RegAddr) (v : Byte) (hid : s.phase = .idle) :
    (s.atWrregFrame a v).afterRadio.chip = s.chip ∧ (s.atWrregFrame a v).afterRadio.txLog = s.txLog := by
  obtain ⟨hc, hl⟩ := (h.atWrregFrame a v).afterRadio_chip
  rw [hc, hl]
  simp [State.atWrregFrame, State.started_afterRadio_chip _ hid, State.started_afterRadio_txLog _ hid, h.radioSteps]

section
variable {s : State} {a : RegAddr} {v : Byte} (hid : s.phase = .idle) (hq : s.hostQuiet)
include hid hq

/-- Past its guards WRREG comes to its frame. -/
theorem wrreg_to_frame (ha : a ≠ s.cfg.map.addr .opMode)
    (hc : isCfgAddr s.cfg a = true → s.configured = true ∧ s.mode = .sleep) :
    exec (.wrreg a v) s = runToIdle (s.atWrregFrame a v) ∧ (s.atWrregFrame a v).hostQuiet := by
  have hguard : perform (s.started (.wrreg a v)).nextDraw (s.started (.wrreg a v)).afterRadio =
      .next (s.atWrregFrame a v) := by
    have hc' : ¬ (isCfgAddr s.cfg a = true ∧ ¬ (s.configured = true ∧ s.mode = .sleep)) := fun h => h.2 (hc h.1)
    simp only [perform, State.afterRadio_phase, State.started_phase, firstPhase, wrregGuard, State.afterRadio_cfg,
      State.started_cfg, State.afterRadio_configured, State.started_configured, State.afterRadio_mode,
      State.started_mode, if_neg ha, if_neg hc']
    rfl
  rw [exec_runs rfl hid (by nofun)]
  exact ⟨runToIdle_perform (s := s.started (.wrreg a v)) (by nofun) hq hguard,
    State.hostQuiet.tail (s := s.started (.wrreg a v)) hq (s.atWrregFrame_env a v)⟩

/-- WRREG past its guards, with a frame that completes. -/
theorem wrreg_completes {u : State} (ha : a ≠ s.cfg.map.addr .opMode)
    (hc : isCfgAddr s.cfg a = true → s.configured = true ∧ s.mode = .sleep)
    (hm : memWrite (s.atWrregFrame a v).nextDraw a v (s.atWrregFrame a v).afterRadio = .done v u) :
    ∃ t, exec (.wrreg a v) s = .next t ∧ t.rdata = s.rdata ∧ OneFrame s t ⟨true, a, v⟩ ∧
      (s.still → t.chip = u.chip ∧ t.txLog = s.txLog) := by
  obtain ⟨hrun, hq'⟩ := wrreg_to_frame (v := v) hid hq ha hc
  obtain ⟨hf, hcs, hb⟩ := memWrite_done hm
  have henv : (u.goto .wrregEnd).env = (s.atWrregFrame a v).env.tail := by simp [hf.env]
  have hph : (s.atWrregFrame a v).phase = .wrregFrame a v := rfl
  have hstep : perform (s.atWrregFrame a v).nextDraw (s.atWrregFrame a v).afterRadio = .next (u.goto .wrregEnd) := by
    simp [perform, hph, wrregFrame, hm]
  have hlast : perform (u.goto .wrregEnd).nextDraw (u.goto .wrregEnd).afterRadio =
      .next ((u.goto .wrregEnd).afterRadio.finish .ok) := by
    simp [perform, wrregEnd]
  refine ⟨(u.goto .wrregEnd).afterRadio.finish .ok, ?_, ?_, OneFrame.of_end (.inr ⟨_, rfl⟩) hf hcs hb ⟨_, rfl⟩,
    fun hst => ?_⟩
  · rw [hrun, runToIdle_perform (by simp [hph]) hq' hstep]
    exact runToIdle_last (by nofun) (hq'.tail henv) hlast rfl
  · simp [hf.rdata, State.atWrregFrame]
  · have h1 : (u.goto .wrregEnd).still := (hst.atWrregFrame a v).tail henv (by simp [hf.cfg])
    exact ⟨h1.afterRadio_chip.1, h1.afterRadio_chip.2.trans (hf.txLog.trans (hst.atWrregFrame_chip a v hid).2)⟩

end

/-- A register's own address is one of CFG_REGS exactly when the register is. -/
theorem isCfgAddr_addr {c : Cfg} (h : c.wf = true) (r : Reg) : isCfgAddr c (c.map.addr r) = r.isCfg := by
  simp [isCfgAddr, RegMap.lookup_addr (Cfg.wf_map h) r]

/-- What an attached chip's registers show after a store that is not the mode register's (20_memory.md R62). -/
structure StoredByte (cfg : Cfg) (r : Reg) (v : Byte) (c c' : Chip) : Prop where
  mode : c'.mode = c.mode
  rxwp : c'.rxwp = c.rxwp
  txPending : c'.txPending = c.txPending
  other : ∀ r', r' ≠ r → r' ≠ .fifo → r' ≠ .fifoAddrPtr → c'.value cfg r' = c.value cfg r'
  window : r = .fifo → c'.fifo.read c.fifoAddrPtr.toNat = v ∧ c'.fifoAddrPtr = c.fifoAddrPtr + 1#8 ∧
    ∀ a, a ≠ c.fifoAddrPtr.toNat → c'.fifo.read a = c.fifo.read a
  fifo : r ≠ .fifo → c'.fifo = c.fifo
  pointer : r ≠ .fifo → r ≠ .fifoAddrPtr → c'.fifoAddrPtr = c.fifoAddrPtr
  flags : r = .irqFlags → c'.irqFlags = c.irqFlags &&& ~~~v
  readOnly : r.isReadOnly = true → c' = c
  same : r ≠ .fifo → r ≠ .irqFlags → r.isReadOnly = false → c'.value cfg r = v

theorem Chip.store_storedByte (cfg : Cfg) {r : Reg} (v : Byte) (c : Chip) (ho : r ≠ .opMode) :
    StoredByte cfg r v c (c.store r v) where
  mode := (Chip.store_mode r v c).1
  rxwp := Chip.store_rxwp r v c
  txPending := Chip.store_txPending r v c
  other _ h hf hp := Chip.value_store_other cfg v c h hf hp
  window h := by
    subst h
    exact ⟨Mem.read_write_same _ _ _, rfl, fun a ha => Mem.read_write_other _ _ a v ha⟩
  fifo h := Chip.store_fifo v c h
  pointer h h' := Chip.store_fifoAddrPtr v c h h'
  flags h := by subst h; rfl
  readOnly h := Chip.store_readOnly v c h
  same hf hi hr := Chip.value_store_same cfg v c ho hf hi hr

/-- Settles O16: past the guards the chip stores the byte; with no chip attached nothing takes it. -/
theorem wrregWritesTheRegister : Obligations.WrregWritesTheRegister := by
  unfold Obligations.WrregWritesTheRegister
  constructor
  · intro s r v hwf hp hid hq hb ho hcfg
    have hb' : (s.atWrregFrame (s.cfg.map.addr r) v).busSound :=
      State.busSound.tail (s := s.started (.wrreg (s.cfg.map.addr r) v)) hb (State.atWrregFrame_env ..)
    have hmode : (s.atWrregFrame (s.cfg.map.addr r) v).afterRadio.chip.mode = s.chip.mode := by simp [State.atWrregFrame]
    have hw (k : Nat) : (s.atWrregFrame (s.cfg.map.addr r) v).afterRadio.chip.write s.cfg k r v =
        .ok ((s.atWrregFrame (s.cfg.map.addr r) v).afterRadio.chip.store r v) := by
      cases hc : r.isCfg with
      | true => exact Chip.write_cfg _ _ r v _ hc (hmode.trans (hcfg hc).2.2)
      | false => exact Chip.write_plain _ _ r v _ ho hc
    have hm := memWrite_reg (s := (s.atWrregFrame (s.cfg.map.addr r) v).afterRadio) (r := r) v hb'.nextDraw (by simpa using hwf)
      (by simpa using hp) (by simpa using hw _)
    simp only [State.afterRadio_cfg, State.atWrregFrame_cfg] at hm
    obtain ⟨t, ht, hv, h1, h2⟩ := wrreg_completes hid hq
      (fun h => ho (RegMap.addr_inj (Cfg.wf_map hwf) h))
      (fun h => ⟨(hcfg (isCfgAddr_addr hwf r ▸ h)).1, (hcfg (isCfgAddr_addr hwf r ▸ h)).2.1⟩) hm
    refine ⟨t, ht, h1.status, h1.idle, h1.busLog, h1.valid, h1.keeps, hv, h1.frf, h1.mode, h1.configured, h1.resetN,
      h1.csN, fun ha => ?_⟩
    obtain ⟨hc, hl⟩ := h2 (.inl ha)
    have hst : s.still := .inl ha
    have hs : StoredByte s.cfg r v s.chip t.chip := by
      rw [hc]
      simp only [(hst.atWrregFrame_chip (s.cfg.map.addr r) v hid).1]
      exact Chip.store_storedByte s.cfg v s.chip ho
    exact ⟨hl, hs.mode, hs.rxwp, hs.txPending, hs.other, hs.window, hs.fifo, hs.pointer, hs.flags, hs.readOnly, hs.same⟩
  · intro s a v hp hid hq hb ha hcfg
    have hb' : (s.atWrregFrame a v).busSound :=
      State.busSound.tail (s := s.started (.wrreg a v)) hb (State.atWrregFrame_env ..)
    have hm := memWrite_absent (s := (s.atWrregFrame a v).afterRadio) a v hb'.nextDraw (by simpa using hp)
    obtain ⟨t, ht, hv, h1, h2⟩ := wrreg_completes hid hq ha (fun h => by
      obtain ⟨r, hl, hr⟩ := (Option.any_eq_true _ _).mp h
      exact hcfg r hr hl) hm
    have hst : s.still := .inr hp
    obtain ⟨hc, hl⟩ := h2 hst
    exact ⟨t, ht, h1.status, h1.idle, h1.busLog, h1.valid, h1.keeps, hv, h1.frf, h1.mode, h1.configured, h1.resetN,
      h1.csN, hl, hc.trans (hst.atWrregFrame_chip a v hid).1⟩

/-- Settles O17: a WRREG its guard refuses ends at its first micro-step. -/
theorem wrregGuardsRefuse : Obligations.WrregGuardsRefuse := by
  unfold Obligations.WrregGuardsRefuse
  intro s r v code hwf hid hq hcode
  have hguard : perform (s.started (.wrreg (s.cfg.map.addr r) v)).nextDraw
      (s.started (.wrreg (s.cfg.map.addr r) v)).afterRadio =
        .next ((s.started (.wrreg (s.cfg.map.addr r) v)).afterRadio.finish code) := by
    simp only [perform, State.afterRadio_phase, State.started_phase, firstPhase, wrregGuard, State.afterRadio_cfg,
      State.started_cfg, State.afterRadio_configured, State.started_configured, State.afterRadio_mode,
      State.started_mode, isCfgAddr_addr hwf]
    rcases hcode with ⟨rfl, rfl⟩ | ⟨hr, hc, rfl⟩
    · rw [if_pos rfl]; rfl
    · have ho : s.cfg.map.addr r ≠ s.cfg.map.addr .opMode := fun h => by
        rw [RegMap.addr_inj (Cfg.wf_map hwf) h] at hr; cases hr
      rw [if_neg ho, if_pos ⟨hr, hc⟩]; rfl
  refine ⟨_, (exec_runs rfl hid (by nofun)).trans
    (runToIdle_last (s := s.started (.wrreg (s.cfg.map.addr r) v)) (by nofun) hq hguard rfl), rfl, rfl, ?_⟩
  exact ⟨by simp, by simp, ⟨by simp, by simp, by simp, by simp⟩, by simp, by simp, by simp, by simp, by simp, by simp,
    State.started_afterRadio_chip _ hid⟩

/-- Settles O44: each guard of the chip names its own refusal; an unmapped WRREG passes the guards of the core. -/
theorem meaninglessWriteFramesAreRefused : Obligations.MeaninglessWriteFramesAreRefused := by
  unfold Obligations.MeaninglessWriteFramesAreRefused
  intro s d hwf hp
  have hmap := RegMap.lookup_addr (Cfg.wf_map hwf)
  have hopMode {e : Refusal} (he : s.chip.writeOpMode s.cfg s.free d = .error e) :
      exec (.busWriteOpMode d) s = .refused e :=
    frameOutcome_refused (answerWrite_refused hp (.inr ⟨.opMode, hmap .opMode, (Chip.write_opMode ..).trans he⟩))
  refine ⟨fun r hr hm => ?_, fun hd => hopMode ?_, fun m hd hm hl => hopMode ?_, fun a hl => ?_,
    fun a hl hid hq hb => ?_⟩
  · exact frameOutcome_refused (answerWrite_refused hp (.inr ⟨r, hmap r, Chip.write_cfg_refused hr hm⟩))
  · simp [Chip.writeOpMode, mode?_reserved hd]
  · rw [Chip.writeOpMode, hd, ModeCodes.mode?_code (Cfg.wf_codes hwf)]
    exact if_pos ⟨hm, hl⟩
  · exact frameOutcome_refused (answerWrite_refused hp (.inl ⟨hl, rfl⟩))
  · have ha : a ≠ s.cfg.map.addr .opMode := by
      rintro rfl
      rw [hmap] at hl; cases hl
    obtain ⟨hrun, hq'⟩ := wrreg_to_frame (v := d) hid hq ha (by simp [isCfgAddr, hl])
    have hb' :=
      (State.busSound.tail (s := s.started (.wrreg a d)) hb (s.atWrregFrame_env a d)).nextDraw
    have hans : answerWrite a d (s.atWrregFrame a d).afterRadio = .error .unmappedWrite :=
      answerWrite_refused (by simpa using hp) (.inl ⟨by simpa using hl, rfl⟩)
    have hph : (s.atWrregFrame a d).phase = .wrregFrame a d := rfl
    rw [hrun, runToIdle_step (by simp [hph]), microStep_eq hq'.nextDraw]
    simp [perform, hph, wrregFrame, memWrite_refused hb' hans]

/-! ### SYNTH -/

/-- SYNTH at a frequency that has a coefficient: two micro-steps, the coefficient into FRF. -/
theorem synth_completes {s : State} {n : BitVec 24} (hid : s.phase = .idle) (hq : s.hostQuiet)
    (hn : synthesize? s.radio.freq.toNat s.cfg.xtalHz s.cfg.resBits = some n) :
    exec .synth s = .next
      (({ ((s.started .synth).afterRadio.goto (.synthEnd n)).afterRadio with frf := n } : State).finish .ok) := by
  have hstep : perform (s.started .synth).nextDraw (s.started .synth).afterRadio =
      .next ((s.started .synth).afterRadio.goto (.synthEnd n)) := by
    simp [perform, firstPhase, synthEval, hn]
  have hq' : ((s.started .synth).afterRadio.goto (.synthEnd n)).hostQuiet :=
    State.hostQuiet.tail (s := s.started .synth) hq (by simp)
  rw [exec_runs rfl hid (by nofun), runToIdle_perform (s := s.started .synth) (by nofun) hq hstep]
  exact runToIdle_last (by nofun) hq' (by simp [perform, synthEnd]) rfl

/-- SYNTH at a frequency without a coefficient is refused at its first micro-step. -/
theorem synth_refuses {s : State} (hid : s.phase = .idle) (hq : s.hostQuiet)
    (hn : synthesize? s.radio.freq.toNat s.cfg.xtalHz s.cfg.resBits = none) :
    exec .synth s = .next ((s.started .synth).afterRadio.finish .configError) := by
  rw [exec_runs rfl hid (by nofun)]
  refine runToIdle_last (s := s.started .synth) (by nofun) hq ?_ rfl
  simp [perform, firstPhase, synthEval, hn, State.refuse]

/-- Settles O18: the synthesizer has a value exactly where the statement's arithmetic says, and SYNTH touches nothing
else. -/
theorem synthWritesTheCoefficient : Obligations.SynthWritesTheCoefficient := by
  unfold Obligations.SynthWritesTheCoefficient
  intro s hid hq
  have hstill (hst : s.still) : (s.started .synth).afterRadio.chip = s.chip ∧
      (s.started .synth).afterRadio.txLog = s.txLog := by
    rw [State.started_afterRadio_chip _ hid, State.started_afterRadio_txLog _ hid, hst.radioSteps]
    exact ⟨rfl, rfl⟩
  cases hn : synthesize? s.radio.freq.toNat s.cfg.xtalHz s.cfg.resBits with
  | some n =>
    obtain ⟨hpos, hval⟩ := synthesize?_eq_some_iff.mp hn
    refine ⟨_, synth_completes hid hq hn, rfl, by simp, by simp, ⟨by simp, by simp, by simp, by simp⟩, by simp, by simp,
      by simp, by simp, by simp, fun ha => ?_, fun n' _ hn' => ⟨?_, rfl⟩, fun hno => ?_⟩
    · have hst : ((s.started .synth).afterRadio.goto (.synthEnd n)).still :=
        State.still.tail (s := s.started .synth) (.inl ha) (by simp) (by simp)
      exact ⟨hst.afterRadio_chip.1.trans (hstill (.inl ha)).1, hst.afterRadio_chip.2.trans (hstill (.inl ha)).2⟩
    · exact BitVec.eq_of_toNat_eq (hval.symm.trans hn')
    · rw [frfNat] at hval
      have := n.isLt
      omega
  | none =>
    have hnone := synthesize?_eq_none_iff.mp hn
    refine ⟨_, synth_refuses hid hq hn, rfl, by simp, by simp, ⟨by simp, by simp, by simp, by simp⟩, by simp, by simp,
      by simp, by simp, by simp, fun ha => hstill (.inl ha), fun n' hpos hn' => ?_, fun _ => ⟨by simp, rfl⟩⟩
    have := n'.isLt
    rw [frfNat] at hnone
    omega

end Sys2Proof.Machine
end

section
/-! A command as a session of completed frames: what each kind of micro-step does to the core and to the chip, attached
or not, and how a property of the Sequencer's positions is carried from the first micro-step to Idle. -/

namespace Sys2Proof.Machine

/-! ### Sessions -/

/-- What the premises of a command make of every state inside it: the operands are the command's, and what is left of
the script is quiet. -/
structure Session (s u : State) : Prop where
  keeps : KeepsOperands s u
  host : u.hostQuiet
  bus : u.busSound
  air : s.airQuiet → u.airQuiet

theorem Session.step {s u t : State} (h : Session s u) (hm : microStep u = .next t) : Session s t := by
  have hk := perform_keeps (microStep_next hm).2
  have he := microStep_env hm
  refine ⟨⟨?_, ?_, ?_, ?_⟩, h.host.tail he, h.bus.tail he, fun ha => (h.air ha).tail he⟩
  · simpa using hk.cfg.trans (by simpa using h.keeps.cfg)
  · simpa using hk.radio.trans (by simpa using h.keeps.radio)
  · simpa using hk.txBuf.trans (by simpa using h.keeps.txBuf)
  · simpa using hk.inbox.trans (by simpa using h.keeps.inbox)

/-- The Radio's steps leave the operands alone. -/
theorem KeepsOperands.afterRadio {s u : State} (h : KeepsOperands s u) : KeepsOperands s u.afterRadio :=
  ⟨by simpa using h.cfg, by simpa using h.radio, by simpa using h.txBuf, by simpa using h.inbox⟩

/-- A property that holds after a command's first micro-step, and that the Radio's steps and every micro-step with a
completed frame keep, makes the command end and holds at its end. -/
theorem exec_session_first {i : Instr} {s : State} {I : State → Prop} (hi : isCommand i = true) (hid : s.phase = .idle)
    (hc : needsConfigured i = true → s.configured = true) (hq : s.hostQuiet) (hb : s.busSound)
    (hfirst : ∃ t, perform s.nextDraw (s.started i).afterRadio = .next t ∧ I t)
    (hradio : ∀ u, Session s u → I u → I u.afterRadio)
    (hstep : ∀ d u, d.fate = .completes → KeepsOperands s u → I u → u.phase ≠ .idle →
      ∃ t, perform d u = .next t ∧ I t) :
    ∃ t, exec i s = .next t ∧ t.phase = .idle ∧ KeepsOperands s t ∧ I t := by
  have hs : Session s (s.started i) := ⟨⟨rfl, rfl, rfl, rfl⟩, hq, hb, fun ha => ha⟩
  obtain ⟨t₁, ht₁, hI₁⟩ := hfirst
  have hm₁ : microStep (s.started i) = .next t₁ := (microStep_eq hs.host.nextDraw).trans ht₁
  obtain ⟨t, ht, htid, hses, hI⟩ := runToIdle_total (I := fun u => Session s u ∧ I u)
    (fun u ⟨hu, hI⟩ hne => by
      obtain ⟨t, ht, hIt⟩ := hstep u.nextDraw u.afterRadio hu.bus.nextDraw hu.keeps.afterRadio (hradio u hu hI)
        (by simpa using hne)
      have hm : microStep u = .next t := (microStep_eq hu.host.nextDraw).trans ht
      exact ⟨t, hm, hu.step hm, hIt⟩)
    ⟨hs.step hm₁, hI₁⟩
  rw [exec_runs hi hid hc, runToIdle_next (firstPhase_ne_idle hi) hm₁]
  exact ⟨t, ht, htid, hses.keeps, hI⟩

/-- The same for a property that holds from the start. -/
theorem exec_session {i : Instr} {s : State} {I : State → Prop} (hi : isCommand i = true) (hid : s.phase = .idle)
    (hc : needsConfigured i = true → s.configured = true) (hq : s.hostQuiet) (hb : s.busSound)
    (hstart : I (s.started i)) (hradio : ∀ u, Session s u → I u → I u.afterRadio)
    (hstep : ∀ d u, d.fate = .completes → KeepsOperands s u → I u → u.phase ≠ .idle →
      ∃ t, perform d u = .next t ∧ I t) :
    ∃ t, exec i s = .next t ∧ t.phase = .idle ∧ KeepsOperands s t ∧ I t := by
  have hs : Session s (s.started i) := ⟨⟨rfl, rfl, rfl, rfl⟩, hq, hb, fun ha => ha⟩
  refine exec_session_first hi hid hc hq hb ?_ hradio hstep
  exact hstep _ _ hb.nextDraw hs.keeps.afterRadio (hradio _ hs hstart) (by simpa using firstPhase_ne_idle hi)

/-! ### Frames that complete -/

/-- What a completed frame does to the machine but for the chip of one that is attached. -/
structure FrameSent (s u : State) (r : BusRecord) : Prop extends FrameOnly s u where
  csN : u.csN = true
  busLog : u.busLog = s.busLog ++ [r]
  absent : s.cfg.chipPresent = false → u.chip = s.chip

/-- A write frame the chip takes, if there is one. -/
theorem memWrite_sent {d : Draw} {s : State} {r : Reg} {v : Byte} {c : Chip} (hd : d.fate = .completes)
    (hwf : s.cfg.wf = true) (hw : s.cfg.chipPresent = true → s.chip.write s.cfg s.free r v = .ok c) :
    ∃ u, memWrite d (s.cfg.map.addr r) v s = .done v u ∧ FrameSent s u (wrote s.cfg r v) ∧
      (s.cfg.chipPresent = true → u.chip = c) := by
  cases hp : s.cfg.chipPresent with
  | true =>
    have hm := memWrite_reg v hd hwf hp (hw hp)
    obtain ⟨hf, hcs, hb⟩ := memWrite_done hm
    exact ⟨_, hm, ⟨hf, hcs, hb, by simp [hp]⟩, fun _ => rfl⟩
  | false =>
    have hm := memWrite_absent (s.cfg.map.addr r) v hd hp
    obtain ⟨hf, hcs, hb⟩ := memWrite_done hm
    exact ⟨_, hm, ⟨hf, hcs, hb, fun _ => rfl⟩, nofun⟩

/-- A write frame to a register other than the mode register, a configuration register in Sleep. -/
theorem memWrite_store {d : Draw} {s : State} {r : Reg} (v : Byte) (hd : d.fate = .completes) (hwf : s.cfg.wf = true)
    (ho : r ≠ .opMode) (hc : r.isCfg = true → s.chipSleeps) :
    ∃ u, memWrite d (s.cfg.map.addr r) v s = .done v u ∧ FrameSent s u (wrote s.cfg r v) ∧
      (s.cfg.chipPresent = true → u.chip = s.chip.store r v) := by
  refine memWrite_sent hd hwf fun hp => ?_
  cases hr : r.isCfg with
  | true => exact Chip.write_cfg _ _ r v _ hr (hc hr hp)
  | false => exact Chip.write_plain _ _ r v _ ho hr

/-- A read frame of a register. -/
theorem memRead_sent {d : Draw} {s : State} (r : Reg) (hd : d.fate = .completes) (hwf : s.cfg.wf = true) :
    ∃ v u, memRead d (s.cfg.map.addr r) s = .done v u ∧ FrameSent s u (didRead s.cfg r v) ∧
      (s.cfg.chipPresent = true → v = s.chip.value s.cfg r ∧ u.chip = s.chip.afterRead r) ∧
      (r = .version → v = s.cfg.chipVersion) := by
  cases hp : s.cfg.chipPresent with
  | true =>
    have hm := memRead_reg (r := r) hd hwf hp
    obtain ⟨hf, hcs, hb⟩ := memRead_done hm
    exact ⟨_, _, hm, ⟨hf, hcs, hb, by simp [hp]⟩, fun _ => ⟨rfl, rfl⟩, by rintro rfl; rfl⟩
  | false =>
    obtain ⟨v, k, ht, hver, -⟩ := transact_read_absent (s.cfg.map.addr r) s.cfg.dummy hp
    have hm := memRead_of_transact hd ht
    obtain ⟨hf, hcs, hb⟩ := memRead_done hm
    exact ⟨v, _, hm, ⟨hf, hcs, hb, fun _ => rfl⟩, nofun,
      fun hr => hver (hr ▸ RegMap.lookup_addr (Cfg.wf_map hwf) r)⟩

/-- The chip after a mode write with a mode byte (42_mode.md R139). -/
def Chip.setMode (cfg : Cfg) (k : Nat) (m : Mode) (c : Chip) : Chip :=
  c.enterMode k m ((modeByte cfg m).extractLsb' 3 5)

/-- The first micro-step of SetMode, at a chip that takes the mode byte. -/
theorem setModeFrame_sent {d : Draw} {s : State} (m : Mode) (ph : Phase) (hd : d.fate = .completes)
    (hwf : s.cfg.wf = true) (hl : s.cfg.chipPresent = true → s.chip.mode = .sleep ∨ s.chip.lora s.cfg = true) :
    ∃ u, setModeFrame d m ph s = .next (({ u with mode := m } : State).goto ph) ∧
      FrameSent s u (wrote s.cfg .opMode (modeByte s.cfg m)) ∧
      (s.cfg.chipPresent = true → u.chip = s.chip.setMode s.cfg s.free m) := by
  obtain ⟨u, hu, hf, hc⟩ := memWrite_sent (s := s) (r := .opMode) hd hwf fun hp =>
    (Chip.write_opMode ..).trans (Chip.writeOpMode_modeByte hwf s.free m s.chip (hl hp))
  exact ⟨u, setModeFrame_of_done hu, hf, hc⟩

/-! ### The chip in a mode -/

@[simp] theorem Chip.setMode_mode (cfg : Cfg) (k : Nat) (m : Mode) (c : Chip) : (c.setMode cfg k m).mode = m := rfl

@[simp] theorem Chip.setMode_txPending (cfg : Cfg) (k : Nat) (m : Mode) (c : Chip) :
    (c.setMode cfg k m).txPending = decide (m = .tx) := rfl

@[simp] theorem Chip.setMode_rxwp (cfg : Cfg) (k : Nat) (m : Mode) (c : Chip) :
    (c.setMode cfg k m).rxwp = if m = .rxContinuous then c.fifoRxBase else c.rxwp := rfl

theorem Chip.setMode_fifo {m : Mode} (cfg : Cfg) (k : Nat) (c : Chip) (h : m ≠ .sleep) :
    (c.setMode cfg k m).fifo = c.fifo := if_neg h

/-- A mode write changes no register but the mode register, and the FIFO only on entering Sleep. -/
theorem Chip.value_setMode {r : Reg} (cfg : Cfg) (k : Nat) (m : Mode) (c : Chip) (ho : r ≠ .opMode) (hf : r ≠ .fifo) :
    (c.setMode cfg k m).value cfg r = c.value cfg r := by
  cases r <;> first | contradiction | rfl

theorem Chip.setMode_lora {cfg : Cfg} (h : cfg.wf = true) (k : Nat) (m : Mode) (c : Chip) :
    (c.setMode cfg k m).lora cfg = true := Chip.lora_enterMode h k m c

/-- The mode register reads as the mode byte written (10_state.md R34). -/
theorem Chip.setMode_opModeByte {cfg : Cfg} (h : cfg.wf = true) (k : Nat) (m : Mode) (c : Chip) :
    (c.setMode cfg k m).opModeByte cfg = modeByte cfg m := by
  rw [Chip.opModeByte, ← opMode_byte_parts (modeByte cfg m), modeByte_code h]
  rfl

/-- Record and chip agree after the mode frame (42_mode.md R136). -/
theorem modesAgree_setMode {s u : State} {m : Mode} {ph : Phase} (hwf : s.cfg.wf = true) (hg : u.cfg = s.cfg)
    (hc : s.cfg.chipPresent = true → u.chip = s.chip.setMode s.cfg s.free m) :
    (({ u with mode := m } : State).goto ph).modesAgree := by
  intro hp
  have hp' : s.cfg.chipPresent = true := hg ▸ hp
  show u.chip.mode = m ∧ u.chip.lora u.cfg = true
  rw [hc hp', hg]
  exact ⟨rfl, Chip.setMode_lora hwf _ _ _⟩

/-- A frame that leaves the chip's mode register alone leaves record and chip in agreement. -/
theorem FrameSent.modesAgree {s u : State} {r : BusRecord} (hf : FrameSent s u r) (ha : s.modesAgree)
    (hc : s.cfg.chipPresent = true → u.chip.mode = s.chip.mode ∧ u.chip.opHigh = s.chip.opHigh) : u.modesAgree := by
  intro hp
  have hp' : s.cfg.chipPresent = true := hf.cfg ▸ hp
  obtain ⟨hmode, hlora⟩ := ha hp'
  obtain ⟨hm, ho⟩ := hc hp'
  exact ⟨by rw [hm, hmode, hf.mode], by rw [hf.cfg, ← hlora, Chip.lora, Chip.lora, ho]⟩

theorem FrameSent.modesAgree_store {s u : State} {rec : BusRecord} {r : Reg} {v : Byte} (hf : FrameSent s u rec)
    (ha : s.modesAgree) (hc : s.cfg.chipPresent = true → u.chip = s.chip.store r v) : u.modesAgree :=
  hf.modesAgree ha fun hp => hc hp ▸ Chip.store_mode r v s.chip

/-- A read moves the FIFO pointer at most. -/
theorem Chip.afterRead_keeps (r : Reg) (c : Chip) :
    (c.afterRead r).mode = c.mode ∧ (c.afterRead r).opHigh = c.opHigh := by
  simp only [Chip.afterRead]
  split <;> exact ⟨rfl, rfl⟩

theorem Chip.afterRead_other {r : Reg} (c : Chip) (h : r ≠ .fifo) : c.afterRead r = c := if_neg h

theorem FrameSent.modesAgree_read {s u : State} {rec : BusRecord} {r : Reg} (hf : FrameSent s u rec)
    (ha : s.modesAgree) (hc : s.cfg.chipPresent = true → u.chip = s.chip.afterRead r) : u.modesAgree :=
  hf.modesAgree ha fun hp => hc hp ▸ Chip.afterRead_keeps r s.chip

/-! ### The Radio's steps between the micro-steps -/

/-- No Radio step changes a configuration register. -/
theorem State.afterRadio_value_cfg (u : State) (cfg : Cfg) {r : Reg} (h : r.isCfg = true) :
    u.afterRadio.chip.value cfg r = u.chip.value cfg r := by
  cases r <;> first | (cases h; done) | simp [Chip.value]

theorem State.afterRadio_opModeByte (u : State) (cfg : Cfg) :
    u.afterRadio.chip.opModeByte cfg = u.chip.opModeByte cfg := by
  simp [Chip.opModeByte]

theorem State.modesAgree.afterRadio {u : State} (h : u.modesAgree) : u.afterRadio.modesAgree :=
  h.congr (by simp) (by simp) (by simp) (by simp)

/-- No Radio step starts a transmission. -/
theorem radioStep_txPending (e : RadioEvent) {u : State} (h : u.chip.txPending = false) :
    (radioStep e u).chip.txPending = false := by
  simp only [radioStep]
  split
  · cases e with
    | txDone => rfl
    | rxPacket data rssi snr bad => exact h
    | irqOther m => exact h
  · exact h

theorem radioSteps_txPending (es : List RadioEvent) {u : State} (h : u.chip.txPending = false) :
    (radioSteps es u).chip.txPending = false := by
  induction es generalizing u with
  | nil => exact h
  | cons e es ih => exact ih (radioStep_txPending e h)

theorem State.afterRadio_txPending {u : State} (h : u.chip.txPending = false) :
    u.afterRadio.chip.txPending = false := radioSteps_txPending (u := { u with env := u.env.tail }) _ h

/-! ### With no chip attached -/

/-- With no chip attached no micro-step changes the chip (log 12). -/
theorem perform_absent {d : Draw} {s t : State} (hp : s.cfg.chipPresent = false) (h : perform d s = .next t) :
    t.chip = s.chip := by
  by_cases hr : s.phase.assertsReset = true
  · obtain ⟨ws, hph⟩ : ∃ ws, s.phase = .cfgResetLow ws := by
      cases hph : s.phase <;> rw [hph] at hr <;> cases hr
      exact ⟨_, rfl⟩
    simp only [perform, hph, cfgResetLow, hp] at h
    cases h; rfl
  · have hc := perform_chip h
    generalize t.chip = c at hc ⊢
    cases hc with
    | same => rfl
    | reset hr' _ => exact absurd hr' hr
    | wrote _ hu =>
      simp only [answerWrite, hp, Bool.false_eq_true, if_false, Except.ok.injEq] at hu
      rw [← hu]
    | didRead a =>
      simp only [answerRead, hp, Bool.false_eq_true, if_false]
      split <;> rfl

/-- Where the Radio can do nothing no command changes TXLOG. -/
theorem runToIdle_still {s t : State} (hst : s.still) (h : runToIdle s = .next t) : t.txLog = s.txLog := by
  refine (runToIdle_keeps (I := fun u => u.still ∧ u.txLog = s.txLog) (fun u v ⟨hu, hlog⟩ _ hm => ?_) ⟨hst, rfl⟩ h).2.2
  have hkeep := perform_keeps (microStep_next hm).2
  exact ⟨hu.tail (microStep_env hm) (by simpa using hkeep.cfg), by rw [hkeep.txLog, hu.afterRadio_chip.2, hlog]⟩

/-- With no chip attached no command changes the chip state or TXLOG. -/
theorem runToIdle_absent {s t : State} (hp : s.cfg.chipPresent = false) (h : runToIdle s = .next t) :
    t.chip = s.chip ∧ t.txLog = s.txLog := by
  refine ⟨?_, runToIdle_still (.inr hp) h⟩
  refine (runToIdle_keeps (I := fun u => u.cfg = s.cfg ∧ u.chip = s.chip) (fun u v ⟨hcfg, hchip⟩ _ hm => ?_)
    ⟨rfl, rfl⟩ h).2.2
  have hu : u.still := .inr (hcfg ▸ hp)
  have hq := (microStep_next hm).2
  exact ⟨by simpa using (perform_keeps hq).cfg.trans (by simpa using hcfg),
    by rw [perform_absent (by simpa [hcfg] using hp) hq, hu.afterRadio_chip.1, hchip]⟩

end Sys2Proof.Machine
end

section
/-! Proofs about CONFIGURE (42_mode.md section 1): validation, the reset pulse, the fifteen frames in order, and what the
chip's registers hold at the end. -/

namespace Sys2Proof.Machine

/-! ### Validation -/

theorem inRanges_iff {c : Cfg} {rc : RadioConfig} :
    inRanges c rc = true ↔ (c.freqMinHz ≤ rc.freq.toNat ∧ rc.freq.toNat ≤ c.freqMaxHz) ∧
      (7 ≤ rc.sf.toNat ∧ rc.sf.toNat ≤ 12) ∧ (5 ≤ rc.cr.toNat ∧ rc.cr.toNat ≤ 8) ∧
      (c.txpMin ≤ rc.txPower.toInt ∧ rc.txPower.toInt ≤ c.txpMax) := by
  simp only [inRanges, Bool.and_eq_true, decide_eq_true_eq, and_assoc]
  rfl

/-- A valid RadioConfig has a plan: its coefficient and the twelve writes (42_mode.md R131, R133). -/
theorem configPlan_of_valid {c : Cfg} {rc : RadioConfig} {n : BitVec 24} {code : BitVec 4}
    (h : ValidConfig c rc n code) :
    configPlan c rc = some (n, configWrites c rc n code) := by
  have hn : synthesize? rc.freq.toNat c.xtalHz c.resBits = some n := synthesize?_eq_some_iff.mpr ⟨h.xtal, h.frf⟩
  have hr : inRanges c rc = true := inRanges_iff.mpr ⟨h.freq, h.sf, h.cr, h.txPower⟩
  simp only [configPlan, hn, h.bw, hr, if_true]

/-- A RadioConfig without a plan is invalid. -/
theorem configPlan_eq_none {c : Cfg} {rc : RadioConfig} (h : ∀ n code, ¬ ValidConfig c rc n code) :
    configPlan c rc = none := by
  cases hp : configPlan c rc with
  | none => rfl
  | some p =>
    obtain ⟨hn, code, hbw, hr, -⟩ := configPlan_some (n := p.1) (ws := p.2) hp
    obtain ⟨hfreq, hsf, hcr, htx⟩ := inRanges_iff.mp hr
    obtain ⟨hx, hf⟩ := synthesize?_eq_some_iff.mp hn
    exact absurd ⟨hfreq, hx, hf, hsf, hbw, hcr, htx⟩ (h p.1 code)

/-- Settles O25: validation ends the command at its first micro-step. -/
theorem invalidRadioConfigIsRejected : Obligations.InvalidRadioConfigIsRejected := by
  unfold Obligations.InvalidRadioConfigIsRejected
  intro s hid hq hno
  have hlast : perform (s.started .configure).nextDraw (s.started .configure).afterRadio =
      .next (({ (s.started .configure).afterRadio with configured := false } : State).raiseFatal .configError) := by
    simp [perform, firstPhase, cfgValidate, configPlan_eq_none hno]
  refine ⟨_, (exec_runs rfl hid (by nofun)).trans (runToIdle_last (s := s.started .configure) (by nofun) hq hlast rfl),
    rfl, rfl, rfl, ?_⟩
  exact ⟨by simp, by simp, by simp, by simp, rfl, ⟨by simp, by simp, by simp, by simp⟩, by simp,
    State.started_afterRadio_chip _ hid⟩

/-! ### The plan -/

/-- The frames of the configuration writes (42_mode.md R134). -/
def writeFrames (c : Cfg) (ws : List (Reg × Byte)) : List BusRecord := ws.map fun w => wrote c w.1 w.2

/-- Each register written holds the byte written. -/
def Chip.holds (cfg : Cfg) (ws : List (Reg × Byte)) (c : Chip) : Prop := ∀ w ∈ ws, c.value cfg w.1 = w.2

theorem configWrites_nodup (c : Cfg) (rc : RadioConfig) (n : BitVec 24) (code : BitVec 4) :
    ((configWrites c rc n code).map Prod.fst).Nodup := by
  simp [configWrites]

/-- One more configuration register is written. -/
theorem Chip.holds.store {cfg : Cfg} {ws : List (Reg × Byte)} {w : Reg × Byte} {c : Chip} (h : c.holds cfg ws)
    (hws : ∀ w' ∈ ws, w'.1.isCfg = true ∧ w'.1 ≠ w.1) (hw : w.1.isCfg = true) :
    (c.store w.1 w.2).holds cfg (ws ++ [w]) := by
  have hcfg {r : Reg} (hr : r.isCfg = true) : r ≠ .fifo ∧ r ≠ .fifoAddrPtr ∧ r ≠ .opMode ∧ r ≠ .irqFlags ∧
      r.isReadOnly = false := by
    cases r <;> simp [Reg.isCfg, Reg.isReadOnly] at hr ⊢
  intro w' hw'
  rcases List.mem_append.mp hw' with hold | hnew
  · obtain ⟨hr, hne⟩ := hws w' hold
    obtain ⟨hf, hp, -⟩ := hcfg hr
    rw [Chip.value_store_other cfg w.2 c hne hf hp, h w' hold]
  · obtain rfl := List.mem_singleton.mp hnew
    obtain ⟨hf, -, ho, hi, hr⟩ := hcfg hw
    exact Chip.value_store_same cfg w'.2 c ho hf hi hr

theorem Chip.holds.setMode {cfg : Cfg} {ws : List (Reg × Byte)} {c : Chip} (h : c.holds cfg ws)
    (hws : ∀ w ∈ ws, w.1.isCfg = true) (k : Nat) (m : Mode) : (c.setMode cfg k m).holds cfg ws := by
  intro w hw
  have hr := hws w hw
  rw [Chip.value_setMode cfg k m c (by rintro he; rw [he] at hr; cases hr) (by rintro he; rw [he] at hr; cases hr),
    h w hw]

theorem Chip.holds.afterRadio {cfg : Cfg} {ws : List (Reg × Byte)} {u : State} (h : u.chip.holds cfg ws)
    (hws : ∀ w ∈ ws, w.1.isCfg = true) : u.afterRadio.chip.holds cfg ws :=
  fun w hw => (State.afterRadio_value_cfg u cfg (hws w hw)).trans (h w hw)

/-! ### The positions of a CONFIGURE whose frames complete -/

/-- What the core holds after the reset pulse: CONFIGURED, the record, and the frames sent so far. -/
structure ConfigureAt (s : State) (n : BitVec 24) (m : Mode) (conf : Bool) (recs : List BusRecord) (u : State) :
    Prop where
  frf : u.frf = n
  configured : u.configured = conf
  mode : u.mode = m
  resetN : u.resetN = true
  csN : u.csN = true
  busLog : u.busLog = s.busLog ++ recs

theorem ConfigureAt.afterRadio {s u : State} {n : BitVec 24} {m : Mode} {b : Bool} {recs : List BusRecord}
    (h : ConfigureAt s n m b recs u) : ConfigureAt s n m b recs u.afterRadio :=
  ⟨by simp [h.frf], by simp [h.configured], by simp [h.mode], by simp [h.resetN], by simp [h.csN], by simp [h.busLog]⟩

theorem ConfigureAt.sent {s u v : State} {n : BitVec 24} {m : Mode} {b : Bool} {recs : List BusRecord} {r : BusRecord}
    (h : ConfigureAt s n m b recs u) (hf : FrameSent u v r) : ConfigureAt s n m b (recs ++ [r]) v :=
  ⟨hf.frf.trans h.frf, hf.configured.trans h.configured, hf.mode.trans h.mode, hf.resetN.trans h.resetN, hf.csN,
    by rw [hf.busLog, h.busLog, List.append_assoc]⟩

/-- An attached chip after CONFIGURE's return to Standby. -/
structure ConfiguredChip (cfg : Cfg) (plan : List (Reg × Byte)) (c : Chip) : Prop where
  mode : c.mode = .standby
  opMode : c.opModeByte cfg = modeByte cfg .standby
  txPending : c.txPending = false
  holds : c.holds cfg plan

/-- The frames up to the return to Standby. -/
def standbyFrames (c : Cfg) (plan : List (Reg × Byte)) : List BusRecord :=
  wrote c .opMode (modeByte c .sleep) :: writeFrames c plan ++ [wrote c .opMode (modeByte c .standby)]

/-- The state at each position of a CONFIGURE of a valid RadioConfig whose frames complete. -/
inductive Configuring (s : State) (n : BitVec 24) (plan : List (Reg × Byte)) (u : State) : Prop
  | validate (hph : u.phase = .cfgValidate) (hb : u.busLog = s.busLog)
  | resetLow (hph : u.phase = .cfgResetLow plan) (hb : u.busLog = s.busLog) (hf : u.frf = n)
      (hc : u.configured = false)
  | pulse (hph : u.phase = .cfgDelayLow plan ∨ u.phase = .cfgResetHigh plan) (hb : u.busLog = s.busLog) (hf : u.frf = n)
      (hc : u.configured = false) (hs : u.chipSleeps)
  | reset (hph : u.phase = .cfgDelayHigh plan ∨ u.phase = .cfgSleep plan) (hb : u.busLog = s.busLog) (hf : u.frf = n)
      (hc : u.configured = false) (hs : u.chipSleeps) (hr : u.resetN = true)
  | sleepSettle (hph : u.phase = .cfgSleepSettle plan)
      (hat : ConfigureAt s n .sleep false [wrote s.cfg .opMode (modeByte s.cfg .sleep)] u) (ha : u.modesAgree)
  | writes (sent rest : List (Reg × Byte)) (hplan : plan = sent ++ rest)
      (hph : u.phase = .cfgWrites rest ∨ u.phase = .cfgStandby ∧ rest = [])
      (hat : ConfigureAt s n .sleep false (wrote s.cfg .opMode (modeByte s.cfg .sleep) :: writeFrames s.cfg sent) u)
      (ha : u.modesAgree) (hchip : s.cfg.chipPresent = true → u.chip.holds s.cfg sent)
  | standby (hph : u.phase = .cfgStandbySettle ∨ u.phase = .cfgIdentify)
      (hat : ConfigureAt s n .standby false (standbyFrames s.cfg plan) u)
      (hchip : s.cfg.chipPresent = true → ConfiguredChip s.cfg plan u.chip)
  | identified (hph : u.phase = .cfgEnd) (hv : s.cfg.chipVersion = s.cfg.versionExpected)
      (hat : ConfigureAt s n .standby false (standbyFrames s.cfg plan ++ [didRead s.cfg .version s.cfg.chipVersion]) u)
      (hchip : s.cfg.chipPresent = true → ConfiguredChip s.cfg plan u.chip)
  | ended (conf : Bool) (hph : u.phase = .idle)
      (hat : ConfigureAt s n .standby conf (standbyFrames s.cfg plan ++ [didRead s.cfg .version s.cfg.chipVersion]) u)
      (hchip : s.cfg.chipPresent = true → ConfiguredChip s.cfg plan u.chip)
      (hcode : if s.cfg.chipVersion = s.cfg.versionExpected then conf = true ∧ u.status = .ok
        else conf = false ∧ u.status = .disconnected)

theorem ConfiguredChip.afterRadio {cfg : Cfg} {plan : List (Reg × Byte)} {u : State}
    (hplan : ∀ w ∈ plan, w.1.isCfg = true) (h : ConfiguredChip cfg plan u.chip) :
    ConfiguredChip cfg plan u.afterRadio.chip :=
  ⟨by simp [h.mode], by rw [State.afterRadio_opModeByte, h.opMode], State.afterRadio_txPending h.txPending,
    h.holds.afterRadio hplan⟩

theorem Configuring.afterRadio {s u : State} {n : BitVec 24} {plan : List (Reg × Byte)}
    (hplan : ∀ w ∈ plan, w.1.isCfg = true) (h : Configuring s n plan u) : Configuring s n plan u.afterRadio := by
  have hsleeps (hs : u.chipSleeps) : u.afterRadio.chipSleeps := fun hp => by simpa using hs (by simpa using hp)
  cases h with
  | validate hph hb => exact .validate (by simpa) (by simpa)
  | resetLow hph hb hf hc => exact .resetLow (by simpa) (by simpa) (by simpa) (by simpa)
  | pulse hph hb hf hc hs => exact .pulse (by simpa) (by simpa) (by simpa) (by simpa) (hsleeps hs)
  | reset hph hb hf hc hs hr => exact .reset (by simpa) (by simpa) (by simpa) (by simpa) (hsleeps hs) (by simpa)
  | sleepSettle hph hat ha => exact .sleepSettle (by simpa) hat.afterRadio ha.afterRadio
  | writes sent rest hp hph hat ha hchip =>
    exact .writes sent rest hp (by simpa) hat.afterRadio ha.afterRadio fun hpres =>
      (hchip hpres).afterRadio fun w hw => hplan w (hp ▸ List.mem_append_left rest hw)
  | standby hph hat hchip => exact .standby (by simpa) hat.afterRadio fun hp => (hchip hp).afterRadio hplan
  | identified hph hv hat hchip => exact .identified (by simpa) hv hat.afterRadio fun hp => (hchip hp).afterRadio hplan
  | ended conf hph hat hchip hcode =>
    exact .ended conf (by simpa) hat.afterRadio (fun hp => (hchip hp).afterRadio hplan) (by simpa using hcode)

/-- A position after `sent` writes, as the Sequencer goes on (42_mode.md R130). -/
theorem Configuring.afterWrites {s u : State} {n : BitVec 24} {plan sent rest : List (Reg × Byte)}
    (hp : plan = sent ++ rest)
    (hat : ConfigureAt s n .sleep false (wrote s.cfg .opMode (modeByte s.cfg .sleep) :: writeFrames s.cfg sent) u)
    (ha : u.modesAgree) (hchip : s.cfg.chipPresent = true → u.chip.holds s.cfg sent) :
    Configuring s n plan (u.goto (afterWrites rest)) := by
  refine .writes sent rest hp ?_ ⟨hat.frf, hat.configured, hat.mode, hat.resetN, hat.csN, hat.busLog⟩
    (ha.congr rfl rfl rfl rfl) hchip
  cases rest with
  | nil => exact .inr ⟨rfl, rfl⟩
  | cons w ws => exact .inl rfl

/-- One configuration write (42_mode.md R134). -/
theorem Configuring.step_write {s u : State} {d : Draw} {n : BitVec 24} {plan sent rest : List (Reg × Byte)}
    {w : Reg × Byte} (hwf : u.cfg.wf = true) (hd : d.fate = .completes) (hk : KeepsOperands s u)
    (hplan : plan = sent ++ w :: rest) (hnd : (plan.map Prod.fst).Nodup) (hcfg : ∀ w ∈ plan, w.1.isCfg = true)
    (hph : u.phase = .cfgWrites (w :: rest))
    (hat : ConfigureAt s n .sleep false (wrote s.cfg .opMode (modeByte s.cfg .sleep) :: writeFrames s.cfg sent) u)
    (ha : u.modesAgree) (hchip : s.cfg.chipPresent = true → u.chip.holds s.cfg sent) :
    ∃ t, perform d u = .next t ∧ Configuring s n plan t := by
  have hw : w.1.isCfg = true := hcfg w (by simp [hplan])
  have ho : w.1 ≠ .opMode := by rintro he; rw [he] at hw; cases hw
  have hnew : ∀ w' ∈ sent, w'.1 ≠ w.1 := by
    intro w' hw' he
    rw [hplan, List.map_append, List.map_cons, List.nodup_append] at hnd
    exact hnd.2.2 _ (List.mem_map_of_mem hw') _ (by simp) he
  obtain ⟨v, hv, hsent, hstore⟩ := memWrite_store (s := u) w.2 hd hwf ho fun _ => ha.sleeps hat.mode
  have hp : perform d u = .next (v.goto (Machine.afterWrites rest)) := by
    simp [perform, hph, cfgWrite, hat.mode, hv]
  refine ⟨_, hp, .afterWrites (sent := sent ++ [w]) (by simp [hplan]) ?_ (hsent.modesAgree_store ha hstore)
    fun hpres => ?_⟩
  · simpa [writeFrames, hk.cfg] using hat.sent hsent
  · rw [hstore (hk.cfg ▸ hpres)]
    exact (hchip hpres).store (fun w' hw' => ⟨hcfg w' (by simp [hplan, hw']), hnew w' hw'⟩) hw

/-- Every micro-step of a CONFIGURE whose frames complete. -/
theorem Configuring.step {s u : State} {d : Draw} {n : BitVec 24} {plan : List (Reg × Byte)} (hwf : s.cfg.wf = true)
    (hvalid : configPlan s.cfg s.radio = some (n, plan)) (hnd : (plan.map Prod.fst).Nodup)
    (hcfg : ∀ w ∈ plan, w.1.isCfg = true) (hd : d.fate = .completes) (hk : KeepsOperands s u) (hb : u.phase ≠ .idle)
    (h : Configuring s n plan u) : ∃ t, perform d u = .next t ∧ Configuring s n plan t := by
  have hwf' : u.cfg.wf = true := hk.cfg ▸ hwf
  cases h with
  | validate hph hbus =>
    simp only [perform, hph, cfgValidate, hk.cfg, hk.radio, hvalid]
    exact ⟨_, rfl, .resetLow rfl hbus rfl rfl⟩
  | resetLow hph hbus hf hc =>
    simp only [perform, hph, cfgResetLow]
    refine ⟨_, rfl, .pulse (.inl rfl) hbus hf hc fun hp => ?_⟩
    simp only [State.goto_cfg] at hp
    simp [hp, Chip.hardReset]
  | pulse hph hbus hf hc hs =>
    rcases hph with hph | hph <;> simp only [perform, hph]
    · exact ⟨_, rfl, .pulse (.inr rfl) hbus hf hc hs⟩
    · exact ⟨_, rfl, .reset (.inl rfl) hbus hf hc hs rfl⟩
  | reset hph hbus hf hc hs hr =>
    rcases hph with hph | hph <;> simp only [perform, hph]
    · exact ⟨_, rfl, .reset (.inr rfl) hbus hf hc hs hr⟩
    · obtain ⟨v, hv, hsent, hchip⟩ := setModeFrame_sent .sleep (.cfgSleepSettle plan) hd hwf' fun hp => .inl (hs hp)
      refine ⟨_, hv, .sleepSettle rfl
        ⟨hsent.frf.trans hf, hsent.configured.trans hc, rfl, hsent.resetN.trans hr, hsent.csN, ?_⟩
        (modesAgree_setMode hwf' hsent.cfg hchip)⟩
      simpa [hbus, hk.cfg] using hsent.busLog
  | sleepSettle hph hat ha =>
    simp only [perform, hph]
    exact ⟨_, rfl, .afterWrites (sent := []) rfl hat ha (by simp [Chip.holds])⟩
  | writes sent rest hplan hph hat ha hchip =>
    rcases hph with hph | ⟨hph, rfl⟩
    · cases rest with
      | nil =>
        simp only [perform, hph, cfgWrite]
        exact ⟨_, rfl, .afterWrites (rest := []) hplan hat ha hchip⟩
      | cons w rest => exact Configuring.step_write hwf' hd hk hplan hnd hcfg hph hat ha hchip
    · simp only [perform, hph]
      obtain ⟨v, hv, hsent, hmode⟩ := setModeFrame_sent .standby .cfgStandbySettle hd hwf' ha.lora
      obtain ⟨hfrf, hconf, -, hreset, hcs, hbus⟩ := hat.sent hsent
      rw [List.append_nil] at hplan
      subst hplan
      refine ⟨_, hv, .standby (.inl rfl)
        ⟨hfrf, hconf, rfl, hreset, hcs, by simpa [standbyFrames, hk.cfg] using hbus⟩ fun hp => ?_⟩
      have hcv : v.chip = u.chip.setMode s.cfg u.free .standby := hk.cfg ▸ hmode (hk.cfg ▸ hp)
      show ConfiguredChip s.cfg plan v.chip
      rw [hcv]
      exact ⟨rfl, Chip.setMode_opModeByte hwf _ _ _, rfl, (hchip hp).setMode hcfg _ _⟩
  | standby hph hat hchip =>
    rcases hph with hph | hph <;> simp only [perform, hph]
    · exact ⟨_, rfl, .standby (.inr rfl) ⟨hat.frf, hat.configured, hat.mode, hat.resetN, hat.csN, hat.busLog⟩ hchip⟩
    · obtain ⟨v, w, hv, hsent, hchip', hver⟩ := memRead_sent (s := u) .version hd hwf'
      obtain ⟨hfrf, hconf, hmode, hreset, hcs, hbus⟩ := hat.sent hsent
      have hv' : v = s.cfg.chipVersion := (hver rfl).trans (by rw [hk.cfg])
      subst hv'
      have hbus' : w.busLog = s.busLog ++ (standbyFrames s.cfg plan ++ [didRead s.cfg .version s.cfg.chipVersion]) := by
        simpa [hk.cfg] using hbus
      have hcw : s.cfg.chipPresent = true → ConfiguredChip s.cfg plan w.chip := fun hp => by
        rw [(hchip' (hk.cfg ▸ hp)).2]
        exact hchip hp
      rw [cfgIdentify, hv, FrameResult.andThen_done, hsent.cfg, hk.cfg]
      split
      · next he => exact ⟨_, rfl, .identified rfl he ⟨hfrf, hconf, hmode, hreset, hcs, hbus'⟩ hcw⟩
      · next he => exact ⟨_, rfl, .ended false rfl ⟨hfrf, rfl, hmode, hreset, rfl, hbus'⟩ hcw
          (by rw [if_neg he]; exact ⟨rfl, rfl⟩)⟩
  | identified hph hv hat hchip =>
    simp only [perform, hph, cfgEnd]
    exact ⟨_, rfl, .ended true rfl ⟨hat.frf, rfl, hat.mode, hat.resetN, hat.csN, hat.busLog⟩ hchip
      (by rw [if_pos hv]; exact ⟨rfl, rfl⟩)⟩
  | ended conf hph => exact absurd hph hb

/-- A CONFIGURE of a valid RadioConfig whose frames complete: all its frames are sent, and the version byte decides
(42_mode.md R135). -/
theorem configure_completes {s : State} {n : BitVec 24} {code : BitVec 4} (hwf : s.cfg.wf = true)
    (hid : s.phase = .idle) (hq : s.hostQuiet) (hb : s.busSound) (hv : ValidConfig s.cfg s.radio n code) :
    ∃ t conf, exec .configure s = .next t ∧ t.phase = .idle ∧ KeepsOperands s t ∧
      ConfigureAt s n .standby conf (configureFrames s.cfg s.radio n code s.cfg.chipVersion) t ∧
      (s.cfg.chipPresent = true → ConfiguredChip s.cfg (configWrites s.cfg s.radio n code) t.chip) ∧
      if s.cfg.chipVersion = s.cfg.versionExpected then conf = true ∧ t.status = .ok
        else conf = false ∧ t.status = .disconnected := by
  have hcfg := configWrites_isCfg s.cfg s.radio n code
  obtain ⟨t, ht, htid, hk, h⟩ := exec_session (i := .configure) (s := s)
    (I := Configuring s n (configWrites s.cfg s.radio n code)) rfl hid (by nofun) hq hb (.validate rfl rfl) (fun u _ hu => hu.afterRadio hcfg)
    fun d u hd hk hu hne => hu.step hwf (configPlan_of_valid hv) (configWrites_nodup ..) hcfg hd hk hne
  cases h with
  | ended conf _ hat hchip hcode => exact ⟨t, conf, ht, htid, hk, hat, hchip, hcode⟩
  | validate hph | resetLow hph | sleepSettle hph | identified hph => rw [htid] at hph; cases hph
  | pulse hph | reset hph | writes _ _ _ hph | standby hph => simp [htid] at hph

/-- Settles O24: the version byte is the expected one, and the registers of the plan hold their bytes. -/
theorem configureCompletes : Obligations.ConfigureCompletes := by
  unfold Obligations.ConfigureCompletes
  intro s n code hwf hp hid hq hb hvalid hver
  obtain ⟨t, conf, ht, htid, hk, hat, hchip, hcode⟩ := configure_completes hwf hid hq hb hvalid
  rw [if_pos hver] at hcode
  obtain ⟨rfl, hok⟩ := hcode
  obtain ⟨hrdata, -, -, -, -, hpkt⟩ := (commandsKeepWhatTheyDoNotName s t .configure rfl ht).2
  obtain ⟨hmode, hop, hpend, hholds⟩ := hchip hp
  simp only [Chip.holds, configWrites, List.forall_mem_cons, List.not_mem_nil, false_imp_iff, implies_true, and_true,
    Chip.value] at hholds
  obtain ⟨h1, h2, h3, h4, h5, h6, h7, h8, h9, h10, h11, h12⟩ := hholds
  exact ⟨t, ht, hok, hat.configured, hat.mode, hat.frf, htid, hver ▸ hat.busLog, hpkt nofun hid, hk, hrdata nofun,
    hat.csN,
    hat.resetN, hmode, hop, h1, h2, h3, h4, h5, h6, h7, h8, h9, h10, h11, h12, hpend⟩

/-- Settles O26: the version byte, read after every write, is not the expected one. -/
theorem wrongVersionIsDisconnected : Obligations.WrongVersionIsDisconnected := by
  unfold Obligations.WrongVersionIsDisconnected
  intro s n code hwf hid hq hb hvalid hwrong
  have hver : s.cfg.chipVersion ≠ s.cfg.versionExpected := hwrong.elim (Cfg.wf_absent hwf) id
  obtain ⟨t, conf, ht, htid, hk, hat, hchip, hcode⟩ := configure_completes hwf hid hq hb hvalid
  rw [if_neg hver] at hcode
  obtain ⟨rfl, hdis⟩ := hcode
  obtain ⟨-, -, -, -, -, hpkt⟩ := (commandsKeepWhatTheyDoNotName s t .configure rfl ht).2
  refine ⟨t, ht, hdis, hat.configured, hat.mode, hat.frf, htid, hpkt nofun hid, hat.csN, hat.resetN, hk, hat.busLog,
    fun hp => (hchip hp).mode, fun hp => ?_⟩
  rw [exec_runs rfl hid (by nofun)] at ht
  exact runToIdle_absent (s := s.started .configure) hp ht

end Sys2Proof.Machine
end

section
/-! A configured command's core between its micro-steps, whose frames complete: the record, CONFIGURED, the lines and
BUSLOG; and SETMODE (42_mode.md section 2). -/

namespace Sys2Proof.Machine

/-! ### The core inside SETMODE, SEND and POLL -/

/-- The core of a configured command in execution whose frames complete: the record of the mode, which the chip agrees
with, and the frames sent so far. -/
structure CommandAt (s : State) (m : Mode) (recs : List BusRecord) (u : State) : Prop where
  mode : u.mode = m
  configured : u.configured = true
  resetN : u.resetN = true
  csN : u.csN = true
  agree : u.modesAgree
  busLog : u.busLog = s.busLog ++ recs

theorem CommandAt.started {s : State} (i : Instr) (h : s.Ready) : CommandAt s s.mode [] (s.started i) :=
  ⟨rfl, h.configured, h.resetN, h.csN, h.agree.congr rfl rfl rfl rfl, (List.append_nil _).symm⟩

section
variable {s u : State} {m : Mode} {recs : List BusRecord} (h : CommandAt s m recs u)
include h

theorem CommandAt.afterRadio : CommandAt s m recs u.afterRadio :=
  ⟨by simp [h.mode], by simp [h.configured], by simp [h.resetN], by simp [h.csN], h.agree.afterRadio,
    by simp [h.busLog]⟩

theorem CommandAt.goto (ph : Phase) : CommandAt s m recs (u.goto ph) :=
  ⟨h.mode, h.configured, h.resetN, h.csN, h.agree.congr rfl rfl rfl rfl, h.busLog⟩

theorem CommandAt.finish (code : ResultCode) : CommandAt s m recs (u.finish code) :=
  ⟨h.mode, h.configured, h.resetN, h.csN, h.agree.congr rfl rfl rfl rfl, h.busLog⟩

theorem CommandAt.sent {w : State} {r : BusRecord} (hf : FrameSent u w r) (ha : w.modesAgree) :
    CommandAt s m (recs ++ [r]) w :=
  ⟨hf.mode.trans h.mode, hf.configured.trans h.configured, hf.resetN.trans h.resetN, hf.csN, ha,
    by rw [hf.busLog, h.busLog, List.append_assoc]⟩

variable {d : Draw} (hwf : s.cfg.wf = true) (hg : u.cfg = s.cfg) (hd : d.fate = .completes)
include hwf hg hd

/-- A write frame to a register that is neither the mode register nor a configuration register. -/
theorem CommandAt.write {r : Reg} (v : Byte) (ho : r ≠ .opMode) (hr : r.isCfg = false) :
    ∃ w, memWrite d (s.cfg.map.addr r) v u = .done v w ∧ FrameSent u w (wrote s.cfg r v) ∧
      CommandAt s m (recs ++ [wrote s.cfg r v]) w ∧ (s.cfg.chipPresent = true → w.chip = u.chip.store r v) := by
  obtain ⟨w, hw, hf, hc⟩ := memWrite_store (s := u) (r := r) v hd (hg ▸ hwf) ho (by simp [hr])
  rw [hg] at hf hc hw
  exact ⟨w, hw, hf, h.sent hf (hf.modesAgree_store h.agree (hg ▸ hc)), hc⟩

/-- A read frame of a register. -/
theorem CommandAt.read (r : Reg) :
    ∃ v w, memRead d (s.cfg.map.addr r) u = .done v w ∧ FrameSent u w (didRead s.cfg r v) ∧
      CommandAt s m (recs ++ [didRead s.cfg r v]) w ∧
      (s.cfg.chipPresent = true → v = u.chip.value s.cfg r ∧ w.chip = u.chip.afterRead r) := by
  obtain ⟨v, w, hw, hf, hc, -⟩ := memRead_sent (s := u) r hd (hg ▸ hwf)
  rw [hg] at hf hc hw
  exact ⟨v, w, hw, hf, h.sent hf (hf.modesAgree_read h.agree fun hp => (hc (hg ▸ hp)).2), hc⟩

/-- The first micro-step of `SetMode`. -/
theorem CommandAt.setMode (m' : Mode) (ph : Phase) :
    ∃ w, setModeFrame d m' ph u = .next w ∧ w.phase = ph ∧ w.cfg = s.cfg ∧ w.txLog = u.txLog ∧ w.packet = u.packet ∧
      CommandAt s m' (recs ++ [wrote s.cfg .opMode (modeByte s.cfg m')]) w ∧
      (s.cfg.chipPresent = true → w.chip = u.chip.setMode s.cfg u.free m') := by
  obtain ⟨v, hv, hf, hc⟩ := setModeFrame_sent (s := u) m' ph hd (hg ▸ hwf) h.agree.lora
  have ha := modesAgree_setMode (ph := ph) (hg ▸ hwf) hf.cfg hc
  rw [hg] at hf hc
  exact ⟨_, hv, rfl, hf.cfg.trans hg, hf.txLog, hf.packet,
    ⟨rfl, hf.configured.trans h.configured, hf.resetN.trans h.resetN, hf.csN, ha,
    by rw [State.goto_busLog, hf.busLog, h.busLog, List.append_assoc]⟩, hc⟩

end

/-! ### With no Radio event inside the command -/

/-- The chip and TXLOG of a command with a chip attached and no Radio event inside it. -/
def ChipAt (s : State) (c : Chip) (u : State) : Prop :=
  s.airQuiet → s.cfg.chipPresent = true → u.chip = c ∧ u.txLog = s.txLog

theorem ChipAt.afterRadio {s u : State} {c : Chip} (hs : Session s u) (h : ChipAt s c u) : ChipAt s c u.afterRadio := by
  intro ha hp
  rw [State.afterRadio_quiet (hs.air ha).nextDraw]
  exact h ha hp

/-- The chip at a command's first micro-step. -/
theorem ChipAt.started {s : State} (i : Instr) (hid : s.phase = .idle) : ChipAt s s.chip (s.started i).afterRadio := by
  intro ha _
  have hst : s.still := .inl ha
  rw [State.started_afterRadio_chip i hid, State.started_afterRadio_txLog i hid, hst.radioSteps]
  exact ⟨rfl, rfl⟩

/-! ### SETMODE -/

/-- SETMODE after its frame (42_mode.md R138). -/
inductive SettingMode (s : State) (m : Mode) (u : State) : Prop
  | sent (hph : u.phase = .setmodeSettle ∨ u.phase = .setmodeEnd ∨ u.phase = .idle ∧ u.status = .ok)
      (hat : CommandAt s m [wrote s.cfg .opMode (modeByte s.cfg m)] u)
      (hc : ∃ k, ChipAt s (s.chip.setMode s.cfg k m) u)

/-- Settles O29: one mode frame; the chip's other effects are those of a write of the mode register. -/
theorem setmodeCompletes : Obligations.SetmodeCompletes := by
  unfold Obligations.SetmodeCompletes
  intro s m hs hq hb
  obtain ⟨t, ht, htid, hk, ⟨hph, hat, k, hc⟩⟩ := exec_session_first (i := .setmode m) (I := SettingMode s m) rfl hs.idle
    (fun _ => hs.configured) hq hb
    (by
      have hat := (CommandAt.started (.setmode m) hs).afterRadio
      obtain ⟨w, hw, hph, -, hlog, -, hat', hchip⟩ := hat.setMode hs.cfg_wf (by simp) hb.nextDraw m .setmodeSettle
      simp only [perform, State.afterRadio_phase, State.started_phase, firstPhase]
      refine ⟨w, hw,
        .sent (.inl hph) hat' ⟨(s.started (.setmode m)).afterRadio.free, fun ha hp => ?_⟩⟩
      obtain ⟨h1, h2⟩ := ChipAt.started (.setmode m) hs.idle ha hp
      exact ⟨by rw [hchip hp, h1], hlog.trans h2⟩)
    (fun u hu ⟨hph, hat, k, hc⟩ => .sent (by simpa using hph) hat.afterRadio ⟨k, hc.afterRadio hu⟩)
    (fun d u hd hk ⟨hph, hat, k, hc⟩ hb => by
      rcases hph with hph | hph | ⟨hph, -⟩
      · simp only [perform, hph]
        exact ⟨_, rfl, .sent (.inr (.inl rfl)) (hat.goto _) ⟨k, hc⟩⟩
      · simp only [perform, hph]
        exact ⟨_, rfl, .sent (.inr (.inr ⟨rfl, rfl⟩)) (hat.finish _) ⟨k, hc⟩⟩
      · exact absurd hph hb)
  obtain ⟨hrdata, hfrf, -, -, -, hpkt⟩ := (commandsKeepWhatTheyDoNotName s t (.setmode m) rfl ht).2
  have hok : t.status = .ok := by simpa [htid] using hph
  refine ⟨t, ht, hok, hat.mode, htid, hat.configured, hat.agree, hat.busLog, hpkt nofun hs.idle, hk, hrdata nofun,
    hfrf nofun nofun, hat.csN, hat.resetN, fun hp ha => ?_⟩
  obtain ⟨hchip, hlog⟩ := hc ha hp
  rw [hchip]
  exact ⟨hlog, Chip.setMode_opModeByte hs.cfg_wf _ _ _, rfl, rfl, Chip.setMode_fifo _ _ _, fun r ho hf =>
    Chip.value_setMode _ _ _ _ ho hf⟩

end Sys2Proof.Machine
end

section
/-! Proofs about SEND (43_tx_fifo.md): its frames in order, what it leaves in the chip, and when its payload has been put
on air. -/

namespace Sys2Proof.Machine

/-! ### The Radio while the chip does not listen -/

/-- Outside RxContinuous a Radio step changes flags and TXPENDING only. -/
theorem radioStep_chip_of_not_rx (e : RadioEvent) {u : State} (h : u.chip.mode ≠ .rxContinuous) :
    ∃ f p, (radioStep e u).chip = { u.chip with irqFlags := f, txPending := p } := by
  by_cases he : radioEnabled e u = true
  · cases e with
    | txDone => rw [radioStep_txDone he]; exact ⟨_, _, rfl⟩
    | rxPacket data rssi snr bad => simp [radioEnabled, h] at he
    | irqOther m => rw [radioStep_irqOther he]; exact ⟨_, _, rfl⟩
  · rw [radioStep_disabled (Bool.eq_false_iff.mpr he)]
    exact ⟨_, _, rfl⟩

theorem radioSteps_chip_of_not_rx (es : List RadioEvent) {u : State} (h : u.chip.mode ≠ .rxContinuous) :
    ∃ f p, (radioSteps es u).chip = { u.chip with irqFlags := f, txPending := p } := by
  induction es generalizing u with
  | nil => exact ⟨_, _, rfl⟩
  | cons e es ih =>
    obtain ⟨f, p, he⟩ := radioStep_chip_of_not_rx e h
    obtain ⟨f', p', he'⟩ := ih (u := radioStep e u) (by simpa using h)
    exact ⟨f', p', by rw [radioSteps, he', he]⟩

theorem State.afterRadio_chip_of_not_rx {u : State} (h : u.chip.mode ≠ .rxContinuous) :
    ∃ f p, u.afterRadio.chip = { u.chip with irqFlags := f, txPending := p } :=
  radioSteps_chip_of_not_rx (u := { u with env := u.env.tail }) _ h

/-! ### What goes on air -/

/-- The transmit-complete flag of the chip. -/
def State.txDone (u : State) : Bool := u.chip.irqFlags.getLsbD u.cfg.irqBits.txDone

/-- A Radio step that completes no transmission leaves TxDone and TXLOG alone (45_chip_events.md R185). -/
theorem radioStep_no_txDone (e : RadioEvent) {u : State} (hwf : u.cfg.wf = true)
    (h : e = .txDone → radioEnabled e u = false) :
    (radioStep e u).txDone = u.txDone ∧ (radioStep e u).txLog = u.txLog := by
  have hirq := Cfg.wf_irq hwf
  simp only [List.nodup_cons, List.mem_cons, List.not_mem_nil, or_false, not_or] at hirq
  obtain ⟨⟨hne1, hne2⟩, -⟩ := hirq
  obtain ⟨hlt, -⟩ := Cfg.wf_irq_lt hwf
  by_cases he : radioEnabled e u = true
  · cases e with
    | txDone => simp [h rfl] at he
    | rxPacket data rssi snr bad =>
      rw [radioStep_rxPacket he]
      refine ⟨?_, rfl⟩
      cases bad <;> simp [State.txDone, radioRxPacket, irqSet_getLsbD _ _ hlt, hne1, hne2]
    | irqOther m =>
      rw [radioStep_irqOther he]
      refine ⟨?_, rfl⟩
      simp only [radioEnabled, irqUnnamed, irqHas, Bool.and_eq_true, Bool.not_eq_true'] at he
      simp [State.txDone, radioIrqOther, BitVec.getLsbD_or, he.2.1.1]
  · rw [radioStep_disabled (Bool.eq_false_iff.mpr he)]
    exact ⟨rfl, rfl⟩

/-- The event itself sets TxDone. -/
theorem radioStep_txDone_sets {u : State} (hwf : u.cfg.wf = true) (he : radioEnabled .txDone u = true) :
    (radioStep .txDone u).txDone = true := by
  obtain ⟨hlt, -⟩ := Cfg.wf_irq_lt hwf
  rw [radioStep_txDone he]
  simp [State.txDone, radioTxDone, irqSet_getLsbD _ _ hlt]

/-- With TxDone clear after the Radio's steps, none of them completed a transmission. -/
theorem radioSteps_clear (es : List RadioEvent) {u : State} (hwf : u.cfg.wf = true)
    (h : (radioSteps es u).txDone = false) : u.txDone = false ∧ (radioSteps es u).txLog = u.txLog := by
  induction es generalizing u with
  | nil => exact ⟨h, rfl⟩
  | cons e es ih =>
    obtain ⟨hclear, hlog⟩ := ih (u := radioStep e u) (by simpa using hwf) h
    have hno : e = .txDone → radioEnabled e u = false := by
      rintro rfl
      refine Bool.eq_false_iff.mpr fun he => ?_
      rw [radioStep_txDone_sets hwf he] at hclear; cases hclear
    obtain ⟨h1, h2⟩ := radioStep_no_txDone e hwf hno
    exact ⟨h1 ▸ hclear, hlog.trans h2⟩

/-- Nothing of the command has gone on air, and nothing is about to. -/
structure Unsent (s u : State) : Prop where
  clear : u.txDone = false
  idle : u.chip.txPending = false
  log : u.txLog = s.txLog

/-- The payload has gone on air, once. -/
structure Sent (s : State) (n : Byte) (u : State) : Prop where
  idle : u.chip.txPending = false
  log : u.txLog = s.txLog ++ [payload s n]

/-- The payload is about to go on air or has gone (45_chip_events.md R186). -/
def OnAir (s : State) (n : Byte) (u : State) : Prop :=
  (u.txDone = false ∧ u.txLog = s.txLog) ∨ Sent s n u

theorem radioEnabled_txDone_pending {u : State} (h : u.chip.txPending = false) : radioEnabled .txDone u = false := by
  simp [radioEnabled, h]

theorem radioSteps_unsent {s : State} (es : List RadioEvent) {u : State} (hwf : u.cfg.wf = true) (h : Unsent s u) :
    Unsent s (radioSteps es u) := by
  induction es generalizing u with
  | nil => exact h
  | cons e es ih =>
    obtain ⟨h1, h2⟩ := radioStep_no_txDone e hwf fun he => he ▸ radioEnabled_txDone_pending h.idle
    exact ih (by simpa using hwf) ⟨h1.trans h.clear, radioStep_txPending e h.idle, h2.trans h.log⟩

theorem radioSteps_sent {s : State} {n : Byte} (es : List RadioEvent) {u : State} (hwf : u.cfg.wf = true)
    (h : Sent s n u) : Sent s n (radioSteps es u) := by
  induction es generalizing u with
  | nil => exact h
  | cons e es ih =>
    obtain ⟨-, h2⟩ := radioStep_no_txDone e hwf fun he => he ▸ radioEnabled_txDone_pending h.idle
    exact ih (by simpa using hwf) ⟨radioStep_txPending e h.idle, h2.trans h.log⟩

/-- While the payload stands in the FIFO it is what a transmission sends. -/
theorem radioSteps_onAir {s : State} {n : Byte} (es : List RadioEvent) {u : State} (hwf : u.cfg.wf = true)
    (hm : u.chip.mode ≠ .rxContinuous) (hair : onAir u.chip = payload s n) (h : OnAir s n u) :
    OnAir s n (radioSteps es u) := by
  induction es generalizing u with
  | nil => exact h
  | cons e es ih =>
    obtain ⟨f, p, hc⟩ := radioStep_chip_of_not_rx e hm
    have hair' : onAir (radioStep e u).chip = payload s n := by rw [hc]; exact hair
    refine ih (by simpa using hwf) (by simpa using hm) hair' ?_
    by_cases he : e = .txDone ∧ radioEnabled e u = true
    · obtain ⟨rfl, he⟩ := he
      rcases h with ⟨-, hlog⟩ | hsent
      · rw [radioStep_txDone he]
        exact .inr ⟨rfl, by rw [radioTxDone, hair, hlog]⟩
      · rw [radioEnabled_txDone_pending hsent.idle] at he; cases he
    · obtain ⟨h1, h2⟩ := radioStep_no_txDone e hwf fun hd => Bool.eq_false_iff.mpr fun hen => he ⟨hd, hen⟩
      rcases h with ⟨hclear, hlog⟩ | hsent
      · exact .inl ⟨h1.trans hclear, h2.trans hlog⟩
      · exact .inr ⟨radioStep_txPending e hsent.idle, h2.trans hsent.log⟩

/-! ### The chip's side of SEND -/

/-- The registers SEND writes or the Radio may change while it runs. -/
def sendRegs : List Reg := [.opMode, .fifo, .fifoAddrPtr, .payloadLength, .dioMapping, .irqFlags]

/-- The chip with the first `i` bytes of TXBUF in the FIFO, against the chip `c₀` at S1 (43_tx_fifo.md R152). -/
structure SendChip (s : State) (c₀ : Chip) (i : Nat) (c : Chip) : Prop where
  rest : ∀ r ∉ sendRegs, c.value s.cfg r = c₀.value s.cfg r
  rxwp : c.rxwp = c₀.rxwp
  loaded : ∀ j < i, c.fifo.read (s.cfg.txBase + BitVec.ofNat 8 j).toNat = s.txBuf.read j
  untouched : ∀ x : Byte, (∀ j < i, x ≠ s.cfg.txBase + BitVec.ofNat 8 j) → c.fifo.read x.toNat = c₀.fifo.read x.toNat

/-- Indexes modulo 256 are distinct over a run of at most 256 bytes. -/
theorem index_inj {base : Byte} {i j : Nat} (hi : i < 256) (hj : j < 256)
    (h : base + BitVec.ofNat 8 i = base + BitVec.ofNat 8 j) : i = j := by
  have h' := congrArg BitVec.toNat ((BitVec.add_right_inj base).mp h)
  simpa [Nat.mod_eq_of_lt hi, Nat.mod_eq_of_lt hj] using h'

section
variable {s : State} {c₀ c : Chip} {i : Nat} (h : SendChip s c₀ i c)
include h

theorem SendChip.air (f : Byte) (p : Bool) : SendChip s c₀ i { c with irqFlags := f, txPending := p } where
  rest r hr := by
    rw [← h.rest r hr]
    cases r <;> first | rfl | simp [sendRegs] at hr
  rxwp := h.rxwp
  loaded := h.loaded
  untouched := h.untouched

theorem SendChip.setMode (k : Nat) {m : Mode} (hs : m ≠ .sleep) (hr : m ≠ .rxContinuous) :
    SendChip s c₀ i (c.setMode s.cfg k m) where
  rest r hreg := by
    rw [← h.rest r hreg]
    exact Chip.value_setMode _ _ _ _ (by rintro rfl; simp [sendRegs] at hreg) (by rintro rfl; simp [sendRegs] at hreg)
  rxwp := by rw [Chip.setMode_rxwp, if_neg hr, h.rxwp]
  loaded := by rw [Chip.setMode_fifo _ _ _ hs]; exact h.loaded
  untouched := by rw [Chip.setMode_fifo _ _ _ hs]; exact h.untouched

/-- A store of one of SEND's registers other than the FIFO. -/
theorem SendChip.store {r : Reg} (v : Byte) (hr : r ∈ sendRegs) (hf : r ≠ .fifo) : SendChip s c₀ i (c.store r v) where
  rest r' hr' := by
    rw [← h.rest r' hr']
    refine Chip.value_store_other _ _ _ ?_ ?_ ?_ <;> rintro rfl
    · exact hr' hr
    · simp [sendRegs] at hr'
    · simp [sendRegs] at hr'
  rxwp := by rw [Chip.store_rxwp, h.rxwp]
  loaded := by rw [Chip.store_fifo v c hf]; exact h.loaded
  untouched := by rw [Chip.store_fifo v c hf]; exact h.untouched

/-- One more payload byte. -/
theorem SendChip.store_fifo (hi : i < 256) (hp : c.fifoAddrPtr = s.cfg.txBase + BitVec.ofNat 8 i) :
    SendChip s c₀ (i + 1) (c.store .fifo (s.txBuf.read i)) where
  rest r hr := by
    rw [← h.rest r hr]
    refine Chip.value_store_other _ _ _ ?_ ?_ ?_ <;> rintro rfl <;> simp [sendRegs] at hr
  rxwp := h.rxwp
  loaded j hj := by
    show (c.fifo.write c.fifoAddrPtr.toNat _).read _ = _
    rw [hp]
    rcases Nat.lt_succ_iff_lt_or_eq.mp hj with hlt | rfl
    · rw [Mem.read_write_other _ _ _ _ fun he => ?_, h.loaded j hlt]
      exact absurd (index_inj (by omega) hi (BitVec.eq_of_toNat_eq he)) (by omega)
    · exact Mem.read_write_same _ _ _
  untouched x hx := by
    show (c.fifo.write c.fifoAddrPtr.toNat _).read _ = _
    rw [hp, Mem.read_write_other _ _ _ _ fun he => hx i (by omega) (BitVec.eq_of_toNat_eq he)]
    exact h.untouched x fun j hj => hx j (by omega)

end

/-- The chip with the whole payload and its length (43_tx_fifo.md R152 to R154). -/
structure LoadedChip (s : State) (n : Byte) (c₀ c : Chip) : Prop extends SendChip s c₀ n.toNat c where
  pointer : c.fifoAddrPtr = s.cfg.txBase + n
  length : c.payloadLength = n

theorem LoadedChip.air {s : State} {n : Byte} {c₀ c : Chip} (h : LoadedChip s n c₀ c) (f : Byte) (p : Bool) :
    LoadedChip s n c₀ { c with irqFlags := f, txPending := p } := ⟨h.toSendChip.air f p, h.pointer, h.length⟩

/-- What the loaded chip sends is the payload. -/
theorem LoadedChip.onAir {s : State} {n : Byte} {c₀ c : Chip} (h : LoadedChip s n c₀ c)
    (hbase : c₀.fifoTxBase = s.cfg.txBase) : onAir c = payload s n := by
  have hb : c.fifoTxBase = s.cfg.txBase := (h.rest .fifoTxBase (by decide)).trans hbase
  rw [Machine.onAir, Mem.readRun_eq_map, hb, h.length, payload]
  exact List.map_congr_left fun j hj => h.loaded j (List.mem_range.mp hj)

/-! ### The positions of SEND -/

/-- The premise under which SEND's Ok means that its payload has gone on air: a chip whose TxDone is clear at S1 and
whose TX base is the configured one. -/
structure TxClear (s : State) (c₀ : Chip) : Prop where
  present : s.cfg.chipPresent = true
  clear : c₀.irqFlags.getLsbD s.cfg.irqBits.txDone = false
  base : c₀.fifoTxBase = s.cfg.txBase

/-- The records and the result with which SEND goes to S9 (43_tx_fifo.md R155, R156). -/
def SendOutcome (s : State) (n : Byte) (recs : List BusRecord) (res : ResultCode) : Prop :=
  (∃ v, recs = sendFrames s n ++ [didRead s.cfg .irqFlags v, wrote s.cfg .irqFlags v] ∧
    res = if v.getLsbD s.cfg.irqBits.txDone then .ok else .txTimeout) ∨
  recs = sendFrames s n ∧ res = .txTimeout

/-- The records before payload byte `i`. -/
def sendPrelude (s : State) (i : Nat) : List BusRecord :=
  [wrote s.cfg .opMode (modeByte s.cfg .standby), wrote s.cfg .fifoAddrPtr s.cfg.txBase] ++
    (List.range i).map fun j => wrote s.cfg .fifo (s.txBuf.read j)

/-- The state at each position of a SEND whose frames complete, after S1. -/
inductive Sending (s : State) (n : Byte) (c₀ : Chip) (u : State) : Prop
  | standby (hph : u.phase = .sendStandbySettle n ∨ u.phase = .sendPointer n)
      (hat : CommandAt s .standby [wrote s.cfg .opMode (modeByte s.cfg .standby)] u)
      (hc : s.cfg.chipPresent = true → SendChip s c₀ 0 u.chip) (hair : TxClear s c₀ → Unsent s u)
  | loading (i : Nat) (hi : i ≤ n.toNat) (hph : u.phase = payloadFrom n i)
      (hat : CommandAt s .standby (sendPrelude s i) u)
      (hc : s.cfg.chipPresent = true →
        SendChip s c₀ i u.chip ∧ u.chip.fifoAddrPtr = s.cfg.txBase + BitVec.ofNat 8 i)
      (hair : TxClear s c₀ → Unsent s u)
  | loaded (hph : u.phase = .sendMap)
      (hat : CommandAt s .standby (sendPrelude s n.toNat ++ [wrote s.cfg .payloadLength n]) u)
      (hc : s.cfg.chipPresent = true → LoadedChip s n c₀ u.chip) (hair : TxClear s c₀ → Unsent s u)
  | mapped (hph : u.phase = .sendTx)
      (hat : CommandAt s .standby
        (sendPrelude s n.toNat ++ [wrote s.cfg .payloadLength n, wrote s.cfg .dioMapping s.cfg.mapTxDone]) u)
      (hc : s.cfg.chipPresent = true → LoadedChip s n c₀ u.chip ∧ u.chip.dioMapping = s.cfg.mapTxDone)
      (hair : TxClear s c₀ → Unsent s u)
  | onAir (hph : u.phase = .sendTxSettle ∨ u.phase = .sendWait ∨ u.phase = .sendReadIrq)
      (hat : CommandAt s .tx (sendFrames s n) u)
      (hc : s.cfg.chipPresent = true → LoadedChip s n c₀ u.chip ∧ u.chip.dioMapping = s.cfg.mapTxDone)
      (hair : TxClear s c₀ → OnAir s n u)
  | flags (v : Byte) (hph : u.phase = .sendAckIrq v)
      (hat : CommandAt s .tx (sendFrames s n ++ [didRead s.cfg .irqFlags v]) u)
      (hc : s.cfg.chipPresent = true → LoadedChip s n c₀ u.chip ∧ u.chip.dioMapping = s.cfg.mapTxDone)
      (hair : TxClear s c₀ → v.getLsbD s.cfg.irqBits.txDone = true → Sent s n u)
  | restore (recs : List BusRecord) (res : ResultCode) (hph : u.phase = .sendRestore res)
      (hat : CommandAt s .tx recs u) (hout : SendOutcome s n recs res)
      (hc : s.cfg.chipPresent = true → LoadedChip s n c₀ u.chip ∧ u.chip.dioMapping = s.cfg.mapTxDone)
      (hair : TxClear s c₀ → res = .ok → Sent s n u)
  | restored (recs : List BusRecord) (res : ResultCode)
      (hph : u.phase = .sendRestoreSettle res ∨ u.phase = .sendEnd res ∨ u.phase = .idle ∧ u.status = res)
      (hat : CommandAt s .standby (recs ++ [wrote s.cfg .opMode (modeByte s.cfg .standby)]) u)
      (hout : SendOutcome s n recs res)
      (hc : s.cfg.chipPresent = true → (LoadedChip s n c₀ u.chip ∧ u.chip.dioMapping = s.cfg.mapTxDone) ∧
        u.chip.txPending = false)
      (hair : TxClear s c₀ → res = .ok → Sent s n u)

/-! ### The Radio between the positions -/

section
variable {s u : State} {n : Byte} {c₀ : Chip}

theorem SendChip.afterRadio {i : Nat} (hm : u.chip.mode ≠ .rxContinuous) (h : SendChip s c₀ i u.chip) :
    SendChip s c₀ i u.afterRadio.chip := by
  obtain ⟨f, p, he⟩ := State.afterRadio_chip_of_not_rx hm
  rw [he]; exact h.air f p

theorem LoadedChip.afterRadio (hm : u.chip.mode ≠ .rxContinuous) (h : LoadedChip s n c₀ u.chip) :
    LoadedChip s n c₀ u.afterRadio.chip := by
  obtain ⟨f, p, he⟩ := State.afterRadio_chip_of_not_rx hm
  rw [he]; exact h.air f p

theorem Unsent.afterRadio (hwf : u.cfg.wf = true) (h : Unsent s u) : Unsent s u.afterRadio :=
  radioSteps_unsent (u := { u with env := u.env.tail }) _ hwf ⟨h.clear, h.idle, h.log⟩

theorem Sent.afterRadio (hwf : u.cfg.wf = true) (h : Sent s n u) : Sent s n u.afterRadio :=
  radioSteps_sent (u := { u with env := u.env.tail }) _ hwf ⟨h.idle, h.log⟩

theorem OnAir.afterRadio (hwf : u.cfg.wf = true) (hm : u.chip.mode ≠ .rxContinuous)
    (hair : Machine.onAir u.chip = payload s n) (h : OnAir s n u) : OnAir s n u.afterRadio :=
  radioSteps_onAir (u := { u with env := u.env.tail }) _ hwf hm hair (h.imp id fun hs => ⟨hs.idle, hs.log⟩)

/-- The chip's mode is the one the command has recorded. -/
theorem CommandAt.chip_mode {m : Mode} {recs : List BusRecord} (h : CommandAt s m recs u) (hg : u.cfg = s.cfg)
    (hp : s.cfg.chipPresent = true) : u.chip.mode = m := (h.agree (hg ▸ hp)).1.trans h.mode

theorem Sending.afterRadio (hwf : s.cfg.wf = true) (hg : u.cfg = s.cfg) (h : Sending s n c₀ u) :
    Sending s n c₀ u.afterRadio := by
  have hwf' : u.cfg.wf = true := hg ▸ hwf
  have hrx {m : Mode} {recs : List BusRecord} (hat : CommandAt s m recs u) (hm : m ≠ .rxContinuous)
      (hp : s.cfg.chipPresent = true) : u.chip.mode ≠ .rxContinuous := hat.chip_mode hg hp ▸ hm
  have hmap : u.afterRadio.chip.dioMapping = u.chip.dioMapping := by simp
  cases h with
  | standby hph hat hc hair =>
    exact .standby (by simpa using hph) hat.afterRadio
      (fun hp => (hc hp).afterRadio (hrx hat nofun hp)) fun ht => (hair ht).afterRadio hwf'
  | loading i hi hph hat hc hair =>
    exact .loading i hi (by simpa using hph) hat.afterRadio
      (fun hp => ⟨(hc hp).1.afterRadio (hrx hat nofun hp),
        by simpa using (hc hp).2⟩)
      fun ht => (hair ht).afterRadio hwf'
  | loaded hph hat hc hair =>
    exact .loaded (by simpa using hph) hat.afterRadio
      (fun hp => (hc hp).afterRadio (hrx hat nofun hp)) fun ht => (hair ht).afterRadio hwf'
  | mapped hph hat hc hair =>
    exact .mapped (by simpa using hph) hat.afterRadio
      (fun hp => ⟨(hc hp).1.afterRadio (hrx hat nofun hp), hmap.trans (hc hp).2⟩) fun ht => (hair ht).afterRadio hwf'
  | onAir hph hat hc hair =>
    exact .onAir (by simpa using hph) hat.afterRadio
      (fun hp => ⟨(hc hp).1.afterRadio (hrx hat nofun hp), hmap.trans (hc hp).2⟩)
      fun ht => (hair ht).afterRadio hwf' (hrx hat nofun ht.present) ((hc ht.present).1.onAir ht.base)
  | flags v hph hat hc hair =>
    exact .flags v (by simpa using hph) hat.afterRadio
      (fun hp => ⟨(hc hp).1.afterRadio (hrx hat nofun hp), hmap.trans (hc hp).2⟩)
      fun ht hv => (hair ht hv).afterRadio hwf'
  | restore recs res hph hat hout hc hair =>
    exact .restore recs res (by simpa using hph) hat.afterRadio hout
      (fun hp => ⟨(hc hp).1.afterRadio (hrx hat nofun hp), hmap.trans (hc hp).2⟩)
      fun ht hv => (hair ht hv).afterRadio hwf'
  | restored recs res hph hat hout hc hair =>
    exact .restored recs res (by simpa using hph) hat.afterRadio hout
      (fun hp => ⟨⟨(hc hp).1.1.afterRadio (hrx hat nofun hp), hmap.trans (hc hp).1.2⟩,
        State.afterRadio_txPending (hc hp).2⟩)
      fun ht hv => (hair ht hv).afterRadio hwf'

end

/-! ### The micro-steps -/

/-- A store of another register than the flags, and the jump after it. -/
theorem Unsent.store {s u w : State} {rec : BusRecord} {r : Reg} {v : Byte} {ph : Phase} (h : Unsent s u)
    (hf : FrameSent u w rec) (hr : r ≠ .irqFlags) (hc : w.chip = u.chip.store r v) : Unsent s (w.goto ph) where
  clear := by
    rw [State.txDone, State.goto_chip, State.goto_cfg, hc, hf.cfg, Chip.store_irqFlags v u.chip hr]
    exact h.clear
  idle := by rw [State.goto_chip, hc, Chip.store_txPending, h.idle]
  log := hf.txLog.trans h.log

/-- What does not touch TXPENDING or TXLOG keeps a packet sent. -/
theorem Sent.congr {s u w : State} {n : Byte} (h : Sent s n u) (hc : w.chip.txPending = u.chip.txPending)
    (hl : w.txLog = u.txLog) : Sent s n w := ⟨hc.trans h.idle, hl.trans h.log⟩

section
variable {s u : State} {d : Draw} {n : Byte} {c₀ : Chip} (hwf : s.cfg.wf = true) (hd : d.fate = .completes)
  (hk : KeepsOperands s u)
include hwf hd hk

/-- Before payload byte `i`: the byte's frame, or the length's when the payload is loaded (43_tx_fifo.md R152, R153). -/
theorem Sending.step_loading {i : Nat} (hi : i ≤ n.toNat) (hph : u.phase = payloadFrom n i)
    (hat : CommandAt s .standby (sendPrelude s i) u)
    (hc : s.cfg.chipPresent = true → SendChip s c₀ i u.chip ∧ u.chip.fifoAddrPtr = s.cfg.txBase + BitVec.ofNat 8 i)
    (hair : TxClear s c₀ → Unsent s u) : ∃ t, perform d u = .next t ∧ Sending s n c₀ t := by
  have hn := n.isLt
  rw [payloadFrom] at hph
  split at hph
  · next hlt =>
    obtain ⟨w, hw, hf, hat', hcw⟩ := hat.write hwf hk.cfg hd (r := .fifo) (s.txBuf.read i) nofun rfl
    refine ⟨w.goto (payloadFrom n (i + 1)), by simp [perform, hph, sendPayload, hk.txBuf, hk.cfg, hw],
      .loading (i + 1) (by omega) rfl ?_
      (fun hp => ?_) fun ht => ?_⟩
    · simpa [sendPrelude, List.range_succ] using hat'.goto (payloadFrom n (i + 1))
    · obtain ⟨h1, h2⟩ := hc hp
      rw [State.goto_chip, hcw hp]
      refine ⟨h1.store_fifo (by omega) h2, ?_⟩
      show u.chip.fifoAddrPtr + 1#8 = _
      rw [h2, BitVec.add_assoc, BitVec.ofNat_add]
    · exact (hair ht).store hf (by decide) (hcw ht.present)
  · next hge =>
    obtain rfl : i = n.toNat := by omega
    obtain ⟨w, hw, hf, hat', hcw⟩ := hat.write hwf hk.cfg hd (r := .payloadLength) n nofun rfl
    refine ⟨w.goto .sendMap, by simp [perform, hph, sendLength, hk.cfg, hw],
      .loaded rfl (hat'.goto _) (fun hp => ?_) fun ht => ?_⟩
    · obtain ⟨h1, h2⟩ := hc hp
      rw [State.goto_chip, hcw hp]
      exact ⟨h1.store _ (by decide) nofun, h2.trans (by simp), rfl⟩
    · exact (hair ht).store hf (by decide) (hcw ht.present)

/-- The wait, and the read of the flags after it (43_tx_fifo.md R155, R156). -/
theorem Sending.step_onAir (hph : u.phase = .sendTxSettle ∨ u.phase = .sendWait ∨ u.phase = .sendReadIrq)
    (hat : CommandAt s .tx (sendFrames s n) u)
    (hc : s.cfg.chipPresent = true → LoadedChip s n c₀ u.chip ∧ u.chip.dioMapping = s.cfg.mapTxDone)
    (hair : TxClear s c₀ → OnAir s n u) : ∃ t, perform d u = .next t ∧ Sending s n c₀ t := by
  rcases hph with hph | hph | hph <;> simp only [perform, hph]
  · exact ⟨_, rfl, .onAir (.inr (.inl rfl)) (hat.goto _) hc
      fun ht => (hair ht).imp id fun hs => hs.congr rfl rfl⟩
  · rw [sendWait]
    split
    · exact ⟨_, rfl, .onAir (.inr (.inr rfl)) (hat.goto _) hc
        fun ht => (hair ht).imp id fun hs => hs.congr rfl rfl⟩
    · exact ⟨_, rfl, .restore _ _ rfl (hat.goto _) (.inr ⟨rfl, rfl⟩) hc nofun⟩
  · obtain ⟨v, w, hw, hf, hat', hcw⟩ := hat.read hwf hk.cfg hd .irqFlags
    refine ⟨w.goto (.sendAckIrq v), by rw [sendReadIrq, hk.cfg, hw, FrameResult.andThen_done],
      .flags v rfl (hat'.goto _) (fun hp => ?_)
      fun ht hv => ?_⟩
    · rw [State.goto_chip, (hcw hp).2]
      exact hc hp
    · obtain ⟨hval, hchip⟩ := hcw ht.present
      rcases hair ht with ⟨hclear, -⟩ | hs
      · rw [State.txDone, hk.cfg] at hclear
        rw [hval] at hv
        exact absurd hv (by simp [Chip.value, hclear])
      · exact hs.congr (by rw [State.goto_chip, hchip]; rfl) hf.txLog

/-- Every micro-step of SEND after S1. -/
theorem Sending.step (hb : u.phase ≠ .idle) (h : Sending s n c₀ u) : ∃ t, perform d u = .next t ∧ Sending s n c₀ t := by
  cases h with
  | standby hph hat hc hair =>
    rcases hph with hph | hph <;> simp only [perform, hph]
    · exact ⟨_, rfl, .standby (.inr rfl) (hat.goto _) hc fun ht => ⟨(hair ht).clear, (hair ht).idle, (hair ht).log⟩⟩
    · obtain ⟨w, hw, hf, hat', hcw⟩ := hat.write hwf hk.cfg hd (r := .fifoAddrPtr) s.cfg.txBase nofun rfl
      refine ⟨w.goto (payloadFrom n 0), by rw [sendPointer, hk.cfg, hw, FrameResult.andThen_done],
        .loading 0 (by omega) rfl (hat'.goto _)
        (fun hp => ?_) fun ht => (hair ht).store hf (by decide) (hcw ht.present)⟩
      rw [State.goto_chip, hcw hp]
      exact ⟨(hc hp).store _ (by decide) nofun, (by simp [Chip.store])⟩
  | loading i hi hph hat hc hair => exact Sending.step_loading hwf hd hk hi hph hat hc hair
  | loaded hph hat hc hair =>
    obtain ⟨w, hw, hf, hat', hcw⟩ := hat.write hwf hk.cfg hd (r := .dioMapping) s.cfg.mapTxDone nofun rfl
    simp only [perform, hph]
    refine ⟨w.goto .sendTx, by rw [sendMap, hk.cfg, hw, FrameResult.andThen_done],
      .mapped rfl (by simpa using hat'.goto _) (fun hp => ?_)
      fun ht => (hair ht).store hf (by decide) (hcw ht.present)⟩
    rw [State.goto_chip, hcw hp]
    exact ⟨⟨(hc hp).toSendChip.store _ (by decide) nofun, (hc hp).pointer, (hc hp).length⟩, rfl⟩
  | mapped hph hat hc hair =>
    obtain ⟨w, hw, hphw, hgw, hlog, -, hat', hcw⟩ := hat.setMode hwf hk.cfg hd .tx .sendTxSettle
    simp only [perform, hph]
    refine ⟨w, hw, .onAir (.inl hphw) ?_ (fun hp => ?_) fun ht => .inl ⟨?_, hlog.trans (hair ht).log⟩⟩
    · simpa [sendFrames, sendPrelude, payload, Function.comp_def] using hat'
    · rw [hcw hp]
      exact ⟨⟨(hc hp).1.toSendChip.setMode _ nofun nofun, (hc hp).1.pointer, (hc hp).1.length⟩, (hc hp).2⟩
    · have hclear := (hair ht).clear
      rw [State.txDone, hk.cfg] at hclear
      rw [State.txDone, hgw, hcw ht.present]
      exact hclear
  | onAir hph hat hc hair => exact Sending.step_onAir hwf hd hk hph hat hc hair
  | flags v hph hat hc hair =>
    obtain ⟨w, hw, hf, hat', hcw⟩ := hat.write hwf hk.cfg hd (r := .irqFlags) v nofun rfl
    simp only [perform, hph]
    refine ⟨w.goto (.sendRestore (sendResult s.cfg v)),
      by rw [sendAckIrq, hk.cfg, hw, FrameResult.andThen_done, hf.cfg, hk.cfg],
      .restore _ _ rfl (hat'.goto _) (.inl ⟨v, by simp, rfl⟩) (fun hp => ?_) fun ht hok => ?_⟩
    · rw [State.goto_chip, hcw hp]
      exact ⟨⟨(hc hp).1.toSendChip.store _ (by decide) nofun, (hc hp).1.pointer, (hc hp).1.length⟩, (hc hp).2⟩
    · have hv : v.getLsbD s.cfg.irqBits.txDone = true := by
        by_contra hv
        simp [sendResult, irqHas, hv] at hok
      exact (hair ht hv).congr (by rw [State.goto_chip, hcw ht.present]; rfl) hf.txLog
  | restore recs res hph hat hout hc hair =>
    obtain ⟨w, hw, hphw, -, hlog, -, hat', hcw⟩ := hat.setMode hwf hk.cfg hd .standby (.sendRestoreSettle res)
    simp only [perform, hph]
    refine ⟨w, hw, .restored recs res (.inl hphw) hat' hout (fun hp => ?_)
      fun ht hok => ⟨?_, hlog.trans (hair ht hok).log⟩⟩
    · rw [hcw hp]
      exact ⟨⟨⟨(hc hp).1.toSendChip.setMode _ nofun nofun, (hc hp).1.pointer, (hc hp).1.length⟩, (hc hp).2⟩, rfl⟩
    · rw [hcw ht.present]; rfl
  | restored recs res hph hat hout hc hair =>
    rcases hph with hph | hph | ⟨hph, -⟩
    · simp only [perform, hph]
      exact ⟨_, rfl, .restored recs res (.inr (.inl rfl)) (hat.goto _) hout hc
        fun ht hok => (hair ht hok).congr rfl rfl⟩
    · simp only [perform, hph]
      exact ⟨_, rfl, .restored recs res (.inr (.inr ⟨rfl, rfl⟩)) (hat.finish _) hout hc
        fun ht hok => (hair ht hok).congr rfl rfl⟩
    · exact absurd hph hb

end

/-! ### SEND from its acceptance to Idle -/

/-- S1: the chip is in Standby with the mode frame sent. -/
theorem Sending.start {s : State} (n : Byte) (hs : s.Ready) (hb : s.busSound) :
    ∃ t, perform s.nextDraw (s.started (.send n)).afterRadio = .next t ∧
      Sending s n (radioSteps s.nextDraw.events s).chip t := by
  obtain ⟨w, hw, hph, hg, hlog, -, hat, hc⟩ := (CommandAt.started (.send n) hs).afterRadio.setMode hs.cfg_wf (by simp)
    hb.nextDraw .standby (.sendStandbySettle n)
  rw [State.started_afterRadio_chip _ hs.idle] at hc
  rw [State.started_afterRadio_txLog _ hs.idle] at hlog
  simp only [perform, State.afterRadio_phase, State.started_phase, firstPhase]
  refine ⟨w, hw, .standby (.inl hph) hat (fun hp => ?_) fun ht => ⟨?_, ?_, ?_⟩⟩
  · rw [hc hp]
    exact SendChip.setMode ⟨fun _ _ => rfl, rfl, fun _ hj => absurd hj (Nat.not_lt_zero _),
      fun _ _ => rfl⟩ _ nofun nofun
  · rw [State.txDone, hg, hc ht.present]
    exact ht.clear
  · rw [hc ht.present]; rfl
  · rw [hlog]
    refine (radioSteps_clear s.nextDraw.events hs.cfg_wf ?_).2
    rw [State.txDone, radioSteps_cfg]
    exact ht.clear

/-- What a SEND whose frames complete comes to. -/
structure SendEnds (s : State) (n : Byte) (c₀ : Chip) (recs : List BusRecord) (t : State) : Prop where
  idle : t.phase = .idle
  keeps : KeepsOperands s t
  core : CommandAt s .standby (recs ++ [wrote s.cfg .opMode (modeByte s.cfg .standby)]) t
  outcome : SendOutcome s n recs t.status
  chip : s.cfg.chipPresent = true → LoadedChip s n c₀ t.chip ∧ t.chip.dioMapping = s.cfg.mapTxDone
  pending : s.cfg.chipPresent = true → t.chip.txPending = false
  sent : TxClear s c₀ → t.status = .ok → Sent s n t

theorem send_completes {s : State} (n : Byte) (hs : s.Ready) (hq : s.hostQuiet) (hb : s.busSound) :
    ∃ t recs, exec (.send n) s = .next t ∧ SendEnds s n (radioSteps s.nextDraw.events s).chip recs t := by
  obtain ⟨t, ht, htid, hk, h⟩ := exec_session_first (i := .send n)
    (I := Sending s n (radioSteps s.nextDraw.events s).chip) rfl hs.idle (fun _ => hs.configured) hq hb
    (Sending.start n hs hb)
    (fun u hu h => h.afterRadio hs.cfg_wf hu.keeps.cfg) fun d u hd hk h hne => h.step hs.cfg_wf hd hk hne
  cases h with
  | restored recs res hph hat hout hc hair =>
    obtain rfl : t.status = res := by simpa [htid] using hph
    exact ⟨t, recs, ht, htid, hk, hat, hout, fun hp => (hc hp).1, fun hp => (hc hp).2, hair⟩
  | loading i hi hph =>
    rw [htid, payloadFrom] at hph
    split at hph <;> cases hph
  | loaded hph | mapped hph | flags _ hph | restore _ _ hph => rw [htid] at hph; cases hph
  | standby hph | onAir hph => simp [htid] at hph

/-- SEND's result is Ok or TxTimeout (60_exceptions.md R201). -/
theorem SendOutcome.code {s : State} {n : Byte} {recs : List BusRecord} {res : ResultCode}
    (h : SendOutcome s n recs res) :
    res = .ok ∨ res = .txTimeout := by
  rcases h with ⟨v, -, rfl⟩ | ⟨-, rfl⟩
  · split
    · exact .inl rfl
    · exact .inr rfl
  · exact .inr rfl

/-- Settles O30: the return to Standby ends both ways through SEND, and its stores are the chip's only changes. -/
theorem sendEndsInStandby : Obligations.SendEndsInStandby := by
  unfold Obligations.SendEndsInStandby
  intro s n hs hq hb
  obtain ⟨t, recs, ht, hend⟩ := send_completes n hs hq hb
  obtain ⟨hrdata, hfrf, -, -, -, hpkt⟩ := (commandsKeepWhatTheyDoNotName s t (.send n) rfl ht).2
  have hat := hend.core
  refine ⟨t, ht, hat.mode, hat.agree, hend.outcome.code, hend.idle, hat.configured, hpkt nofun hs.idle, hend.keeps,
    hrdata nofun, hfrf nofun nofun, hat.csN, hat.resetN, fun hp => ⟨hend.pending hp, fun ha => ?_⟩⟩
  have hst : s.still := .inl ha
  obtain ⟨hc, hmap⟩ := hend.chip hp
  rw [hst.radioSteps] at hc
  rw [exec_runs rfl hs.idle (fun _ => hs.configured)] at ht
  exact ⟨runToIdle_still (s := s.started (.send n)) hst ht, hc.pointer, hc.length, hmap, hc.rxwp, hc.loaded,
    hc.untouched, hc.rest⟩

/-- Settles O31: the records at S9 are those of its two ways there. -/
theorem sendSendsItsFramesInOrder : Obligations.SendSendsItsFramesInOrder := by
  unfold Obligations.SendSendsItsFramesInOrder
  intro s t n hs hq hb ht
  obtain ⟨t', recs, ht', hend⟩ := send_completes n hs hq hb
  obtain rfl : t = t' := by rw [ht] at ht'; cases ht'; rfl
  have hbus := hend.core.busLog
  rcases hend.outcome with ⟨v, rfl, hres⟩ | ⟨rfl, hres⟩
  · exact .inl ⟨v, by simpa using hbus, hres⟩
  · exact .inr ⟨by simpa using hbus, hres⟩

/-- Settles O32: from S6 to the read of the flags the chip is in Tx with the payload in the FIFO, so TxDone among the
flags read means that it has gone on air. -/
theorem successfulSendPutsThePayloadOnAir : Obligations.SuccessfulSendPutsThePayloadOnAir := by
  unfold Obligations.SuccessfulSendPutsThePayloadOnAir
  intro s t n hs hq hb hp hclear hbase ht hok
  obtain ⟨t', recs, ht', hend⟩ := send_completes n hs hq hb
  obtain rfl : t = t' := by rw [ht] at ht'; cases ht'; rfl
  exact (hend.sent ⟨hp, hclear, by simpa using hbase⟩ hok).log

end Sys2Proof.Machine
end

section
/-! Proofs about POLL (44_rx_crc.md): where it ends whatever the Radio does, and, with no Radio event inside it, what it
makes of the packet that waits in the chip. -/

namespace Sys2Proof.Machine

/-! ### The chip's side of POLL with no Radio event inside it -/

/-- A chip is attached and no Radio event falls inside the command. -/
def QuietAir (s : State) : Prop := s.cfg.chipPresent = true ∧ s.airQuiet

/-- The registers POLL moves. -/
def pollRegs : List Reg := [.opMode, .fifo, .fifoAddrPtr, .dioMapping, .irqFlags]

/-- The chip inside POLL: what POLL moves are the flags `f`, the FIFO pointer `p` and the receive pointer `w`. -/
structure PollChip (s : State) (f p w : Byte) (c : Chip) : Prop where
  rest : ∀ r ∉ pollRegs, c.value s.cfg r = s.chip.value s.cfg r
  fifo : c.fifo = s.chip.fifo
  map : c.dioMapping = s.cfg.mapRxDone
  flags : c.irqFlags = f
  pointer : c.fifoAddrPtr = p
  rxwp : c.rxwp = w

section
variable {s : State} {f p w : Byte} {c : Chip}

/-- The mapping write of P1. -/
theorem PollChip.mapped (s : State) :
    PollChip s s.chip.irqFlags s.chip.fifoAddrPtr s.chip.rxwp (s.chip.store .dioMapping s.cfg.mapRxDone) where
  rest r hr := by
    refine Chip.value_store_other _ _ _ ?_ ?_ ?_ <;> rintro rfl <;> simp [pollRegs] at hr
  fifo := rfl
  map := rfl
  flags := rfl
  pointer := rfl
  rxwp := rfl

variable (h : PollChip s f p w c)
include h

/-- The write-back of P3 (10_state.md R43). -/
theorem PollChip.ack (v : Byte) : PollChip s (irqClear f v) p w (c.store .irqFlags v) where
  rest r hr := by
    rw [← h.rest r hr]
    refine Chip.value_store_other _ _ _ ?_ ?_ ?_ <;> rintro rfl <;> simp [pollRegs] at hr
  fifo := h.fifo
  map := h.map
  flags := by show irqClear c.irqFlags v = _; rw [h.flags]
  pointer := h.pointer
  rxwp := h.rxwp

theorem PollChip.setPointer (a : Byte) : PollChip s f a w (c.store .fifoAddrPtr a) where
  rest r hr := by
    rw [← h.rest r hr]
    refine Chip.value_store_other _ _ _ ?_ ?_ ?_ <;> rintro rfl <;> simp [pollRegs] at hr
  fifo := h.fifo
  map := h.map
  flags := h.flags
  pointer := rfl
  rxwp := h.rxwp

/-- A read moves the FIFO pointer at most. -/
theorem PollChip.read (r : Reg) : PollChip s f (if r = .fifo then p + 1#8 else p) w (c.afterRead r) := by
  by_cases hr : r = .fifo
  · subst hr
    refine ⟨fun r hr => ?_, h.fifo, h.map, h.flags, ?_, h.rxwp⟩
    · rw [← h.rest r hr]
      cases r <;> first | rfl | simp [pollRegs] at hr
    · show c.fifoAddrPtr + 1#8 = _
      rw [h.pointer, if_pos rfl]
  · rw [if_neg hr, Chip.afterRead_other c hr]
    exact h

/-- Entering RxContinuous sets the receive pointer to the RX base (42_mode.md R139). -/
theorem PollChip.listen (k : Nat) : PollChip s f p s.chip.fifoRxBase (c.setMode s.cfg k .rxContinuous) where
  rest r hr := by
    rw [← h.rest r hr]
    exact Chip.value_setMode _ _ _ _ (by rintro rfl; simp [pollRegs] at hr) (by rintro rfl; simp [pollRegs] at hr)
  fifo := h.fifo
  map := h.map
  flags := h.flags
  pointer := h.pointer
  rxwp := by
    rw [Chip.setMode_rxwp, if_pos rfl]
    exact h.rest .fifoRxBase (by decide)

/-- The line follows RxDone (60_exceptions.md R210). -/
theorem PollChip.dioLevel {u : State} (d : Draw) (hwf : s.cfg.wf = true) (hg : u.cfg = s.cfg)
    (hp : s.cfg.chipPresent = true) (hc : u.chip = c) : dioLevel d u = f.getLsbD s.cfg.irqBits.rxDone := by
  have hsel : dioSelect c.dioMapping = 0b00#2 := by rw [h.map]; exact Cfg.wf_mapRx hwf
  rw [Machine.dioLevel, hg, hc, if_pos hp, if_pos hsel, irqHas, h.flags]

end

/-! ### The core and the chip inside POLL -/

/-- The core inside POLL with no Packet yet, and the chip's side. -/
structure PollAt (s : State) (m : Mode) (recs : List BusRecord) (f p w : Byte) (u : State) : Prop
    extends CommandAt s m recs u where
  valid : u.packet.valid = false
  chip : QuietAir s → PollChip s f p w u.chip

section
variable {s u : State} {m : Mode} {recs : List BusRecord} {f p w : Byte} (h : PollAt s m recs f p w u)
include h

theorem PollAt.afterRadio (hs : Session s u) : PollAt s m recs f p w u.afterRadio := by
  refine ⟨h.toCommandAt.afterRadio, by simpa using h.valid, fun hq => ?_⟩
  rw [State.afterRadio_quiet (hs.air hq.2).nextDraw]
  exact h.chip hq

theorem PollAt.goto (ph : Phase) : PollAt s m recs f p w (u.goto ph) := ⟨h.toCommandAt.goto ph, h.valid, h.chip⟩

theorem PollAt.finish (code : ResultCode) : PollAt s m recs f p w (u.finish code) :=
  ⟨h.toCommandAt.finish code, h.valid, h.chip⟩

variable {d : Draw} (hwf : s.cfg.wf = true) (hg : u.cfg = s.cfg) (hd : d.fate = .completes)
include hwf hg hd

/-- A read frame of POLL. -/
theorem PollAt.read (r : Reg) :
    ∃ v t, memRead d (s.cfg.map.addr r) u = .done v t ∧ t.cfg = s.cfg ∧ t.packet = u.packet ∧
      (QuietAir s → v = u.chip.value s.cfg r) ∧
      PollAt s m (recs ++ [didRead s.cfg r v]) f (if r = .fifo then p + 1#8 else p) w t := by
  obtain ⟨v, t, ht, hf, hat, hc⟩ := h.toCommandAt.read hwf hg hd r
  refine ⟨v, t, ht, hf.cfg.trans hg, hf.packet, fun hq => (hc hq.1).1, hat, hf.packet ▸ h.valid, fun hq => ?_⟩
  rw [(hc hq.1).2]
  exact (h.chip hq).read r

/-- The mode frame of POLL. -/
theorem PollAt.listen (ph : Phase) :
    ∃ t, setModeFrame d .rxContinuous ph u = .next t ∧ t.phase = ph ∧
      PollAt s .rxContinuous (recs ++ [wrote s.cfg .opMode (modeByte s.cfg .rxContinuous)]) f p s.chip.fifoRxBase t := by
  obtain ⟨t, ht, hph, -, -, hpkt, hat, hc⟩ := h.toCommandAt.setMode hwf hg hd .rxContinuous ph
  refine ⟨t, ht, hph, hat, hpkt ▸ h.valid, fun hq => ?_⟩
  rw [hc hq.1]
  exact (h.chip hq).listen u.free

end

/-! ### The positions of POLL -/

/-- The frames of P1 (44_rx_crc.md R166). -/
def pollHead (s : State) : List BusRecord :=
  wrote s.cfg .dioMapping s.cfg.mapRxDone ::
    if s.mode = .rxContinuous then [] else [wrote s.cfg .opMode (modeByte s.cfg .rxContinuous)]

/-- The frames of P1 and P3 (44_rx_crc.md R168). -/
def pollFlags (s : State) (v : Byte) : List BusRecord :=
  pollHead s ++ [didRead s.cfg .irqFlags v, wrote s.cfg .irqFlags v]

/-- The receive pointer when POLL waits. -/
def listenPointer (s : State) : Byte := if s.mode = .rxContinuous then s.chip.rxwp else s.chip.fifoRxBase

/-- The flags POLL has read, with no Radio event inside it: those of the start, RxDone among them. -/
def Heard (s : State) (v : Byte) : Prop :=
  QuietAir s → v = s.chip.irqFlags ∧ s.chip.irqFlags.getLsbD s.cfg.irqBits.rxDone = true

/-- How POLL comes to a result without a Packet: its frames before a re-arm, its result, the flags it leaves, and whether
it re-arms (44_rx_crc.md R167, R169, R171). -/
inductive PollFails (s : State) : List BusRecord → ResultCode → Byte → Bool → Prop
  | timeout (hq : QuietAir s → s.cfg.waitStrict = true → s.chip.irqFlags.getLsbD s.cfg.irqBits.rxDone = false) :
      PollFails s (pollHead s) .rxTimeout s.chip.irqFlags s.cfg.rxRearmOnTimeout
  | silent (v : Byte) (hq : ¬ QuietAir s) : PollFails s (pollFlags s v) .rxTimeout 0#8 false
  | crc (v : Byte) (hv : v.getLsbD s.cfg.irqBits.payloadCrcError = true) (hq : Heard s v) :
      PollFails s (pollFlags s v) .crcError 0#8 true

/-- The readout of a packet: what was read, and what the Packet registers hold of it (44_rx_crc.md R172 to R175). -/
structure Readout where
  flags : Byte
  current : Byte
  count : Byte
  data : List Byte

/-- The frames of a readout up to its data. -/
def Readout.frames (o : Readout) (s : State) : List BusRecord :=
  pollFlags s o.flags ++
    [didRead s.cfg .fifoRxCurrent o.current, wrote s.cfg .fifoAddrPtr o.current, didRead s.cfg .rxNbBytes o.count] ++
    o.data.map (didRead s.cfg .fifo)

/-- A readout with no Radio event inside the command reads what the chip held at its start. -/
structure Readout.Reads (o : Readout) (s : State) : Prop where
  clean : o.flags.getLsbD s.cfg.irqBits.payloadCrcError = false
  heard : Heard s o.flags
  current : QuietAir s → o.current = s.chip.fifoRxCurrent
  count : QuietAir s → o.count = s.chip.rxNbBytes
  data : QuietAir s → ∀ j (hj : j < o.data.length), o.data[j] = s.chip.fifo.read (o.current + BitVec.ofNat 8 j).toNat

/-- The state at each position of a POLL whose frames complete, after its first. -/
inductive Polling (s u : State) : Prop
  | arm (t : BitVec 16) (hph : u.phase = .pollArm t) (hm : s.mode ≠ .rxContinuous)
      (hat : PollAt s s.mode [wrote s.cfg .dioMapping s.cfg.mapRxDone] s.chip.irqFlags s.chip.fifoAddrPtr s.chip.rxwp u)
  | waiting (t : BitVec 16) (hph : u.phase = .pollArmSettle t ∨ u.phase = .pollWait t)
      (hat : PollAt s .rxContinuous (pollHead s) s.chip.irqFlags s.chip.fifoAddrPtr (listenPointer s) u)
  | signalled (hph : u.phase = .pollReadIrq)
      (hat : PollAt s .rxContinuous (pollHead s) s.chip.irqFlags s.chip.fifoAddrPtr (listenPointer s) u)
      (hq : QuietAir s → s.chip.irqFlags.getLsbD s.cfg.irqBits.rxDone = true)
  | read (v : Byte) (hph : u.phase = .pollAckIrq v)
      (hat : PollAt s .rxContinuous (pollHead s ++ [didRead s.cfg .irqFlags v]) s.chip.irqFlags s.chip.fifoAddrPtr
        (listenPointer s) u)
      (hq : Heard s v)
  | acked (v : Byte) (hph : u.phase = .pollTest v)
      (hat : PollAt s .rxContinuous (pollFlags s v) 0#8 s.chip.fifoAddrPtr (listenPointer s) u) (hq : Heard s v)
  | verified (v : Byte) (hv : v.getLsbD s.cfg.irqBits.payloadCrcError = false) (hph : u.phase = .pollReadCurrent)
      (hat : PollAt s .rxContinuous (pollFlags s v) 0#8 s.chip.fifoAddrPtr (listenPointer s) u) (hq : Heard s v)
  | located (v a : Byte) (hv : v.getLsbD s.cfg.irqBits.payloadCrcError = false) (hph : u.phase = .pollPointer a)
      (hat : PollAt s .rxContinuous (pollFlags s v ++ [didRead s.cfg .fifoRxCurrent a]) 0#8 s.chip.fifoAddrPtr
        (listenPointer s) u)
      (hq : Heard s v) (ha : QuietAir s → a = s.chip.fifoRxCurrent)
  | pointed (v a : Byte) (hv : v.getLsbD s.cfg.irqBits.payloadCrcError = false) (hph : u.phase = .pollReadCount)
      (hat : PollAt s .rxContinuous
        (pollFlags s v ++ [didRead s.cfg .fifoRxCurrent a, wrote s.cfg .fifoAddrPtr a]) 0#8 a
        (listenPointer s) u)
      (hq : Heard s v) (ha : QuietAir s → a = s.chip.fifoRxCurrent)
  | reading (o : Readout) (hn : o.data.length ≤ o.count.toNat) (hph : u.phase = readoutFrom o.count o.data.length)
      (hat : PollAt s .rxContinuous (o.frames s) 0#8 (o.current + BitVec.ofNat 8 o.data.length) (listenPointer s) u)
      (hbuf : ∀ j (hj : j < o.data.length), u.packet.rxBuf.read j = o.data[j]) (hr : o.Reads s)
  | measured (o : Readout) (r : Byte) (hn : o.data.length = o.count.toNat) (hph : u.phase = .pollReadSnr o.count r)
      (hat : PollAt s .rxContinuous (o.frames s ++ [didRead s.cfg .pktRssi r]) 0#8
        (o.current + BitVec.ofNat 8 o.data.length) (listenPointer s) u)
      (hbuf : ∀ j (hj : j < o.data.length), u.packet.rxBuf.read j = o.data[j]) (hr : o.Reads s)
      (hrssi : QuietAir s → r = s.chip.pktRssi)
  | complete (o : Readout) (r q : Byte) (hn : o.data.length = o.count.toNat) (hph : u.phase = .pollPacket o.count r q)
      (hat : PollAt s .rxContinuous (o.frames s ++ [didRead s.cfg .pktRssi r, didRead s.cfg .pktSnr q]) 0#8
        (o.current + BitVec.ofNat 8 o.data.length) (listenPointer s) u)
      (hbuf : ∀ j (hj : j < o.data.length), u.packet.rxBuf.read j = o.data[j]) (hr : o.Reads s)
      (hrssi : QuietAir s → r = s.chip.pktRssi) (hsnr : QuietAir s → q = s.chip.pktSnr)
  | handed (o : Readout) (r q : Byte) (hn : o.data.length = o.count.toNat)
      (hph : u.phase = .pollEnd .ok ∨ u.phase = .idle ∧ u.status = .ok)
      (hat : CommandAt s .rxContinuous (o.frames s ++ [didRead s.cfg .pktRssi r, didRead s.cfg .pktSnr q]) u)
      (hc : QuietAir s → PollChip s 0#8 (o.current + BitVec.ofNat 8 o.data.length) (listenPointer s) u.chip)
      (hbuf : ∀ j (hj : j < o.data.length), u.packet.rxBuf.read j = o.data[j]) (hr : o.Reads s)
      (hrssi : QuietAir s → r = s.chip.pktRssi) (hsnr : QuietAir s → q = s.chip.pktSnr)
      (hpkt : u.packet.valid = true ∧ u.packet.rxLen = o.count ∧ u.packet.rssiDbm = rssiDbmOf r ∧
        u.packet.snrQ = snrQOf q)
  | rearm (recs : List BusRecord) (res : ResultCode) (f : Byte) (hph : u.phase = .pollRearm res)
      (hf : PollFails s recs res f true)
      (hat : PollAt s .rxContinuous recs f s.chip.fifoAddrPtr (listenPointer s) u)
  | failed (recs : List BusRecord) (res : ResultCode) (f : Byte) (b : Bool)
      (hph : u.phase = .pollRearmSettle res ∨ u.phase = .pollEnd res ∨ u.phase = .idle ∧ u.status = res)
      (hf : PollFails s recs res f b)
      (hat : PollAt s .rxContinuous
        (recs ++ if b then [wrote s.cfg .opMode (modeByte s.cfg .rxContinuous)] else []) f s.chip.fifoAddrPtr
        (if b then s.chip.fifoRxBase else listenPointer s) u)

theorem Polling.afterRadio {s u : State} (hs : Session s u) (h : Polling s u) : Polling s u.afterRadio := by
  cases h with
  | arm t hph hm hat => exact .arm t (by simpa using hph) hm (hat.afterRadio hs)
  | waiting t hph hat => exact .waiting t (by simpa using hph) (hat.afterRadio hs)
  | signalled hph hat hq => exact .signalled (by simpa using hph) (hat.afterRadio hs) hq
  | read v hph hat hq => exact .read v (by simpa using hph) (hat.afterRadio hs) hq
  | acked v hph hat hq => exact .acked v (by simpa using hph) (hat.afterRadio hs) hq
  | verified v hv hph hat hq => exact .verified v hv (by simpa using hph) (hat.afterRadio hs) hq
  | located v a hv hph hat hq ha => exact .located v a hv (by simpa using hph) (hat.afterRadio hs) hq ha
  | pointed v a hv hph hat hq ha => exact .pointed v a hv (by simpa using hph) (hat.afterRadio hs) hq ha
  | reading o hn hph hat hbuf hr => exact .reading o hn (by simpa using hph) (hat.afterRadio hs) (by simpa using hbuf) hr
  | measured o r hn hph hat hbuf hr hrssi =>
    exact .measured o r hn (by simpa using hph) (hat.afterRadio hs) (by simpa using hbuf) hr hrssi
  | complete o r q hn hph hat hbuf hr hrssi hsnr =>
    exact .complete o r q hn (by simpa using hph) (hat.afterRadio hs) (by simpa using hbuf) hr hrssi hsnr
  | handed o r q hn hph hat hc hbuf hr hrssi hsnr hpkt =>
    refine .handed o r q hn (by simpa using hph) hat.afterRadio (fun hq => ?_) (by simpa using hbuf) hr hrssi hsnr
      (by simpa using hpkt)
    rw [State.afterRadio_quiet (hs.air hq.2).nextDraw]
    exact hc hq
  | rearm recs res f hph hf hat => exact .rearm recs res f (by simpa using hph) hf (hat.afterRadio hs)
  | failed recs res f b hph hf hat => exact .failed recs res f b (by simpa using hph) hf (hat.afterRadio hs)

/-! ### The micro-steps -/

section
variable {s u : State} {d : Draw} (hwf : s.cfg.wf = true) (hd : d.fate = .completes) (hk : KeepsOperands s u)
include hwf hd hk

omit hd in
/-- P2: with no Radio event DIO is RxDone (44_rx_crc.md R167). -/
theorem Polling.step_wait {t : BitVec 16} (hph : u.phase = .pollWait t)
    (hat : PollAt s .rxContinuous (pollHead s) s.chip.irqFlags s.chip.fifoAddrPtr (listenPointer s) u) :
    ∃ v, perform d u = .next v ∧ Polling s v := by
  have hdio (hq : QuietAir s) : dioLevel d u = s.chip.irqFlags.getLsbD s.cfg.irqBits.rxDone :=
    (hat.chip hq).dioLevel d hwf hk.cfg hq.1 rfl
  simp only [perform, hph, pollWait]
  split
  · next hw =>
    exact ⟨_, rfl, .signalled rfl (hat.goto _) fun hq => hdio hq ▸ (waitSignalled_eq_true_iff.mp hw).1⟩
  · next hw =>
    have hfail := PollFails.timeout (s := s) fun hq hs => by
      rcases waitSignalled_eq_false_iff.mp (Bool.eq_false_iff.mpr hw) with hlow | ⟨hlax, -⟩
      · exact hdio hq ▸ hlow
      · rw [hk.cfg, hs] at hlax; cases hlax
    rw [hk.cfg]
    cases hre : s.cfg.rxRearmOnTimeout with
    | true =>
      rw [hre] at hfail
      exact ⟨_, rfl, .rearm _ _ _ rfl hfail (hat.goto _)⟩
    | false =>
      rw [hre] at hfail
      exact ⟨_, rfl, .failed _ _ _ false (.inr (.inl rfl)) hfail (by simpa using hat.goto (.pollEnd .rxTimeout))⟩

/-- P3: the flags are read and the same byte is written back (44_rx_crc.md R168). -/
theorem Polling.step_ack {v : Byte} (hph : u.phase = .pollAckIrq v)
    (hat : PollAt s .rxContinuous (pollHead s ++ [didRead s.cfg .irqFlags v]) s.chip.irqFlags s.chip.fifoAddrPtr
      (listenPointer s) u)
    (hq : Heard s v) : ∃ t, perform d u = .next t ∧ Polling s t := by
  obtain ⟨t, ht, hf, hat', hc⟩ := hat.toCommandAt.write hwf hk.cfg hd (r := .irqFlags) v nofun rfl
  simp only [perform, hph]
  refine ⟨t.goto (.pollTest v), by rw [pollAckIrq, hk.cfg, ht, FrameResult.andThen_done],
    .acked v rfl ⟨by simpa [pollFlags] using hat'.goto (.pollTest v), hf.packet ▸ hat.valid, fun hquiet => ?_⟩ hq⟩
  have hzero : irqClear s.chip.irqFlags v = 0#8 := by
    rw [(hq hquiet).1]; exact BitVec.and_not_self _
  rw [State.goto_chip, hc hquiet.1, ← hzero]
  exact (hat.chip hquiet).ack v

omit hwf hd in
/-- P4: the verdict on the flags read (44_rx_crc.md R169, R171). -/
theorem Polling.step_test {v : Byte} (hph : u.phase = .pollTest v)
    (hat : PollAt s .rxContinuous (pollFlags s v) 0#8 s.chip.fifoAddrPtr (listenPointer s) u) (hq : Heard s v) :
    ∃ t, perform d u = .next t ∧ Polling s t := by
  simp only [perform, hph, pollTest, crcVerdict, hk.cfg, irqHas]
  refine ⟨_, rfl, ?_⟩
  split
  · next hcrc => exact .rearm _ _ _ rfl (.crc v hcrc hq) (hat.goto _)
  · next hcrc =>
    split
    · exact .verified v (by simpa using hcrc) rfl (hat.goto _) hq
    · next hdone =>
      refine .failed _ _ _ false (.inr (.inl rfl)) (.silent v fun hquiet => hdone ?_)
        (by simpa using hat.goto (.pollEnd .rxTimeout))
      rw [(hq hquiet).1]
      exact (hq hquiet).2

/-- P5: the FIFO pointer goes to the packet's first index (44_rx_crc.md R172). -/
theorem Polling.step_pointer {v a : Byte} (hv : v.getLsbD s.cfg.irqBits.payloadCrcError = false)
    (hph : u.phase = .pollPointer a)
    (hat : PollAt s .rxContinuous (pollFlags s v ++ [didRead s.cfg .fifoRxCurrent a]) 0#8 s.chip.fifoAddrPtr
      (listenPointer s) u)
    (hq : Heard s v) (ha : QuietAir s → a = s.chip.fifoRxCurrent) : ∃ t, perform d u = .next t ∧ Polling s t := by
  obtain ⟨t, ht, hf, hat', hc⟩ := hat.toCommandAt.write hwf hk.cfg hd (r := .fifoAddrPtr) a nofun rfl
  simp only [perform, hph]
  refine ⟨t.goto .pollReadCount, by rw [pollPointer, hk.cfg, ht, FrameResult.andThen_done],
    .pointed v a hv rfl ⟨by simpa using hat'.goto .pollReadCount, hf.packet ▸ hat.valid, fun hquiet => ?_⟩ hq ha⟩
  rw [State.goto_chip, hc hquiet.1]
  exact (hat.chip hquiet).setPointer a

/-- P5 and P6: the next FIFO byte into RXBUF, or the RSSI register when the packet is read (44_rx_crc.md R173, R174). -/
theorem Polling.step_reading (o : Readout) (hn : o.data.length ≤ o.count.toNat)
    (hph : u.phase = readoutFrom o.count o.data.length)
    (hat : PollAt s .rxContinuous (o.frames s) 0#8 (o.current + BitVec.ofNat 8 o.data.length) (listenPointer s) u)
    (hbuf : ∀ j (hj : j < o.data.length), u.packet.rxBuf.read j = o.data[j]) (hr : o.Reads s) :
    ∃ t, perform d u = .next t ∧ Polling s t := by
  rw [readoutFrom] at hph
  split at hph
  · next hlt =>
    obtain ⟨v, t, ht, hg, hpkt, hv, hat'⟩ := hat.read hwf hk.cfg hd .fifo
    rw [if_pos rfl] at hat'
    have hrun : perform d u = .next (({ t with packet := { t.packet with
        rxBuf := t.packet.rxBuf.write o.data.length v } } : State).goto (readoutFrom o.count (o.data.length + 1))) := by
      simp [perform, hph, pollReadout, hk.cfg, ht]
    refine ⟨_, hrun, .reading { o with data := o.data ++ [v] } (by simpa using hlt) (by simp) ?_ (fun j hj => ?_) ?_⟩
    · have hat'' := hat'.goto (readoutFrom o.count (o.data.length + 1))
      refine ⟨⟨hat''.mode, hat''.configured, hat''.resetN, hat''.csN, hat''.agree.congr rfl rfl rfl rfl, ?_⟩,
        hat''.valid,
        fun hq => ?_⟩
      · simpa [Readout.frames] using hat''.busLog
      · have hnext : o.current + BitVec.ofNat 8 (o.data ++ [v]).length =
            o.current + BitVec.ofNat 8 o.data.length + 1#8 := by
          rw [List.length_append, List.length_singleton, BitVec.ofNat_add, BitVec.add_assoc]
        simp only [hnext]
        exact hat''.chip hq
    · rw [State.goto_packet, hpkt]
      rcases Nat.lt_or_ge j o.data.length with hlt' | hge
      · rw [Mem.read_write_other _ _ _ _ (by omega), List.getElem_append_left hlt']
        exact hbuf j hlt'
      · obtain rfl : j = o.data.length := by simp at hj; omega
        simp
    · refine ⟨hr.clean, hr.heard, hr.current, hr.count, fun hq j hj => ?_⟩
      rcases Nat.lt_or_ge j o.data.length with hlt' | hge
      · rw [List.getElem_append_left hlt']
        exact hr.data hq j hlt'
      · obtain rfl : j = o.data.length := by simp at hj; omega
        have hc := hat.chip hq
        rw [List.getElem_concat_length rfl, hv hq, Chip.value, hc.fifo, hc.pointer]
  · next hge =>
    obtain ⟨r, t, ht, hg, hpkt, hv, hat'⟩ := hat.read hwf hk.cfg hd .pktRssi
    refine ⟨t.goto (.pollReadSnr o.count r), by simp [perform, hph, pollReadRssi, hk.cfg, ht],
      .measured o r (by omega) rfl (hat'.goto _) (by rw [State.goto_packet, hpkt]; exact hbuf) hr fun hq => ?_⟩
    exact (hv hq).trans ((hat.chip hq).rest .pktRssi (by decide))

omit hwf hd hk in
/-- P7: the Packet registers, together (44_rx_crc.md R176). -/
theorem Polling.step_packet (o : Readout) {r q : Byte} (hn : o.data.length = o.count.toNat)
    (hph : u.phase = .pollPacket o.count r q)
    (hat : PollAt s .rxContinuous (o.frames s ++ [didRead s.cfg .pktRssi r, didRead s.cfg .pktSnr q]) 0#8
      (o.current + BitVec.ofNat 8 o.data.length) (listenPointer s) u)
    (hbuf : ∀ j (hj : j < o.data.length), u.packet.rxBuf.read j = o.data[j]) (hr : o.Reads s)
    (hrssi : QuietAir s → r = s.chip.pktRssi) (hsnr : QuietAir s → q = s.chip.pktSnr) :
    ∃ t, perform d u = .next t ∧ Polling s t := by
  simp only [perform, hph]
  exact ⟨_, rfl, .handed o r q hn (.inl rfl)
    ⟨hat.mode, hat.configured, hat.resetN, hat.csN, hat.agree.congr rfl rfl rfl rfl,
      hat.busLog⟩ hat.chip hbuf hr hrssi hsnr
    ⟨rfl, rfl, rfl, rfl⟩⟩

/-- Every micro-step of POLL after its first. -/
theorem Polling.step (hb : u.phase ≠ .idle) (h : Polling s u) : ∃ t, perform d u = .next t ∧ Polling s t := by
  cases h with
  | arm t hph hm hat =>
    obtain ⟨v, hv, hphv, hat'⟩ := hat.listen hwf hk.cfg hd (.pollArmSettle t)
    simp only [perform, hph]
    exact ⟨v, hv, .waiting t (.inl hphv) (by simpa [pollHead, listenPointer, hm] using hat')⟩
  | waiting t hph hat =>
    rcases hph with hph | hph
    · simp only [perform, hph]
      exact ⟨_, rfl, .waiting t (.inr rfl) (hat.goto _)⟩
    · exact Polling.step_wait hwf hk hph hat
  | signalled hph hat hq =>
    obtain ⟨v, t, ht, -, -, hv, hat'⟩ := hat.read hwf hk.cfg hd .irqFlags
    simp only [perform, hph]
    exact ⟨t.goto (.pollAckIrq v), by rw [pollReadIrq, hk.cfg, ht, FrameResult.andThen_done], .read v rfl (hat'.goto _)
      fun hquiet => ⟨(hv hquiet).trans (hat.chip hquiet).flags, hq hquiet⟩⟩
  | read v hph hat hq => exact Polling.step_ack hwf hd hk hph hat hq
  | acked v hph hat hq => exact Polling.step_test hk hph hat hq
  | verified v hv hph hat hq =>
    obtain ⟨a, t, ht, -, -, ha, hat'⟩ := hat.read hwf hk.cfg hd .fifoRxCurrent
    simp only [perform, hph]
    exact ⟨t.goto (.pollPointer a), by rw [pollReadCurrent, hk.cfg, ht, FrameResult.andThen_done],
      .located v a hv rfl (hat'.goto _) hq fun hquiet =>
        (ha hquiet).trans ((hat.chip hquiet).rest .fifoRxCurrent (by decide))⟩
  | located v a hv hph hat hq ha => exact Polling.step_pointer hwf hd hk hv hph hat hq ha
  | pointed v a hv hph hat hq ha =>
    obtain ⟨n, t, ht, -, -, hn, hat'⟩ := hat.read hwf hk.cfg hd .rxNbBytes
    simp only [perform, hph]
    refine ⟨t.goto (readoutFrom n 0), by rw [pollReadCount, hk.cfg, ht, FrameResult.andThen_done],
      .reading ⟨v, a, n, []⟩ (by simp) rfl (by simpa [Readout.frames] using hat'.goto (readoutFrom n 0)) nofun
        ⟨hv, hq, ha, fun hquiet => (hn hquiet).trans ((hat.chip hquiet).rest .rxNbBytes (by decide)), fun _ => nofun⟩⟩
  | reading o hn hph hat hbuf hr => exact Polling.step_reading hwf hd hk o hn hph hat hbuf hr
  | measured o r hn hph hat hbuf hr hrssi =>
    obtain ⟨q, t, ht, -, hpkt, hq, hat'⟩ := hat.read hwf hk.cfg hd .pktSnr
    simp only [perform, hph]
    exact ⟨t.goto (.pollPacket o.count r q), by rw [pollReadSnr, hk.cfg, ht, FrameResult.andThen_done],
      .complete o r q hn rfl (by simpa using hat'.goto (.pollPacket o.count r q))
        (by rw [State.goto_packet, hpkt]; exact hbuf) hr hrssi
        fun hquiet => (hq hquiet).trans ((hat.chip hquiet).rest .pktSnr (by decide))⟩
  | complete o r q hn hph hat hbuf hr hrssi hsnr => exact Polling.step_packet o hn hph hat hbuf hr hrssi hsnr
  | handed o r q hn hph hat hc hbuf hr hrssi hsnr hpkt =>
    rcases hph with hph | ⟨hph, -⟩
    · simp only [perform, hph]
      exact ⟨_, rfl, .handed o r q hn (.inr ⟨rfl, rfl⟩) (hat.finish _) hc hbuf hr hrssi hsnr hpkt⟩
    · exact absurd hph hb
  | rearm recs res f hph hf hat =>
    obtain ⟨t, ht, hpht, hat'⟩ := hat.listen hwf hk.cfg hd (.pollRearmSettle res)
    simp only [perform, hph]
    exact ⟨t, ht, .failed recs res f true (.inl hpht) hf (by simpa using hat')⟩
  | failed recs res f b hph hf hat =>
    rcases hph with hph | hph | ⟨hph, -⟩
    · simp only [perform, hph]
      exact ⟨_, rfl, .failed recs res f b (.inr (.inl rfl)) hf (hat.goto _)⟩
    · simp only [perform, hph]
      exact ⟨_, rfl, .failed recs res f b (.inr (.inr ⟨rfl, rfl⟩)) hf (hat.finish _)⟩
    · exact absurd hph hb

end

/-! ### POLL from its acceptance to Idle -/

/-- P1: the mapping, and the way to the wait (44_rx_crc.md R166). -/
theorem Polling.start {s : State} (ms : BitVec 16) (hs : s.Ready) (hb : s.busSound) :
    ∃ t, perform s.nextDraw (s.started (.poll ms)).afterRadio = .next t ∧ Polling s t := by
  obtain ⟨w, hw, hf, hat, hc⟩ := (CommandAt.started (.poll ms) hs).afterRadio.write hs.cfg_wf (by simp) hb.nextDraw
    (r := .dioMapping) s.cfg.mapRxDone nofun rfl
  have hvalid : w.packet.valid = false := by rw [hf.packet]; simp
  have hmode : w.mode = s.mode := by rw [hf.mode]; simp
  have hchip (hq : QuietAir s) :
      PollChip s s.chip.irqFlags s.chip.fifoAddrPtr s.chip.rxwp w.chip := by
    rw [hc hq.1, (ChipAt.started (.poll ms) hs.idle hq.2 hq.1).1]
    exact PollChip.mapped s
  have hrun : perform s.nextDraw (s.started (.poll ms)).afterRadio =
      .next (w.goto (if s.mode = .rxContinuous then .pollWait ms else .pollArm ms)) := by
    simp [perform, firstPhase, pollMap, hw, hmode]
  refine ⟨_, hrun, ?_⟩
  have hat' : PollAt s s.mode [wrote s.cfg .dioMapping s.cfg.mapRxDone] s.chip.irqFlags s.chip.fifoAddrPtr
      s.chip.rxwp w :=
    ⟨hat, hvalid, hchip⟩
  split
  · next hm =>
    refine .waiting ms (.inr rfl) ?_
    simpa [pollHead, listenPointer, hm] using hat'.goto (.pollWait ms)
  · next hm => exact .arm ms rfl hm (hat'.goto _)

/-- What a POLL whose frames complete comes to. -/
inductive PollEnds (s t : State) : Prop
  | handed (o : Readout) (r q : Byte) (hn : o.data.length = o.count.toNat) (hok : t.status = .ok)
      (hat : CommandAt s .rxContinuous (o.frames s ++ [didRead s.cfg .pktRssi r, didRead s.cfg .pktSnr q]) t)
      (hc : QuietAir s → PollChip s 0#8 (o.current + BitVec.ofNat 8 o.data.length) (listenPointer s) t.chip)
      (hbuf : ∀ j (hj : j < o.data.length), t.packet.rxBuf.read j = o.data[j]) (hr : o.Reads s)
      (hrssi : QuietAir s → r = s.chip.pktRssi) (hsnr : QuietAir s → q = s.chip.pktSnr)
      (hpkt : t.packet.valid = true ∧ t.packet.rxLen = o.count ∧ t.packet.rssiDbm = rssiDbmOf r ∧
        t.packet.snrQ = snrQOf q)
  | failed (recs : List BusRecord) (f : Byte) (b : Bool) (hf : PollFails s recs t.status f b)
      (hat : PollAt s .rxContinuous
        (recs ++ if b then [wrote s.cfg .opMode (modeByte s.cfg .rxContinuous)] else []) f s.chip.fifoAddrPtr
        (if b then s.chip.fifoRxBase else listenPointer s) t)

/-- At Idle POLL has handed over a Packet or come to a result without one. -/
theorem Polling.ends {s t : State} (h : Polling s t) (hid : t.phase = .idle) : PollEnds s t := by
  cases h with
  | handed o r q hn hph hat hc hbuf hr hrssi hsnr hpkt =>
    exact .handed o r q hn (by simpa [hid] using hph) hat hc hbuf hr hrssi hsnr hpkt
  | failed recs res f b hph hf hat =>
    obtain rfl : t.status = res := by simpa [hid] using hph
    exact .failed recs f b hf hat
  | reading o hn hph =>
    rw [hid, readoutFrom] at hph
    split at hph <;> cases hph
  | waiting t hph => simp [hid] at hph
  | arm _ hph | signalled hph | read _ hph | acked _ hph | verified _ _ hph | located _ _ _ hph | pointed _ _ _ hph
    | measured _ _ _ hph | complete _ _ _ _ hph | rearm _ _ _ hph => rw [hid] at hph; cases hph

theorem poll_completes {s : State} (ms : BitVec 16) (hs : s.Ready) (hq : s.hostQuiet) (hb : s.busSound) :
    ∃ t, exec (.poll ms) s = .next t ∧ t.phase = .idle ∧ KeepsOperands s t ∧ PollEnds s t := by
  obtain ⟨t, ht, htid, hk, h⟩ := exec_session_first (i := .poll ms) rfl hs.idle (fun _ => hs.configured) hq hb
    (Polling.start ms hs hb) (fun _ hu h => h.afterRadio hu) fun _ _ hd hk h hne => h.step hs.cfg_wf hd hk hne
  exact ⟨t, ht, htid, hk, h.ends htid⟩

section
variable {s t : State} (h : PollEnds s t)
include h

/-- However it ends, the core is in RxContinuous. -/
theorem PollEnds.core : ∃ recs, CommandAt s .rxContinuous recs t := by
  cases h with
  | handed o r q hn hok hat => exact ⟨_, hat⟩
  | failed recs f b hf hat => exact ⟨_, hat.toCommandAt⟩

theorem PollEnds.chip : ∃ f p w, QuietAir s → PollChip s f p w t.chip := by
  cases h with
  | handed o r q hn hok hat hc => exact ⟨_, _, _, hc⟩
  | failed recs f b hf hat => exact ⟨_, _, _, hat.chip⟩

/-- A Packet stands in the registers exactly with Ok (44_rx_crc.md R177). -/
theorem PollEnds.result : (t.status = .ok ∧ t.packet.valid = true) ∨
    ((t.status = .rxTimeout ∨ t.status = .crcError) ∧ t.packet.valid = false) := by
  cases h with
  | handed o r q hn hok hat hc hbuf hr hrssi hsnr hpkt => exact .inl ⟨hok, hpkt.1⟩
  | failed recs f b hf hat =>
    refine .inr ⟨?_, hat.valid⟩
    generalize t.status = res at hf
    cases hf with
    | timeout | silent => exact .inl rfl
    | crc => exact .inr rfl

end

/-- Settles O33: both ways to the end leave the chip listening; the Packet registers are valid after one of them. -/
theorem pollEndsInRxContinuous : Obligations.PollEndsInRxContinuous := by
  unfold Obligations.PollEndsInRxContinuous
  intro s ms hs hq hb
  obtain ⟨t, ht, htid, hk, hend⟩ := poll_completes ms hs hq hb
  obtain ⟨hrdata, hfrf, -⟩ := (commandsKeepWhatTheyDoNotName s t (.poll ms) rfl ht).2
  obtain ⟨recs, hat⟩ := hend.core
  obtain ⟨f, p, w, hc⟩ := hend.chip
  refine ⟨t, ht, hat.mode, hat.agree, hend.result, htid, hat.configured, hk, hrdata nofun, hfrf nofun nofun, hat.csN,
    hat.resetN, fun hp ha => ?_⟩
  have hchip := hc ⟨hp, ha⟩
  rw [exec_runs rfl hs.idle (fun _ => hs.configured)] at ht
  exact ⟨runToIdle_still (s := s.started (.poll ms)) (.inl ha) ht, hchip.fifo, hchip.map, hchip.rest⟩

/-- Settles O35: the line is heard, and what is read out is what the chip held. -/
theorem pollHandsOverTheWaitingPacket : Obligations.PollHandsOverTheWaitingPacket := by
  unfold Obligations.PollHandsOverTheWaitingPacket
  intro s ms hs hq hb ha hp hstrict hm hdone hclean
  have hquiet : QuietAir s := ⟨hp, ha⟩
  obtain ⟨t, ht, htid, hk, hend⟩ := poll_completes ms hs hq hb
  cases hend with
  | handed o r q hn hok hat hc hbuf hr hrssi hsnr hpkt =>
    obtain ⟨hvalid, hlen, hrssi', hsnr'⟩ := hpkt
    have hchip := hc hquiet
    have hcount := hr.count hquiet
    have hcur := hr.current hquiet
    have hlenN : o.data.length = s.chip.rxNbBytes.toNat := by rw [hn, hcount]
    have hdata : o.data = (List.range s.chip.rxNbBytes.toNat).map fun i =>
        s.chip.fifo.read (s.chip.fifoRxCurrent + BitVec.ofNat 8 i).toNat := by
      refine List.ext_getElem (by simp [hlenN]) fun i h1 h2 => ?_
      rw [hr.data hquiet i h1, hcur]
      simp
    refine ⟨t, ht, hok, hvalid, hlen.trans hcount, ?_, ?_, fun i hi => ?_, hchip.flags, hchip.fifo, ?_, ?_, hat.mode,
      ?_⟩
    · rw [hrssi', hrssi hquiet, rssiDbmOf_toInt]
    · rw [hsnr', hsnr hquiet]; rfl
    · rw [hbuf i (hlenN ▸ hi), hr.data hquiet i (hlenN ▸ hi), hcur]
    · rw [hchip.rxwp, listenPointer, if_pos hm]
    · rw [hchip.pointer, hcur, hlenN, BitVec.ofNat_toNat, BitVec.setWidth_eq]
    · have hbus := hat.busLog
      simp only [Readout.frames, pollFlags, pollHead, if_pos hm, hdata, (hr.heard hquiet).1, hcur, hcount,
        hrssi hquiet, hsnr hquiet, List.map_map] at hbus
      simpa [Function.comp_def] using hbus
  | failed recs f b hf hat =>
    generalize t.status = res at hf
    cases hf with
    | timeout hno => rw [hno hquiet hstrict] at hdone; cases hdone
    | silent v hno => exact absurd hquiet hno
    | crc v hv hheard => rw [(hheard hquiet).1, hclean] at hv; cases hv

/-- Settles O36: the flags read hold PayloadCrcError, so P4 goes to the re-arm. -/
theorem pollDiscardsABadPacket : Obligations.PollDiscardsABadPacket := by
  unfold Obligations.PollDiscardsABadPacket
  intro s ms hs hq hb ha hp hstrict hm hdone hbad
  have hquiet : QuietAir s := ⟨hp, ha⟩
  obtain ⟨t, ht, htid, hk, hend⟩ := poll_completes ms hs hq hb
  cases hend with
  | handed o r q hn hok hat hc hbuf hr =>
    have hv := hr.clean
    rw [(hr.heard hquiet).1, hbad] at hv; cases hv
  | failed recs f b hf hat =>
    generalize hres : t.status = res at hf
    cases hf with
    | timeout hno => rw [hno hquiet hstrict] at hdone; cases hdone
    | silent v hno => exact absurd hquiet hno
    | crc v hv hheard =>
      have hchip := hat.chip hquiet
      refine ⟨t, ht, hres, hat.valid, hat.configured, hat.mode, hat.toCommandAt.chip_mode hk.cfg hp, hchip.rxwp,
        hchip.flags,
        hchip.fifo, hchip.pointer, ?_⟩
      simpa [pollFlags, pollHead, hm, (hheard hquiet).1] using hat.busLog

/-- Settles O37: RxDone stays clear, so the line is never heard. -/
theorem pollWithoutAPacketTimesOut : Obligations.PollWithoutAPacketTimesOut := by
  unfold Obligations.PollWithoutAPacketTimesOut
  intro s ms hs hq hb ha hp hclear
  have hquiet : QuietAir s := ⟨hp, ha⟩
  have hnot {v : Byte} (hheard : Heard s v) : False := by
    have hdone := (hheard hquiet).2
    rw [hclear] at hdone; cases hdone
  obtain ⟨t, ht, htid, hk, hend⟩ := poll_completes ms hs hq hb
  cases hend with
  | handed o r q hn hok hat hc hbuf hr => exact absurd hr.heard hnot
  | failed recs f b hf hat =>
    generalize hres : t.status = res at hf
    cases hf with
    | silent v hno => exact absurd hquiet hno
    | crc v hv hheard => exact absurd hheard hnot
    | timeout hno =>
      have hchip := hat.chip hquiet
      refine ⟨t, ht, hres, hat.valid, hat.configured, hat.mode, hat.toCommandAt.chip_mode hk.cfg hp, hchip.flags, ?_,
        ?_⟩
      · rw [hchip.rxwp, listenPointer]
        cases s.cfg.rxRearmOnTimeout <;> simp
      · rw [hat.busLog, pollHead]
        simp

end Sys2Proof.Machine
end
